-- ==== Sys2Proof/Word.lean ====
section
/-! DEFINITION. The words of HTB and the two records its memories hold: the widths of 00_scope.md R7. -/

namespace Sys2Proof

/-- A command word, a bus data word, one FREQ entry (R7: DATA_BITS = FREQ_BITS = 32). -/
abbrev Word := BitVec 32

/-- A symbol, `0..255` (R7: SYM_BITS = 8). -/
abbrev Symbol := BitVec 8

/-- A node index (R7: IDX_BITS = 9). -/
abbrev NodeIdx := BitVec 9

/-- A node weight (R7: W_BITS = 40). -/
abbrev Weight := BitVec 40

/-- A stream pointer field (R7: PTR_BITS = 19). -/
abbrev StreamPtr := BitVec 19

/-- A byte offset from HTB_BASE (R7: ADDR_BITS = 16). -/
abbrev Offset := BitVec 16

/-- One record of NODE (R42). -/
structure NodeRec where
  isLeaf : Bool
  sym : Symbol
  weight : Weight
  left : NodeIdx
  right : NodeIdx
  deriving DecidableEq, Repr, Inhabited

/-- One entry of CODE (R43): LEN and the 256-bit string BITS.  Emission bit `i` of BITS is its bit `i` counted from
the most significant end, so that the eight words of R58 are its eight 32-bit slices in order. -/
structure CodeEntry where
  len : BitVec 8
  bits : BitVec 256
  deriving DecidableEq, Repr, Inhabited

end Sys2Proof
end

