-- ==== Sys2Proof/Config.lean ====
section
/-! DEFINITION. What is fixed for one HTB (00_scope.md R7) and the free values the spec leaves open
(93_implementation_defined.md I1, I2, I3, I4, I7). -/

namespace Sys2Proof

/-- N_SYM, the alphabet size (R7). -/
abbrev nSym : Nat := 256

/-- MAX_NODES (R7). -/
abbrev maxNodes : Nat := 511

/-- The one parameter the model takes as an argument, BITMEM_LOG2 (R7, R9).  It is a field of the machine's state that
no step changes, so that a claim about every state is a claim about every HTB (DESIGN CHOICE, safe: log entry 2). -/
structure Params where
  bitmemLog2 : Nat
  deriving DecidableEq, Repr

/-- BITMEM_BITS = 2^BITMEM_LOG2 (R7). -/
def Params.bitmemBits (p : Params) : Nat := 2 ^ p.bitmemLog2

/-- The default parameter value (R7). -/
def Params.default16 : Params := ⟨16⟩

namespace Config

/-- FREE VALUE (I2, R147): what FREQ[s] holds after hardware reset number `epoch` until it is written (log entry 5). -/
opaque freqAtReset (epoch : Nat) (s : Nat) : Word

/-- FREE VALUE (I3, R148): what stream bit `k` holds after hardware reset number `epoch` until it is written
(log entry 5). -/
opaque bitAtReset (epoch : Nat) (k : Nat) : Bool

/-- FREE VALUE (I4, R42): what NODE[n] holds before any BUILD wrote it; no rule reads it (log entry 6). -/
opaque nodeAtReset (epoch : Nat) (n : Nat) : NodeRec

/-- FREE VALUE (I4, R43): what CODE[s] holds before any BUILD wrote it; no rule reads it (log entry 6). -/
opaque codeAtReset (epoch : Nat) (s : Nat) : CodeEntry

/-- FREE VALUE (I1, R55): what the `k`-th draw gives a read of a busy-class offset while BUSY = 1 (log entry 8). -/
opaque busyRead (k : Nat) : Word

/-- FREE VALUE (I7, R145): whether the `k`-th draw answers a transaction that overlaps hardware reset with an error
(log entry 10). -/
opaque overlapErr (k : Nat) : Bool

/-- FREE VALUE (I7, R145): the data the `k`-th draw gives a read that overlaps hardware reset (log entry 10). -/
opaque overlapData (k : Nat) : Word

end Config

end Sys2Proof
end

