-- ==== Sys2Proof/Syntax.lean ====
section
/-! DEFINITION. The eleven commands of HTB (30_encoding.md R78), one constructor per row of the opcode table.  The
operands have the types the fields of R77 have: a symbol is 8 bits, a bit is a Bool, so no operand out of range can be
written down. -/

namespace Sys2Proof

/-- A command (R78). -/
inductive Instr where
  /-- NOP, 0x00 (R126). -/
  | nop
  /-- SOFT_RESET, 0x01 (R127). -/
  | softReset
  /-- CLR_ERR, 0x02 (R128). -/
  | clrErr
  /-- FREQ_CLEAR, 0x03 (R87). -/
  | freqClear
  /-- FREQ_INC s, 0x04 (R88). -/
  | freqInc (sym : Symbol)
  /-- BUILD, 0x10 (R91). -/
  | build
  /-- ENC_SYM s, 0x20 (R107). -/
  | encSym (sym : Symbol)
  /-- DEC_RESET, 0x30 (R114). -/
  | decReset
  /-- DEC_BIT b, 0x31 (R115). -/
  | decBit (bit : Bool)
  /-- DEC_SYM, 0x32 (R116). -/
  | decSym
  /-- DEC_FINISH, 0x33 (R117). -/
  | decFinish
  deriving DecidableEq, Repr

end Sys2Proof
end

