-- ==== Sys2Proof/WellFormed.lean ====
section
/-! DEFINITION. Well-formedness: of the three fields of a command word (30_encoding.md R73 to R76, R80), of a command,
and of the machine's parameter (00_scope.md R7). -/

namespace Sys2Proof

/-- The three operand formats (R74, R75, R76). -/
inductive Format where
  /-- No operand: A = 0. -/
  | n
  /-- A symbol in A. -/
  | s
  /-- A bit in A[0]; A[7:1] = 0. -/
  | b
  deriving DecidableEq, Repr

/-- The three fields of a command word (R73), taken apart and not yet checked. -/
structure Fields where
  op : BitVec 8
  a : BitVec 8
  rsv : BitVec 16
  deriving DecidableEq, Repr

/-- The format of an assigned OP, none for the 245 unassigned ones (R78, R81). -/
def formatOf (op : BitVec 8) : Option Format :=
  match op.toNat with
  | 0x00 => some .n
  | 0x01 => some .n
  | 0x02 => some .n
  | 0x03 => some .n
  | 0x04 => some .s
  | 0x10 => some .n
  | 0x20 => some .s
  | 0x30 => some .n
  | 0x31 => some .b
  | 0x32 => some .n
  | 0x33 => some .n
  | _ => none

/-- Check 1: the OP is assigned (R81). -/
def Fields.opAssigned (f : Fields) : Bool := (formatOf f.op).isSome

/-- Check 2: the operand field fits the OP's format (R74, R75, R76). -/
def Fields.operandFits (f : Fields) : Bool :=
  match formatOf f.op with
  | some .n => f.a == 0
  | some .s => true
  | some .b => f.a.toNat < 2
  | none => false

/-- Check 3: RSV is 0 (R73). -/
def Fields.reservedZero (f : Fields) : Bool := f.rsv == 0

/-- The fields of a legal command word (R80: every other word is an illegal command). -/
def Fields.wellFormed (f : Fields) : Bool := f.opAssigned && f.operandFits && f.reservedZero

/-- The fields of a command (R74, R75, R76, R78). -/
def Instr.fields : Instr → Fields
  | .nop => ⟨0x00, 0, 0⟩
  | .softReset => ⟨0x01, 0, 0⟩
  | .clrErr => ⟨0x02, 0, 0⟩
  | .freqClear => ⟨0x03, 0, 0⟩
  | .freqInc s => ⟨0x04, s, 0⟩
  | .build => ⟨0x10, 0, 0⟩
  | .encSym s => ⟨0x20, s, 0⟩
  | .decReset => ⟨0x30, 0, 0⟩
  | .decBit b => ⟨0x31, if b then 1 else 0, 0⟩
  | .decSym => ⟨0x32, 0, 0⟩
  | .decFinish => ⟨0x33, 0, 0⟩

/-- A command is well-formed when its fields are.  Every command is, because its operands' types carry their bounds
(`Laws.instr_wellFormed`). -/
def Instr.wellFormed (i : Instr) : Bool := i.fields.wellFormed

/-- The legal range of BITMEM_LOG2 (R7). -/
def Params.wellFormed (p : Params) : Bool := 5 ≤ p.bitmemLog2 && p.bitmemLog2 ≤ 18

end Sys2Proof
end

