-- ==== Sys2Proof/Decode.lean ====
section
/-! DEFINITION. The opcode map as a table of masks and matches (30_encoding.md R78), the total decoder over it (R79),
the encoder (R74, R75, R76), and the host's word interface. -/

namespace Sys2Proof

/-- Why a word is no command (R80 names the two kinds). -/
inductive Illegal where
  /-- The OP is not in the opcode map (R81). -/
  | unassignedOp
  /-- The OP is assigned, but a bit outside the row's fields is not 0. -/
  | reservedBits
  deriving DecidableEq, Repr

/-- One row of the opcode map (R78): its match and mask, and the OP that names the command. -/
structure Row where
  mnemonic : String
  op : BitVec 8
  format : Format
  pattern : Word
  mask : Word
  deriving DecidableEq, Repr

/-- The opcode map (R78). -/
def opcodeMap : List Row :=
  [⟨"NOP", 0x00, .n, 0x00000000, 0xFFFFFFFF⟩,
   ⟨"SOFT_RESET", 0x01, .n, 0x00000001, 0xFFFFFFFF⟩,
   ⟨"CLR_ERR", 0x02, .n, 0x00000002, 0xFFFFFFFF⟩,
   ⟨"FREQ_CLEAR", 0x03, .n, 0x00000003, 0xFFFFFFFF⟩,
   ⟨"FREQ_INC", 0x04, .s, 0x00000004, 0xFFFF00FF⟩,
   ⟨"BUILD", 0x10, .n, 0x00000010, 0xFFFFFFFF⟩,
   ⟨"ENC_SYM", 0x20, .s, 0x00000020, 0xFFFF00FF⟩,
   ⟨"DEC_RESET", 0x30, .n, 0x00000030, 0xFFFFFFFF⟩,
   ⟨"DEC_BIT", 0x31, .b, 0x00000031, 0xFFFFFEFF⟩,
   ⟨"DEC_SYM", 0x32, .n, 0x00000032, 0xFFFFFFFF⟩,
   ⟨"DEC_FINISH", 0x33, .n, 0x00000033, 0xFFFFFFFF⟩]

/-- Does the row match the word (R79)? -/
def Row.hits (r : Row) (w : Word) : Bool := w &&& r.mask == r.pattern

/-- OP = w[7:0] (R73). -/
def opField (w : Word) : BitVec 8 := w.extractLsb' 0 8

/-- The operand field A = w[15:8] (R73), which is SYM in format S (R77). -/
def symField (w : Word) : Symbol := w.extractLsb' 8 8

/-- BIT = w[8] in format B (R77). -/
def bitField (w : Word) : Bool := w.getLsbD 8

/-- RSV = w[31:16] (R73). -/
def rsvField (w : Word) : BitVec 16 := w.extractLsb' 16 16

/-- The three fields of a word (R73). -/
def fieldsOf (w : Word) : Fields := ⟨opField w, symField w, rsvField w⟩

/-- The command of a row, with operands per R77. -/
def Row.instr (r : Row) (w : Word) : Option Instr :=
  match r.op.toNat with
  | 0x00 => some .nop
  | 0x01 => some .softReset
  | 0x02 => some .clrErr
  | 0x03 => some .freqClear
  | 0x04 => some (.freqInc (symField w))
  | 0x10 => some .build
  | 0x20 => some (.encSym (symField w))
  | 0x30 => some .decReset
  | 0x31 => some (.decBit (bitField w))
  | 0x32 => some .decSym
  | 0x33 => some .decFinish
  | _ => none

/-- Decode (R79): the first row that matches gives the command; no row, and the word is illegal, by name (R80). -/
def decode (w : Word) : Except Illegal Instr :=
  match opcodeMap.find? (fun r => r.hits w) with
  | some r =>
    match r.instr w with
    | some i => .ok i
    | none => .error .unassignedOp
  | none => if (formatOf (opField w)).isSome then .error .reservedBits else .error .unassignedOp

/-- The word of three fields (R73). -/
def Fields.word (f : Fields) : Word := (f.rsv.setWidth 32 <<< 16) ||| (f.a.setWidth 32 <<< 8) ||| f.op.setWidth 32

/-- The word of a command (R74, R75, R76): `(operand << 8) | OP`. -/
def encode : Instr → Word
  | .nop => 0x00
  | .softReset => 0x01
  | .clrErr => 0x02
  | .freqClear => 0x03
  | .freqInc s => (s.setWidth 32 <<< 8) ||| 0x04
  | .build => 0x10
  | .encSym s => (s.setWidth 32 <<< 8) ||| 0x20
  | .decReset => 0x30
  | .decBit b => ((BitVec.ofBool b).setWidth 32 <<< 8) ||| 0x31
  | .decSym => 0x32
  | .decFinish => 0x33

/-- The host's view of the decoder: the command in a word of `nbits` bits, none where the decoder refuses it. -/
def decodeTableWord (nbits w : Nat) : Option Instr :=
  match decode (BitVec.ofNat 32 (w % 2 ^ nbits)) with
  | .ok i => some i
  | .error _ => none

end Sys2Proof
end

