-- ==== Sys2Proof/Machine/State.lean ====
section
/-! DEFINITION. The architectural state of HTB (10_state.md R16), grouped as R16 groups it, as plain data; the model's
own fields for the host and the interleaving (20_memory.md R67); the reset state (10_state.md R47). -/

namespace Sys2Proof.Machine

/-- The error codes ERRCODE can hold, and no other (R129).  Who raises each is said there; none stops the machine. -/
inductive ErrCode where
  | none
  | emptyInput
  | unknownSymbol
  | malformedBitstream
  | illegalCommand
  | noTree
  | bitmemOverflow
  | freqOverflow
  deriving DecidableEq, Repr

/-- An internal memory: (index, value) pairs in one canonical form, indices strictly rising (`Memory.wf`).  An index
that no pair lists has not been written since hardware reset; what it reads as is the free draw of its memory
(log entries 5, 6 and 7). -/
abbrev Memory (α : Type) := List (Nat × α)

/-- R16(a), R19. -/
structure CommandState where
  busy : Bool
  pending : Word
  lastCmd : Word
  deriving DecidableEq, Repr

/-- R16(b), R20. -/
structure TreeState where
  valid : Bool
  nleaves : BitVec 9
  root : NodeIdx
  deriving DecidableEq, Repr

/-- R16(c), R21. -/
structure DecoderState where
  cursor : NodeIdx
  symValid : Bool
  result : Symbol
  deriving DecidableEq, Repr

/-- R16(d), R22. -/
structure StreamState where
  encPtr : StreamPtr
  decPtr : StreamPtr
  decEnd : StreamPtr
  lastLen : BitVec 8
  deriving DecidableEq, Repr

/-- R16(e), R23. -/
structure ErrorState where
  err : Bool
  code : ErrCode
  info : Word
  dropped : Bool
  deriving DecidableEq, Repr

/-- R16(f): INT_PEND.DONE (R31) and the two enables of IRQ_EN (R32). -/
structure IrqState where
  done : Bool
  doneIe : Bool
  errIe : Bool
  deriving DecidableEq, Repr

/-- R16(g): FREQ (R41), NODE (R42), CODE (R43) and BITMEM (R44). -/
structure Memories where
  freq : Memory Word
  node : Memory NodeRec
  code : Memory CodeEntry
  bitmem : Memory Bool
  deriving DecidableEq, Repr

/-- The two agents (R10). -/
inductive Agent where
  | host
  | sequencer
  deriving DecidableEq, Repr

/-- What the outside can do to HTB: one host step or one hardware reset. -/
inductive Input where
  /-- `MemRead(addr, 4)` (R48). -/
  | read (addr : Offset)
  /-- `MemWrite(addr, 4, data)` (R48). -/
  | write (addr : Offset) (data : Word)
  /-- A read on an integrator's bus with byte strobes (R49). -/
  | strobedRead (strobes : BitVec 4) (addr : Offset)
  /-- A write on an integrator's bus with byte strobes (R49). -/
  | strobedWrite (strobes : BitVec 4) (addr : Offset) (data : Word)
  /-- The WAIT of the host script (R85): `RD STATUS`, repeated until BUSY reads 0.  One repetition is one host step. -/
  | wait
  /-- `rst_n` is asserted and released (R145). -/
  | hardReset
  /-- The same while a bus transaction is on the port (R145, I7): a write if `isWrite`, else a read. -/
  | hardResetDuring (isWrite : Bool)
  deriving DecidableEq, Repr

/-- What the port answers (R48): `err` is the `bus_error` response. -/
inductive BusResponse where
  | read (err : Bool) (data : Word)
  | write (err : Bool)
  deriving DecidableEq, Repr

/-- The model's own fields (log entries 3, 4, 5, 8 and 9): the host's coming inputs, oldest first; the tape that says
which agent moves when both can; the port's last answer; how many free values were drawn; how many hardware resets
there were. -/
structure Env where
  host : List Input
  turns : List Agent
  resp : Option BusResponse
  draws : Nat
  epoch : Nat
  deriving DecidableEq, Repr

/-- The state of one HTB and its port. -/
structure State where
  cmd : CommandState
  tree : TreeState
  dec : DecoderState
  ptr : StreamState
  error : ErrorState
  irq : IrqState
  mem : Memories
  params : Params
  env : Env
  deriving DecidableEq, Repr

/-- HTB never stops with a fault: every failure is recorded and the machine goes on (R132, R134), and a bus error is an
answer on the port (R131).  So the type has no constructor. -/
inductive Fault where
  deriving DecidableEq, Repr

/-- Why a command has no meaning in the model. -/
inductive Refusal where
  /-- An arm of `exec` not written yet; safe.  No arm raises it. -/
  | notModelled (mnemonic : String)
  deriving DecidableEq, Repr

/-- R47, the command state. -/
def CommandState.reset : CommandState := ⟨false, 0, 0⟩

/-- R47, the tree state. -/
def TreeState.reset : TreeState := ⟨false, 0, 0⟩

/-- R47, the decoder state. -/
def DecoderState.reset : DecoderState := ⟨0, false, 0⟩

/-- R47, the stream pointers. -/
def StreamState.reset : StreamState := ⟨0, 0, 0, 0⟩

/-- R47, the error state. -/
def ErrorState.reset : ErrorState := ⟨false, .none, 0, false⟩

/-- R47, the interrupt state. -/
def IrqState.reset : IrqState := ⟨false, false, false⟩

/-- R47: no memory is written at reset, so every entry is the free draw of its epoch. -/
def Memories.reset : Memories := ⟨[], [], [], []⟩

/-- The state right after hardware reset (R47, R145), with the default parameter (R7) and no host input yet. -/
def State.reset : State :=
  { cmd := .reset, tree := .reset, dec := .reset, ptr := .reset, error := .reset, irq := .reset, mem := .reset,
    params := .default16, env := ⟨[], [], none, 0, 0⟩ }

end Sys2Proof.Machine
end

