-- ==== Sys2Proof/Machine/Memory.lean ====
section
/-! DEFINITION. Reading and writing an internal memory in its canonical form, and packing bits into words most
significant first (20_memory.md R58, R60). -/

namespace Sys2Proof.Machine

/-- The value last written at index `k`, none if `k` has not been written. -/
def Memory.find {α : Type} : Memory α → Nat → Option α
  | [], _ => none
  | (j, v) :: rest, k => if k = j then some v else if k < j then none else Memory.find rest k

/-- Write `v` at index `k`, keeping the indices strictly rising. -/
def Memory.write {α : Type} : Memory α → Nat → α → Memory α
  | [], k, v => [(k, v)]
  | (j, u) :: rest, k, v =>
    if k < j then (k, v) :: (j, u) :: rest
    else if k = j then (k, v) :: rest
    else (j, u) :: Memory.write rest k v

/-- Write a list of values at `k`, `k + 1`, …, in that order. -/
def Memory.writeFrom {α : Type} : Memory α → Nat → List α → Memory α
  | m, _, [] => m
  | m, k, v :: vs => Memory.writeFrom (Memory.write m k v) (k + 1) vs

/-- All indices of a memory are above `lo` and rise strictly. -/
def Memory.risesFrom {α : Type} : Nat → Memory α → Bool
  | _, [] => true
  | lo, (j, _) :: rest => lo ≤ j && Memory.risesFrom (j + 1) rest

/-- The canonical form: indices strictly rising and below the memory's size. -/
def Memory.wf {α : Type} (size : Nat) (m : Memory α) : Bool :=
  Memory.risesFrom 0 m && m.all (fun c => c.1 < size)

/-- The number whose binary digits, most significant first, are `f 0`, …, `f (n - 1)`. -/
def packMsb (f : Nat → Bool) : Nat → Nat
  | 0 => 0
  | n + 1 => 2 * packMsb f n + (f n).toNat

/-- The word with `data[31 - i] = f i` for `i` in `0..31` (R58, R60, R61). -/
def wordOfBits (f : Nat → Bool) : Word := BitVec.ofNat 32 (packMsb f 32)

/-- `wdata[31 - i]`, the bit that goes to stream position `i` of a word (R61). -/
def streamBitOfWord (w : Word) (i : Nat) : Bool := w.getMsbD i

/-- The 32 stream bits of a word, in stream order (R61).  Irreducible, so that no proof evaluates the list by accident:
`getElem_bitsOfWord` says what it holds. -/
@[irreducible] def bitsOfWord (w : Word) : List Bool := (List.range 32).map (streamBitOfWord w)

end Sys2Proof.Machine
end

