-- ==== Sys2Proof/Machine/Operands.lean ====
section
/-! DEFINITION. The operands a command takes from architectural state (30_encoding.md R77): entries of FREQ, NODE and
CODE (00_scope.md R13), bits of BITMEM (20_memory.md R60), and the code of a CODE entry (10_state.md R43). -/

namespace Sys2Proof

/-- BITS[i], the `i`-th bit in emission order (R12, R43). -/
def CodeEntry.bit (c : CodeEntry) (i : Nat) : Bool := c.bits.getMsbD i

/-- The code of an entry: its first LEN bits in emission order (R43). -/
def CodeEntry.code (c : CodeEntry) : List Bool := (List.range c.len.toNat).map c.bit

/-- The entry that stores a code: LEN = its length, BITS = its bits and then zeros (R43). -/
def CodeEntry.ofCode (p : List Bool) : CodeEntry :=
  ⟨BitVec.ofNat 8 p.length, BitVec.ofNat 256 (Machine.packMsb (fun i => p.getD i false) 256)⟩

end Sys2Proof

namespace Sys2Proof.Machine

/-- FREQ[s] (R13, R41); a count not written since hardware reset is the free draw of its epoch (R147). -/
def State.freqRead (s : State) (sym : Symbol) : Word :=
  (s.mem.freq.find sym.toNat).getD (Config.freqAtReset s.env.epoch sym.toNat)

/-- FREQ[s] <- v (R13). -/
def State.freqWrite (s : State) (sym : Symbol) (v : Word) : State :=
  { s with mem := { s.mem with freq := s.mem.freq.write sym.toNat v } }

/-- NODE[n] (R13, R42). -/
def State.nodeRead (s : State) (n : Nat) : NodeRec :=
  (s.mem.node.find n).getD (Config.nodeAtReset s.env.epoch n)

/-- CODE[s] (R13, R43). -/
def State.codeRead (s : State) (sym : Symbol) : CodeEntry :=
  (s.mem.code.find sym.toNat).getD (Config.codeAtReset s.env.epoch sym.toNat)

/-- BITMEM_BITS (R7). -/
def State.bitmemBits (s : State) : Nat := s.params.bitmemBits

/-- BitRead(k) (R60); a bit not written since hardware reset is the free draw of its epoch (R148). -/
def State.bitRead (s : State) (k : Nat) : Bool :=
  (s.mem.bitmem.find k).getD (Config.bitAtReset s.env.epoch k)

/-- BitWrite(k, b), BitWrite(k + 1, b'), … for a list of bits (R60, R107). -/
def State.bitWriteFrom (s : State) (k : Nat) (bs : List Bool) : State :=
  { s with mem := { s.mem with bitmem := s.mem.bitmem.writeFrom k bs } }

/-- NNODES = TREE_VALID ? 2*NLEAVES-1 : 0 (R20). -/
def State.nnodes (s : State) : Nat := if s.tree.valid then 2 * s.tree.nleaves.toNat - 1 else 0

/-- min(DEC_END, BITMEM_BITS), the exclusive end of the bits DEC_SYM may read (R116). -/
def State.decLimit (s : State) : Nat := min s.ptr.decEnd.toNat s.bitmemBits

end Sys2Proof.Machine
end

