-- ==== Sys2Proof/Machine/Flags.lean ====
section
/-! DEFINITION. Every value HTB computes from its state for the host to see: the STATUS bits (10_state.md R28), the
identification words (R24, R25, R26), INT_PEND and IRQ_EN as words (R31, R32), the error codes as bytes
(60_exceptions.md R129), and the interrupt line (R138). -/

namespace Sys2Proof.Machine

/-- The number of an error code (R129). -/
def ErrCode.toByte : ErrCode → BitVec 8
  | .none => 0x00
  | .emptyInput => 0x01
  | .unknownSymbol => 0x02
  | .malformedBitstream => 0x03
  | .illegalCommand => 0x10
  | .noTree => 0x11
  | .bitmemOverflow => 0x12
  | .freqOverflow => 0x13

/-- STATUS[2] SINGLE_LEAF (R28). -/
def State.singleLeaf (s : State) : Bool := s.tree.valid && s.tree.nleaves == 1

/-- STATUS[3] AT_ROOT (R28). -/
def State.atRoot (s : State) : Bool := s.tree.valid && s.dec.cursor == s.tree.root

/-- The word with bit `i` set to `b` and every other bit 0. -/
def bitAt (i : Nat) (b : Bool) : Word := (BitVec.ofBool b).setWidth 32 <<< i

/-- STATUS (R28). -/
def State.statusWord (s : State) : Word :=
  bitAt 0 s.cmd.busy ||| bitAt 1 s.tree.valid ||| bitAt 2 s.singleLeaf ||| bitAt 3 s.atRoot |||
    bitAt 4 s.dec.symValid ||| bitAt 5 s.error.err ||| bitAt 6 s.error.dropped

/-- ID (R24). -/
def idWord : Word := 0x48544200

/-- VERSION 1.0 (R25). -/
def versionWord : Word := 0x00000100

/-- PARAM (R26): BITMEM_LOG2 in [4:0], SYM_BITS = 8 in [15:8], MAX_NODES = 511 in [24:16]. -/
def paramWord (p : Params) : Word :=
  ((BitVec.ofNat 5 p.bitmemLog2).setWidth 32) ||| ((8 : Word) <<< 8) ||| ((511 : Word) <<< 16)

/-- INT_PEND (R31). -/
def State.intPendWord (s : State) : Word := bitAt 0 s.irq.done

/-- IRQ_EN (R32). -/
def State.irqEnWord (s : State) : Word := bitAt 0 s.irq.doneIe ||| bitAt 1 s.irq.errIe

/-- The interrupt output (R138). -/
def State.irqLine (s : State) : Bool := (s.irq.done && s.irq.doneIe) || (s.error.err && s.irq.errIe)

end Sys2Proof.Machine
end

