-- ==== Sys2Proof/Machine/Ops.lean ====
section
/-! DEFINITION. The operations the commands share: recording a failure, which is what HTB has in place of taking an
exception (60_exceptions.md R132, R134), the return from it (R135), completion (44_control.md R124), and the outcome of
a command (R123). -/

namespace Sys2Proof.Machine

/-- Taking an error (R132, R134): ERR <- 1, ERRCODE <- E, ERRINFO <- I, and nothing else.  There is no vector, no mode
and no saved state. -/
def State.raise (s : State) (code : ErrCode) (info : Word) : State :=
  { s with error := { s.error with err := true, code := code, info := info } }

/-- The return from an error (R128, R135): ERR, ERRCODE, ERRINFO and DROPPED are cleared, nothing else. -/
def State.clearError (s : State) : State := { s with error := .reset }

/-- Complete (R124): BUSY <- 0, PENDING <- 0, INT_PEND.DONE <- 1. -/
def State.complete (s : State) : State :=
  { s with cmd := { s.cmd with busy := false, pending := 0 }, irq := { s.irq with done := true } }

/-- DROPPED <- 1 (R23): a bus write or a command was discarded. -/
def State.drop (s : State) : State := { s with error := { s.error with dropped := true } }

/-- The outcome of a command's rule (R123): the state with its writes committed, or a failure. -/
inductive CmdResult where
  | ok (s : State)
  | fail (code : ErrCode) (info : Word)

/-- Apply an outcome to the state the command began in (R123): its committed state, or that state with only the
failure recorded (R132). -/
def CmdResult.settle (r : CmdResult) (s : State) : State :=
  match r with
  | .ok t => t
  | .fail code info => s.raise code info

/-- What `exec` answers for a command whose rule gives `r`: HTB always goes on. -/
def answer (r : CmdResult) (s : State) : Host.Outcome State Fault Refusal := .next (r.settle s)

/-- Apply `f` to the state of a next outcome. -/
def onNext (f : State → State) (o : Host.Outcome State Fault Refusal) : Host.Outcome State Fault Refusal :=
  match o with
  | .next s => .next (f s)
  | .fault r => .fault r
  | .refused r => .refused r

/-- ERRINFO of MALFORMED_BITSTREAM: the subcause in bits [3:0] (R130). -/
def subcause (k : Nat) : Word := BitVec.ofNat 32 k

/-- NO_TREE's check, made before a command's own checks (R133): with no tree it fails with the command's OP as ERRINFO
(R130). -/
def withTree (s : State) (op : Word) (r : CmdResult) : CmdResult :=
  if s.tree.valid then r else .fail .noTree op

end Sys2Proof.Machine
end

