-- ==== Sys2Proof/Machine/Bus.lean ====
section
/-! DEFINITION. The host bus port (20_memory.md): the address map (R51), reads and writes of every register and window
(R24 to R40, R52, R53, R56 to R61), the busy rule (R54, R55), command acceptance (44_control.md R122), byte strobes
(R49), byte lanes (R62) and the base address (R65). -/

namespace Sys2Proof.Machine

/-- The registers of the address map (R51). -/
inductive Reg where
  | id | version | param | cmd | status | errCode | errInfo | intPend | irqEn
  | encPtr | decPtr | decEnd | result | root | nleaves | cursor | lastLen
  deriving DecidableEq, Repr

/-- What an offset of the address map names (R51), which is also a target of the host script (R83). -/
inductive Target where
  | reg (r : Reg)
  /-- A reserved offset of 0x0000-0x00FF (R52). -/
  | reserved (a : Offset)
  | freq (s : Symbol)
  | codeLen (s : Symbol)
  | codeBits (s : Symbol) (j : Nat)
  | node (n : Nat) (i : Nat)
  | bitmem (j : Nat)
  deriving DecidableEq, Repr

/-- The offset of a register (R51). -/
def Reg.offset : Reg → Nat
  | .id => 0x0000
  | .version => 0x0004
  | .param => 0x0008
  | .cmd => 0x0010
  | .status => 0x0014
  | .errCode => 0x0018
  | .errInfo => 0x001C
  | .intPend => 0x0020
  | .irqEn => 0x0024
  | .encPtr => 0x0030
  | .decPtr => 0x0034
  | .decEnd => 0x0038
  | .result => 0x003C
  | .root => 0x0040
  | .nleaves => 0x0044
  | .cursor => 0x0048
  | .lastLen => 0x004C

/-- The register at an offset of 0x0000-0x00FF, none at a reserved one (R51, R52). -/
def regAt (n : Nat) : Option Reg :=
  match n with
  | 0x0000 => some .id
  | 0x0004 => some .version
  | 0x0008 => some .param
  | 0x0010 => some .cmd
  | 0x0014 => some .status
  | 0x0018 => some .errCode
  | 0x001C => some .errInfo
  | 0x0020 => some .intPend
  | 0x0024 => some .irqEn
  | 0x0030 => some .encPtr
  | 0x0034 => some .decPtr
  | 0x0038 => some .decEnd
  | 0x003C => some .result
  | 0x0040 => some .root
  | 0x0044 => some .nleaves
  | 0x0048 => some .cursor
  | 0x004C => some .lastLen
  | _ => none

/-- The offset a target names (R51, R56, R57, R58, R59, R61). -/
def Target.offset : Target → Offset
  | .reg r => BitVec.ofNat 16 r.offset
  | .reserved a => a
  | .freq s => BitVec.ofNat 16 (0x0400 + 4 * s.toNat)
  | .codeLen s => BitVec.ofNat 16 (0x0800 + 4 * s.toNat)
  | .codeBits s j => BitVec.ofNat 16 (0x1000 + 32 * s.toNat + 4 * j)
  | .node n i => BitVec.ofNat 16 (0x4000 + 16 * n + 4 * i)
  | .bitmem j => BitVec.ofNat 16 (0x8000 + 4 * j)

/-- The targets the address map has: word indices within their windows, reserved offsets that are aligned, in
0x0000-0x00FF and no register (R51). -/
def Target.exists? (p : Params) : Target → Bool
  | .reg _ => true
  | .reserved a => a.toNat % 4 == 0 && a.toNat < 0x0100 && (regAt a.toNat).isNone
  | .freq _ => true
  | .codeLen _ => true
  | .codeBits _ j => j < 8
  | .node n i => n < 512 && i < 4
  | .bitmem j => j < p.bitmemBits / 32

/-- What an offset names (R51); none is a bus error: misaligned (R49, R63) or unmapped (R50). -/
def locate (p : Params) (a : Offset) : Option Target :=
  if a.toNat % 4 ≠ 0 then none
  else if a.toNat < 0x0100 then
    match regAt a.toNat with
    | some r => some (.reg r)
    | none => some (.reserved a)
  else if a.toNat < 0x0400 then none
  else if a.toNat < 0x0800 then some (.freq (BitVec.ofNat 8 ((a.toNat - 0x0400) / 4)))
  else if a.toNat < 0x0C00 then some (.codeLen (BitVec.ofNat 8 ((a.toNat - 0x0800) / 4)))
  else if a.toNat < 0x1000 then none
  else if a.toNat < 0x3000 then
    some (.codeBits (BitVec.ofNat 8 ((a.toNat - 0x1000) / 32)) ((a.toNat - 0x1000) % 32 / 4))
  else if a.toNat < 0x4000 then none
  else if a.toNat < 0x6000 then some (.node ((a.toNat - 0x4000) / 16) ((a.toNat - 0x4000) % 16 / 4))
  else if a.toNat < 0x8000 then none
  else if a.toNat < 0x8000 + p.bitmemBits / 8 then some (.bitmem ((a.toNat - 0x8000) / 4))
  else none

/-- The targets accessible at any time (R54); every other mapped one is busy-class (R55). -/
def Target.always : Target → Bool
  | .reg .id => true
  | .reg .version => true
  | .reg .param => true
  | .reg .cmd => true
  | .reg .status => true
  | .reg .intPend => true
  | .reg .irqEn => true
  | .reserved _ => true
  | _ => false

/-- A register's read value (R24 to R40). -/
def State.readReg (s : State) : Reg → Word
  | .id => idWord
  | .version => versionWord
  | .param => paramWord s.params
  | .cmd => s.cmd.lastCmd
  | .status => s.statusWord
  | .errCode => s.error.code.toByte.setWidth 32
  | .errInfo => s.error.info
  | .intPend => s.intPendWord
  | .irqEn => s.irqEnWord
  | .encPtr => s.ptr.encPtr.setWidth 32
  | .decPtr => s.ptr.decPtr.setWidth 32
  | .decEnd => s.ptr.decEnd.setWidth 32
  | .result => s.dec.result.setWidth 32
  | .root => s.tree.root.setWidth 32
  | .nleaves => s.tree.nleaves.setWidth 32
  | .cursor => s.dec.cursor.setWidth 32
  | .lastLen => s.ptr.lastLen.setWidth 32

/-- Word `i` of a node record (R59). -/
def nodeWord (r : NodeRec) (i : Nat) : Word :=
  match i with
  | 0 => ((1 : Word) <<< 31) ||| (r.sym.setWidth 32 <<< 8) ||| bitAt 0 r.isLeaf
  | 1 => r.weight.extractLsb' 0 32
  | 2 => (r.weight.extractLsb' 32 8).setWidth 32
  | _ => (r.right.setWidth 32 <<< 16) ||| r.left.setWidth 32

/-- BITMEM word `j` (R61). -/
def State.bitmemWord (s : State) (j : Nat) : Word := wordOfBits fun i => s.bitRead (32 * j + i)

/-- A target's read value when the busy rule does not apply (R52, R56, R57, R58, R59, R61). -/
def State.readTarget (s : State) : Target → Word
  | .reg r => s.readReg r
  | .reserved _ => 0
  | .freq sym => s.freqRead sym
  | .codeLen sym => if s.tree.valid then (s.codeRead sym).len.setWidth 32 else 0
  | .codeBits sym j => if s.tree.valid then wordOfBits fun i => (s.codeRead sym).bit (32 * j + i) else 0
  | .node n i => if n ≥ s.nnodes then 0 else nodeWord (s.nodeRead n) i
  | .bitmem j => s.bitmemWord j

/-- The OPs the error lock-out lets through: NOP, SOFT_RESET, CLR_ERR (R122). -/
def exemptOp (w : Word) : Bool := (w.extractLsb' 0 8).toNat ≤ 2

/-- Acceptance of a command word (R122). -/
def State.accept (s : State) (w : Word) : State :=
  if s.cmd.busy then s.drop
  else if s.error.err && !exemptOp w then s.drop
  else { s with cmd := { busy := true, pending := w, lastCmd := w } }

/-- A register write when the busy rule does not apply: CMD (R27), INT_PEND (R31), IRQ_EN (R32), the pointers (R33, R34,
R35); every other register ignores it (R53). -/
def State.writeReg (s : State) (v : Word) : Reg → State
  | .cmd => s.accept v
  | .intPend => if v.getLsbD 0 then { s with irq := { s.irq with done := false } } else s
  | .irqEn => { s with irq := { s.irq with doneIe := v.getLsbD 0, errIe := v.getLsbD 1 } }
  | .encPtr => { s with ptr := { s.ptr with encPtr := v.extractLsb' 0 19 } }
  | .decPtr => { s with ptr := { s.ptr with decPtr := v.extractLsb' 0 19 } }
  | .decEnd => { s with ptr := { s.ptr with decEnd := v.extractLsb' 0 19 } }
  | .id => s
  | .version => s
  | .param => s
  | .status => s
  | .errCode => s
  | .errInfo => s
  | .result => s
  | .root => s
  | .nleaves => s
  | .cursor => s
  | .lastLen => s

/-- A target's write when the busy rule does not apply (R52, R53, R56, R61). -/
def State.writeTarget (s : State) (v : Word) : Target → State
  | .reg r => s.writeReg v r
  | .reserved _ => s
  | .freq sym => s.freqWrite sym v
  | .codeLen _ => s
  | .codeBits _ _ => s
  | .node _ _ => s
  | .bitmem j => s.bitWriteFrom (32 * j) (bitsOfWord v)

/-- The next free value is used up (log entry 8). -/
def State.drawn (s : State) : State := { s with env := { s.env with draws := s.env.draws + 1 } }

/-- MemRead(addr, 4) (R48): the answer and the state after it.  Only the model's own draw counter can change (R64). -/
def State.busRead (s : State) (a : Offset) : BusResponse × State :=
  match locate s.params a with
  | none => (.read true 0, s)
  | some t =>
    if s.cmd.busy && !t.always then (.read false (Config.busyRead s.env.draws), s.drawn)
    else (.read false (s.readTarget t), s)

/-- MemWrite(addr, 4, v) (R48): the answer and the state after it. -/
def State.busWrite (s : State) (a : Offset) (v : Word) : BusResponse × State :=
  match locate s.params a with
  | none => (.write true, s)
  | some t =>
    if s.cmd.busy && !t.always then (.write false, s.drop)
    else (.write false, s.writeTarget v t)

/-- A read with byte strobes: refused unless all four are set (R49). -/
def State.strobedRead (s : State) (strobes : BitVec 4) (a : Offset) : BusResponse × State :=
  if strobes = 0xF then s.busRead a else (.read true 0, s)

/-- A write with byte strobes: refused unless all four are set (R49). -/
def State.strobedWrite (s : State) (strobes : BitVec 4) (a : Offset) (v : Word) : BusResponse × State :=
  if strobes = 0xF then s.busWrite a v else (.write true, s)

/-- Byte lane `k` of a bus word, the byte at offset + k on a byte-addressed bus (R62). -/
def byteLane (v : Word) (k : Fin 4) : BitVec 8 := v.extractLsb' (8 * k.val) 8

/-- The offset of a host address, none when it does not reach HTB: HTB_BASE is an argument (R65, log entry 1). -/
def offsetOf (htbBase addr : Nat) : Option Offset :=
  if htbBase ≤ addr ∧ addr - htbBase < 0x10000 then some (BitVec.ofNat 16 (addr - htbBase)) else none

/-- Hardware reset (R145): the reset values, a new draw of what is unspecified, the pending command abandoned.  The
parameter and what the host has yet to do stay. -/
def State.hardReset (s : State) : State :=
  { State.reset with
    params := s.params
    env := { s.env with resp := none, epoch := s.env.epoch + 1 } }

/-- The port has answered (log entry 9). -/
def State.answered (r : BusResponse × State) : State := { r.2 with env := { r.2.env with resp := some r.1 } }

/-- The unspecified answer to a transaction that overlaps hardware reset (R145, I7). -/
def overlapResponse (isWrite : Bool) (k : Nat) : BusResponse :=
  if isWrite then .write (Config.overlapErr k) else .read (Config.overlapErr k) (Config.overlapData k)

/-- The effect of one input on HTB and its port (R48, R49, R85, R145). -/
def State.input (s : State) : Input → State
  | .read a => State.answered (s.busRead a)
  | .write a v => State.answered (s.busWrite a v)
  | .strobedRead st a => State.answered (s.strobedRead st a)
  | .strobedWrite st a v => State.answered (s.strobedWrite st a v)
  | .wait => State.answered (s.busRead (Target.reg .status).offset)
  | .hardReset => s.hardReset
  | .hardResetDuring isWrite => State.answered (overlapResponse isWrite s.env.draws, s.hardReset.drawn)

/-- Is the input used up by the step that performs it?  A WAIT is repeated until STATUS reads BUSY = 0 (R85). -/
def State.usesUp (s : State) : Input → Bool
  | .wait => !s.cmd.busy
  | _ => true

/-- The input has been used up: the host goes on to the next. -/
def State.nextInput (s : State) : State := { s with env := { s.env with host := s.env.host.tail } }

/-- A host step (R67): the oldest input takes effect. -/
def State.hostStep (s : State) : State :=
  match s.env.host with
  | [] => s
  | i :: _ => if s.usesUp i then (s.input i).nextInput else s.input i

/-- Which agent moves (R67, R123, R159): the sequencer is enabled exactly when BUSY = 1, the host when it has an input;
where both are, the tape says which, and the sequencer when the tape is used up (log entry 4). -/
def State.mover (s : State) : Option Agent :=
  if s.cmd.busy then
    if s.env.host.isEmpty then some .sequencer else some (s.env.turns.headD .sequencer)
  else if s.env.host.isEmpty then none else some .host

/-- The turn has been taken. -/
def State.turnTaken (s : State) : State := { s with env := { s.env with turns := s.env.turns.tail } }

end Sys2Proof.Machine
end

