-- ==== Sys2Proof/Machine/Builder.lean ====
section
/-! DEFINITION. BUILD (41_tree_builder.md): seeding (R92), min-extraction and merging (R95, R96, R97), the root (R98),
the code table (R101, R102) and the commit (R103).  The node table under construction is a list whose position is the
node index; the priority collection is a list of node indices, in no particular order (R95). -/

namespace Sys2Proof.Machine

/-- The node at index `n` of a table under construction. -/
def nodeAt (nodes : List NodeRec) (n : Nat) : NodeRec := nodes.getD n default

/-- The symbols with a nonzero count, ascending (R91 step 1, R92). -/
def seedSymbols (freq : Symbol → Word) : List Symbol :=
  ((List.range nSym).map (BitVec.ofNat 8)).filter (fun k => freq k ≠ 0)

/-- The leaf of a symbol (R92): its count zero-extended to 40 bits. -/
def leafNode (freq : Symbol → Word) (k : Symbol) : NodeRec :=
  { isLeaf := true, sym := k, weight := (freq k).setWidth 40, left := 0, right := 0 }

/-- The leaves, the `k`-th at index `k` (R92). -/
def seedNodes (freq : Symbol → Word) : List NodeRec := (seedSymbols freq).map (leafNode freq)

/-- The extraction order (R96): `a` precedes `b`. -/
def precedes (nodes : List NodeRec) (a b : Nat) : Bool :=
  (nodeAt nodes a).weight < (nodeAt nodes b).weight ||
    ((nodeAt nodes a).weight == (nodeAt nodes b).weight && a < b)

/-- The minimal element of the priority collection under the extraction order (R91, R96). -/
def argmin (nodes : List NodeRec) : List Nat → Option Nat
  | [] => none
  | n :: ns =>
    match argmin nodes ns with
    | none => some n
    | some m => some (if precedes nodes m n then m else n)

/-- Remove the minimal element (R95). -/
def extractMin (nodes : List NodeRec) (pq : List Nat) : Option (Nat × List Nat) :=
  (argmin nodes pq).map fun a => (a, pq.erase a)

/-- The internal node over `a`, extracted first, and `b` (R97, R99). -/
def joinNode (nodes : List NodeRec) (a b : Nat) : NodeRec :=
  { isLeaf := false, sym := 0, weight := (nodeAt nodes a).weight + (nodeAt nodes b).weight,
    left := BitVec.ofNat 9 a, right := BitVec.ofNat 9 b }

/-- The node table and the priority collection during a BUILD. -/
structure Forest where
  nodes : List NodeRec
  pq : List Nat
  deriving DecidableEq, Repr

/-- One merge (R95): none when fewer than two nodes are left. -/
def Forest.merge (f : Forest) : Option Forest :=
  match extractMin f.nodes f.pq with
  | none => none
  | some (a, pq₁) =>
    match extractMin f.nodes pq₁ with
    | none => none
    | some (b, pq₂) => some ⟨f.nodes ++ [joinNode f.nodes a b], pq₂ ++ [f.nodes.length]⟩

/-- Merge while two or more nodes are left, at most `k` times. -/
def Forest.mergeUpTo : Nat → Forest → Forest
  | 0, f => f
  | k + 1, f =>
    match f.merge with
    | none => f
    | some f' => Forest.mergeUpTo k f'

/-- The seeded forest (R92). -/
def seedForest (freq : Symbol → Word) : Forest := ⟨seedNodes freq, List.range (seedNodes freq).length⟩

/-- The forest after all merges: each one shrinks the collection by one (R95), so as many rounds as it has elements
are enough. -/
def builtForest (freq : Symbol → Word) : Forest := (seedForest freq).mergeUpTo (seedForest freq).pq.length

/-- The node table of a BUILD: N[0..2L-2] (R91). -/
def builtNodes (freq : Symbol → Word) : List NodeRec := (builtForest freq).nodes

/-- The root: the one element left (R91, R98). -/
def builtRoot (freq : Symbol → Word) : Nat := (builtForest freq).pq.headD 0

/-- Walk (R91 step 3, R101): the leaves under node `n` with their paths, left before right.  A child's index is below
its parent's (R99), so `fuel` above the root's index is enough. -/
def walk (nodes : List NodeRec) : Nat → Nat → List Bool → List (Symbol × List Bool)
  | 0, _, _ => []
  | fuel + 1, n, path =>
    if (nodeAt nodes n).isLeaf then [((nodeAt nodes n).sym, path)]
    else
      walk nodes fuel (nodeAt nodes n).left.toNat (path ++ [false]) ++
        walk nodes fuel (nodeAt nodes n).right.toNat (path ++ [true])

/-- The codes of a finished tree (R101), with the one-bit code of a single leaf (R102). -/
def codesOf (nodes : List NodeRec) (root : Nat) : List (Symbol × List Bool) :=
  if nodes.length = 1 then [((nodeAt nodes 0).sym, [false])] else walk nodes nodes.length root []

/-- The codes a BUILD assigns. -/
def builtCodes (freq : Symbol → Word) : List (Symbol × List Bool) := codesOf (builtNodes freq) (builtRoot freq)

/-- The code a list of codes gives a symbol, empty for a symbol that has none. -/
def codeIn (codes : List (Symbol × List Bool)) (k : Symbol) : List Bool := (codes.lookup k).getD []

/-- The code of one symbol after a BUILD (R101, R102). -/
def builtCode (freq : Symbol → Word) (k : Symbol) : List Bool := codeIn (builtCodes freq) k

/-- The 256 CODE entries of a list of codes: LEN 0 and BITS 0 for a symbol that has none (R91 step 3). -/
def tableOf (codes : List (Symbol × List Bool)) : List CodeEntry :=
  (List.range nSym).map fun k => CodeEntry.ofCode (codeIn codes (BitVec.ofNat 8 k))

/-- C[0..255] (R91 step 3).  Irreducible, so that no proof evaluates the table by accident. -/
@[irreducible] def builtTable (freq : Symbol → Word) : List CodeEntry := tableOf (builtCodes freq)

/-- The commit of a BUILD (R91 step 4, R103). -/
def State.commitBuild (s : State) : State :=
  { s with
    mem := { s.mem with
      node := s.mem.node.writeFrom 0 (builtNodes s.freqRead)
      code := s.mem.code.writeFrom 0 (builtTable s.freqRead) }
    tree := { valid := true
              nleaves := BitVec.ofNat 9 (seedSymbols s.freqRead).length
              root := BitVec.ofNat 9 (builtRoot s.freqRead) }
    dec := { s.dec with cursor := BitVec.ofNat 9 (builtRoot s.freqRead), symValid := false } }

/-- The rule of BUILD (R91, R93). -/
def buildRule (s : State) : CmdResult :=
  if (seedSymbols s.freqRead).isEmpty then .fail .emptyInput 0 else .ok s.commitBuild

/-- BUILD (R91). -/
def execBuild (s : State) : Host.Outcome State Fault Refusal := answer (buildRule s) s

end Sys2Proof.Machine
end

