-- ==== Sys2Proof/Machine/Control.lean ====
section
/-! DEFINITION. The control commands (44_control.md): NOP (R126), SOFT_RESET (R127), CLR_ERR (R128). -/

namespace Sys2Proof.Machine

/-- What SOFT_RESET commits (R127): the control state to its reset values; FREQ, NODE, CODE, BITMEM and IRQ_EN keep
theirs. -/
def State.softReset (s : State) : State :=
  { s with
    cmd := { s.cmd with lastCmd := 0 }
    tree := .reset
    dec := .reset
    ptr := .reset
    error := .reset
    irq := { s.irq with done := false } }

/-- NOP (R126). -/
def execNop (s : State) : Host.Outcome State Fault Refusal := answer (.ok s) s

/-- SOFT_RESET (R127). -/
def execSoftReset (s : State) : Host.Outcome State Fault Refusal := answer (.ok s.softReset) s

/-- CLR_ERR (R128). -/
def execClrErr (s : State) : Host.Outcome State Fault Refusal := answer (.ok s.clearError) s

end Sys2Proof.Machine
end

