-- ==== Sys2Proof/Machine/Decoder.lean ====
section
/-! DEFINITION. The decoder (43_decoder.md): the one-bit step (R111, R112, R113) and the commands DEC_RESET (R114),
DEC_BIT (R115), DEC_SYM (R116) and DEC_FINISH (R117). -/

namespace Sys2Proof.Machine

/-- What the one-bit step gives (R111). -/
inductive Walked where
  /-- The cursor moved to an internal node; nothing was emitted. -/
  | moved (cur : NodeIdx)
  /-- A leaf was reached: its symbol is emitted and the cursor is back at ROOT. -/
  | emitted (sym : Symbol)
  /-- The step was asked to move from a leaf (R113). -/
  | fromLeaf
  deriving DecidableEq, Repr

/-- The child of a node on a bit: LEFT on 0, RIGHT on 1 (R111). -/
def childOf (r : NodeRec) (b : Bool) : NodeIdx := if b then r.right else r.left

/-- Step(cur, b) (R111), with the single-leaf tree (R112) and the move from a leaf (R113). -/
def State.walkBit (s : State) (cur : NodeIdx) (b : Bool) : Walked :=
  if s.tree.nleaves = 1 then .emitted (s.nodeRead 0).sym
  else if (s.nodeRead cur.toNat).isLeaf then .fromLeaf
  else if (s.nodeRead (childOf (s.nodeRead cur.toNat) b).toNat).isLeaf then
    .emitted (s.nodeRead (childOf (s.nodeRead cur.toNat) b).toNat).sym
  else .moved (childOf (s.nodeRead cur.toNat) b)

/-- A symbol is emitted: RESULT, SYM_VALID <- 1, the cursor back at ROOT (R115, R116). -/
def State.emitSymbol (s : State) (sym : Symbol) : State :=
  { s with dec := { cursor := s.tree.root, symValid := true, result := sym } }

/-- The cursor moves and nothing is emitted (R115). -/
def State.moveCursor (s : State) (cur : NodeIdx) : State :=
  { s with dec := { s.dec with cursor := cur, symValid := false } }

/-- The rule of DEC_BIT (R115). -/
def decBitRule (b : Bool) (s : State) : CmdResult :=
  withTree s 0x31 <|
    match s.walkBit s.dec.cursor b with
    | .moved cur => .ok (s.moveCursor cur)
    | .emitted sym => .ok (s.emitSymbol sym)
    | .fromLeaf => .fail .malformedBitstream (subcause 1)

/-- How the loop of DEC_SYM ends (R116). -/
inductive Scan where
  /-- A symbol, and the stream position after its last bit. -/
  | found (sym : Symbol) (next : Nat)
  /-- The bits ran out (R118). -/
  | truncated
  /-- R113. -/
  | fromLeaf
  deriving DecidableEq, Repr

/-- The loop of DEC_SYM (R116) from stream position `p` with `left` bits before the limit. -/
def State.scan (s : State) : Nat → Nat → NodeIdx → Scan
  | 0, _, _ => .truncated
  | left + 1, p, cur =>
    match s.walkBit cur (s.bitRead p) with
    | .emitted sym => .found sym (p + 1)
    | .moved cur' => s.scan left (p + 1) cur'
    | .fromLeaf => .fromLeaf

/-- What DEC_SYM commits (R116). -/
def State.commitSymbol (s : State) (sym : Symbol) (next : Nat) : State :=
  { s.emitSymbol sym with ptr := { s.ptr with decPtr := BitVec.ofNat 19 next } }

/-- The rule of DEC_SYM (R116, R118, R119). -/
def decSymRule (s : State) : CmdResult :=
  withTree s 0x32 <|
    if s.ptr.decPtr.toNat ≥ s.decLimit then .fail .malformedBitstream (subcause 3)
    else
      match s.scan (s.decLimit - s.ptr.decPtr.toNat) s.ptr.decPtr.toNat s.dec.cursor with
      | .found sym next => .ok (s.commitSymbol sym next)
      | .truncated => .fail .malformedBitstream (subcause 2)
      | .fromLeaf => .fail .malformedBitstream (subcause 1)

/-- The rule of DEC_FINISH (R117). -/
def decFinishRule (s : State) : CmdResult :=
  withTree s 0x33 <|
    if s.dec.cursor ≠ s.tree.root then .fail .malformedBitstream (subcause 2) else .ok s

/-- DEC_RESET (R114): the cursor to ROOT, SYM_VALID <- 0. -/
def execDecReset (s : State) : Host.Outcome State Fault Refusal := answer (.ok (s.moveCursor s.tree.root)) s

/-- DEC_BIT b (R115). -/
def execDecBit (b : Bool) (s : State) : Host.Outcome State Fault Refusal := answer (decBitRule b s) s

/-- DEC_SYM (R116). -/
def execDecSym (s : State) : Host.Outcome State Fault Refusal := answer (decSymRule s) s

/-- DEC_FINISH (R117). -/
def execDecFinish (s : State) : Host.Outcome State Fault Refusal := answer (decFinishRule s) s

end Sys2Proof.Machine
end

