-- ==== Sys2Proof/Machine/Encoder.lean ====
section
/-! DEFINITION. The encoder command ENC_SYM (42_encoder.md R107, R108, R109). -/

namespace Sys2Proof.Machine

/-- What ENC_SYM commits when the code `c` fits (R107): its bits at ENC_PTR, ENC_PTR past them, LAST_LEN. -/
def State.emit (s : State) (c : CodeEntry) : State :=
  { s.bitWriteFrom s.ptr.encPtr.toNat c.code with
    ptr := { s.ptr with
      encPtr := BitVec.ofNat 19 (s.ptr.encPtr.toNat + c.len.toNat)
      lastLen := c.len } }

/-- The rule of ENC_SYM (R107), its checks in the order of R133; the sum of R109 is not truncated. -/
def encSymRule (sym : Symbol) (s : State) : CmdResult :=
  withTree s 0x20 <|
    if (s.codeRead sym).len = 0 then .fail .unknownSymbol (sym.setWidth 32)
    else if s.ptr.encPtr.toNat + (s.codeRead sym).len.toNat > s.bitmemBits then
      .fail .bitmemOverflow (sym.setWidth 32)
    else .ok (s.emit (s.codeRead sym))

/-- ENC_SYM s (R107). -/
def execEncSym (sym : Symbol) (s : State) : Host.Outcome State Fault Refusal := answer (encSymRule sym s) s

end Sys2Proof.Machine
end

