-- ==== Sys2Proof/Machine/Frequency.lean ====
section
/-! DEFINITION. The frequency table commands (40_frequency.md): FREQ_CLEAR (R87), FREQ_INC (R88). -/

namespace Sys2Proof.Machine

/-- The empty frequency table: 256 zeros (R87, R90). -/
@[irreducible] def zeroCounts : List Word := List.replicate nSym 0

/-- FREQ[s] <- 0 for s in 0..255 (R87). -/
def State.freqClear (s : State) : State :=
  { s with mem := { s.mem with freq := s.mem.freq.writeFrom 0 zeroCounts } }

/-- The rule of FREQ_INC (R88): the count never wraps. -/
def freqIncRule (sym : Symbol) (s : State) : CmdResult :=
  if s.freqRead sym = 0xFFFFFFFF then .fail .freqOverflow (sym.setWidth 32)
  else .ok (s.freqWrite sym (s.freqRead sym + 1))

/-- FREQ_CLEAR (R87). -/
def execFreqClear (s : State) : Host.Outcome State Fault Refusal := answer (.ok s.freqClear) s

/-- FREQ_INC s (R88). -/
def execFreqInc (sym : Symbol) (s : State) : Host.Outcome State Fault Refusal := answer (freqIncRule sym s) s

end Sys2Proof.Machine
end

