-- ==== Sys2Proof/Machine/Dispatch.lean ====
section
/-! DEFINITION. The rule of each command applied to the current state (44_control.md R123): one arm per constructor. -/

namespace Sys2Proof.Machine

def exec (i : Instr) (s : State) : Host.Outcome State Fault Refusal :=
  match i with
  | .nop => Sys2Proof.Machine.execNop s
  | .softReset => Sys2Proof.Machine.execSoftReset s
  | .clrErr => Sys2Proof.Machine.execClrErr s
  | .freqClear => Sys2Proof.Machine.execFreqClear s
  | .freqInc sym => Sys2Proof.Machine.execFreqInc sym s
  | .build => Sys2Proof.Machine.execBuild s
  | .encSym sym => Sys2Proof.Machine.execEncSym sym s
  | .decReset => Sys2Proof.Machine.execDecReset s
  | .decBit bit => Sys2Proof.Machine.execDecBit bit s
  | .decSym => Sys2Proof.Machine.execDecSym s
  | .decFinish => Sys2Proof.Machine.execDecFinish s

end Sys2Proof.Machine
end

