-- ==== Sys2Proof/Machine/Step.lean ====
section
/-! DEFINITION. One step of HTB: the sequencer executes the pending command (44_control.md R123), or the host's oldest
input takes effect (20_memory.md R67), or nothing is enabled and nothing changes (log entry 12). -/

namespace Sys2Proof.Machine

/-- The outcome of the pending word's command (R123): an illegal word fails with ILLEGAL_COMMAND and itself as ERRINFO
(R80). -/
def State.outcome (s : State) : Host.Outcome State Fault Refusal :=
  match decode s.cmd.pending with
  | .error _ => .next (s.raise .illegalCommand s.cmd.pending)
  | .ok i => exec i s

/-- Execute (R123): the outcome, then Complete (R124). -/
def State.execute (s : State) : Host.Outcome State Fault Refusal := onNext State.complete s.outcome

/-- One step. -/
def step (s : State) : Host.Outcome State Fault Refusal :=
  match s.mover with
  | some .sequencer => onNext State.turnTaken s.execute
  | some .host => .next s.hostStep.turnTaken
  | none => .next s

/-- The state in which the command word `w` has just been accepted (R122) and the sequencer has the turn: what a CMD
write of `w` with BUSY = 0 and ERR = 0 leaves (log entry 11). -/
def State.withFetchWord (s : State) (nbits w : Nat) : State :=
  { s with
    cmd := { busy := true, pending := BitVec.ofNat 32 (w % 2 ^ nbits), lastCmd := BitVec.ofNat 32 (w % 2 ^ nbits) }
    env := { s.env with turns := .sequencer :: s.env.turns } }

end Sys2Proof.Machine
end

