-- ==== Sys2Proof/Machine/Script.lean ====
section
/-! DEFINITION. The host script (30_encoding.md R83, R84, R85, R86): its lines as data, and the host inputs each line
stands for.  It is notation for hosts, not hardware (92_eei_decisions.md D34). -/

namespace Sys2Proof.Machine

/-- A line of a host program (R83, R84, R85).  A text is the list of its symbols. -/
inductive Line where
  /-- `WR <target>, <value>` (R83). -/
  | wr (t : Target) (v : Word)
  /-- `WR <numeric offset>, <value>` (R83). -/
  | wrAt (a : Offset) (v : Word)
  /-- `RD <target>` (R83). -/
  | rd (t : Target)
  /-- `RD <numeric offset>` (R83). -/
  | rdAt (a : Offset)
  /-- `RD <target> -> <expected>`: the read, with the value the rules give (R83). -/
  | rdExpect (t : Target) (expected : Word)
  /-- A command line: the CMD write, then WAIT (R84). -/
  | command (i : Instr)
  /-- `ISSUE`: the CMD write without the WAIT (R84). -/
  | issue (i : Instr)
  /-- `WAIT` (R85). -/
  | wait
  /-- `COUNT "<text>"` (R85). -/
  | count (text : List Symbol)
  /-- `LOADFREQ s1:n1, s2:n2, …` (R85). -/
  | loadFreq (counts : List (Symbol × Word))
  /-- `ENCODE "<text>"` (R85). -/
  | encode (text : List Symbol)
  /-- `DECODE <n>` (R85). -/
  | decode (n : Nat)
  /-- `CHECK` (R85). -/
  | check
  deriving DecidableEq, Repr

/-- A character literal stands for its US-ASCII code (R86, log entry 13). -/
def charSymbol (c : Char) : Symbol := BitVec.ofNat 8 c.toNat

/-- The CMD write of a command (R84). -/
def issueInput (i : Instr) : Input := .write (Target.reg .cmd).offset (Sys2Proof.encode i)

/-- A command line's two host operations (R84). -/
def commandInputs (i : Instr) : List Input := [issueInput i, .wait]

/-- The 256 symbols in ascending order. -/
def allSymbols : List Symbol := (List.range nSym).map (BitVec.ofNat 8)

/-- The host inputs a line stands for (R83, R84, R85). -/
def Line.inputs : Line → List Input
  | .wr t v => [.write t.offset v]
  | .wrAt a v => [.write a v]
  | .rd t => [.read t.offset]
  | .rdAt a => [.read a]
  | .rdExpect t _ => [.read t.offset]
  | .command i => commandInputs i
  | .issue i => [issueInput i]
  | .wait => [.wait]
  | .count text => (.freqClear :: text.map .freqInc).flatMap commandInputs
  | .loadFreq counts =>
    ((allSymbols.filter fun k => !(counts.map (·.1)).contains k).map fun k =>
        Input.write (Target.freq k).offset 0) ++
      counts.map fun c => Input.write (Target.freq c.1).offset c.2
  | .encode text => (text.map Instr.encSym).flatMap commandInputs
  | .decode n =>
    (List.replicate n (commandInputs .decSym ++ [.read (Target.reg .result).offset])).flatten ++
      commandInputs .decFinish
  | .check => [.read (Target.reg .status).offset]

/-- The host inputs of a program (R83). -/
def programInputs (lines : List Line) : List Input := lines.flatMap Line.inputs

/-- The machine with a program for its host to run after what it has to do already. -/
def State.withProgram (s : State) (lines : List Line) : State :=
  { s with env := { s.env with host := s.env.host ++ programInputs lines } }

end Sys2Proof.Machine
end

