-- ==== Sys2Proof/Safety.lean ====
section
/-! DEFINITION. What the claims are stated in: the invariants of a safe machine (10_state.md R46, R42, R43;
60_exceptions.md R129, R136), paths in the tree (00_scope.md R12), prefix codes (R15), runs of several commands, and
the parts of a state a command leaves alone. -/

namespace Sys2Proof.Machine

/-- Where a bit string leads from node `n` (R12, R111): none when it would have to move from a leaf. -/
def State.pathEnd (s : State) : Nat → List Bool → Option Nat
  | n, [] => some n
  | n, b :: bs => if (s.nodeRead n).isLeaf then none else s.pathEnd (childOf (s.nodeRead n) b).toNat bs

/-- How many times node `n` occurs as a child of the nodes of the tree. -/
def State.timesChild (s : State) (n : Nat) : Nat :=
  ((List.range s.nnodes).map fun m =>
    if (s.nodeRead m).isLeaf then 0
    else ((s.nodeRead m).left.toNat == n).toNat + ((s.nodeRead m).right.toNat == n).toNat).sum

/-- The invariants of the tree state, (a) to (f) of R46, with the shape of the records of R42. -/
structure State.TreeInv (s : State) : Prop where
  /-- R46(a). -/
  noTree : s.tree.valid = false → s.tree.nleaves = 0 ∧ s.tree.root = 0 ∧ s.dec.cursor = 0
  /-- R46(b). -/
  leaves : s.tree.valid = true →
    1 ≤ s.tree.nleaves.toNat ∧ s.tree.nleaves.toNat ≤ 256 ∧ s.tree.root.toNat = 2 * s.tree.nleaves.toNat - 2
  /-- R46(c). -/
  cursorInternal : s.tree.valid = true → 2 ≤ s.tree.nleaves.toNat →
    s.tree.nleaves.toNat ≤ s.dec.cursor.toNat ∧ s.dec.cursor.toNat ≤ s.tree.root.toNat
  /-- R46(d). -/
  cursorSingle : s.tree.valid = true → s.tree.nleaves.toNat = 1 → s.dec.cursor = 0 ∧ s.tree.root = 0
  /-- R42: records 0..NLEAVES-1 are the leaves, the others up to NNODES are internal. -/
  shape : ∀ n < s.nnodes, (s.nodeRead n).isLeaf = decide (n < s.tree.nleaves.toNat)
  /-- R42: a leaf has no children, an internal node no symbol. -/
  unused : ∀ n < s.nnodes, if (s.nodeRead n).isLeaf then (s.nodeRead n).left = 0 ∧ (s.nodeRead n).right = 0
    else (s.nodeRead n).sym = 0
  /-- R46(e). -/
  children : ∀ n < s.nnodes, (s.nodeRead n).isLeaf = false →
    (s.nodeRead n).left.toNat < n ∧ (s.nodeRead n).right.toNat < n ∧
      (s.nodeRead n).weight.toNat =
        (s.nodeRead (s.nodeRead n).left.toNat).weight.toNat + (s.nodeRead (s.nodeRead n).right.toNat).weight.toNat
  /-- R46(f): every node but the root is a child exactly once. -/
  ownedOnce : ∀ n < s.nnodes, n ≠ s.tree.root.toNat → s.timesChild n = 1
  /-- R46(f): the root is the child of none. -/
  rootFree : s.tree.valid = true → s.timesChild s.tree.root.toNat = 0

/-- The code table belongs to the tree (R43, R101, R102; 92_eei_decisions.md D9: it can never be stale). -/
structure State.CodeInv (s : State) : Prop where
  /-- R101: the code of a symbol leads from the root to the leaf of that symbol. -/
  leads : s.tree.valid = true → 2 ≤ s.tree.nleaves.toNat → ∀ sym : Symbol, (s.codeRead sym).len ≠ 0 →
    ∃ n < s.tree.nleaves.toNat, s.pathEnd s.tree.root.toNat (s.codeRead sym).code = some n ∧ (s.nodeRead n).sym = sym
  /-- R102: the one symbol of a single-leaf tree has the code "0". -/
  single : s.tree.valid = true → s.tree.nleaves.toNat = 1 → ∀ sym : Symbol, (s.codeRead sym).len ≠ 0 →
    (s.codeRead sym).code = [false] ∧ (s.nodeRead 0).sym = sym
  /-- R101, R102: the symbol of every leaf has a code. -/
  coded : s.tree.valid = true → ∀ n < s.tree.nleaves.toNat, (s.codeRead (s.nodeRead n).sym).len ≠ 0

/-- Every memory is in its canonical form. -/
structure State.MemInv (s : State) : Prop where
  freq : Memory.wf nSym s.mem.freq = true
  node : Memory.wf maxNodes s.mem.node = true
  code : Memory.wf nSym s.mem.code = true
  bitmem : Memory.wf s.bitmemBits s.mem.bitmem = true

/-- The error and command state agree (R19, R23, R29, R122, R124, R136), and the parameter is legal (R7). -/
structure State.ControlInv (s : State) : Prop where
  /-- R29: no error, no code and no information. -/
  quiet : s.error.err = false → s.error.code = .none ∧ s.error.info = 0
  /-- R129: an error has a code. -/
  named : s.error.err = true → s.error.code ≠ .none
  /-- R124: PENDING is 0 when nothing is pending. -/
  idle : s.cmd.busy = false → s.cmd.pending = 0
  /-- R122: the pending word is the last one accepted. -/
  accepted : s.cmd.busy = true → s.cmd.lastCmd = s.cmd.pending
  /-- R136: under the error lock-out only an exempt OP can be pending. -/
  lockedOut : s.cmd.busy = true → s.error.err = true → exemptOp s.cmd.pending = true
  /-- R7: the legal range of BITMEM_LOG2. -/
  params : s.params.wellFormed = true

/-- The invariant of a safe machine. -/
structure State.Inv (s : State) : Prop where
  tree : s.TreeInv
  code : s.CodeInv
  mem : s.MemInv
  control : s.ControlInv

/-- One bit string is a prefix of another (R15). -/
def prefixFree {α : Type} (codes : List (α × List Bool)) : Prop :=
  codes.Pairwise fun x y => ¬ x.2 <+: y.2 ∧ ¬ y.2 <+: x.2

/-- Commands executed one after the other, each to its completion (R123, R125). -/
def runCommands : List Instr → State → Host.Outcome State Fault Refusal
  | [], s => .next s
  | i :: is, s =>
    match exec i s with
    | .next t => runCommands is t.complete
    | .fault r => .fault r
    | .refused r => .refused r

/-- `n` DEC_SYMs, each to its completion, and the RESULTs read after each (R85 DECODE, R120). -/
def decodeText : Nat → State → List Symbol × State
  | 0, s => ([], s)
  | n + 1, s =>
    match exec .decSym s with
    | .next t => ((t.dec.result :: (decodeText n t.complete).1), (decodeText n t.complete).2)
    | .fault _ => ([], s)
    | .refused _ => ([], s)

/-- The concatenation of the codes of a text (R110). -/
def State.codeOfText (s : State) (text : List Symbol) : List Bool := text.flatMap fun k => (s.codeRead k).code

/-- Stream bits `p`, `p + 1`, … hold the bit string. -/
def State.holdsAt (s : State) (p : Nat) (bs : List Bool) : Prop := ∀ i (h : i < bs.length), s.bitRead (p + i) = bs[i]

/-- Node `a` precedes node `b` in the extraction order (R96): by weight, then by index. -/
def State.before (s : State) (a b : Nat) : Prop :=
  (s.nodeRead a).weight.toNat < (s.nodeRead b).weight.toNat ∨
    ((s.nodeRead a).weight.toNat = (s.nodeRead b).weight.toNat ∧ a < b)

/-- Node `m` is a child of no internal node with an index in `lo..n-1`: it is still in the priority collection when
node `n` is made (R95). -/
def State.unmerged (s : State) (lo n m : Nat) : Prop :=
  ∀ j, lo ≤ j → j < n → (s.nodeRead j).left.toNat ≠ m ∧ (s.nodeRead j).right.toNat ≠ m

/-- The number of symbols with a nonzero count, L of R91. -/
def State.leafCount (s : State) : Nat := (allSymbols.filter fun k => s.freqRead k ≠ 0).length

end Sys2Proof.Machine
end

