-- ==== Sys2Proof/Certificates/Slice0/Obligations.lean ====
section
/-! DEFINITION. The statements for the provers, rule by rule of the spec.  A result is stated as the next state of `exec`
(44_control.md R123: the command's rule, before Complete adds its three writes), with its frame as an equation that
names every part of the state that may differ. -/

open Sys2Proof Sys2Proof.Machine

/-! ### Encoding -/

/-- R78, R80, R84: words written out in the spec decode to the commands they stand for, and the spec's examples of
illegal words to none. -/
def Obligations.ExampleWordsDecode : Prop :=
  decode 0x00000000 = .ok .nop ∧ decode 0x00000001 = .ok .softReset ∧ decode 0x00000002 = .ok .clrErr ∧
  decode 0x00000003 = .ok .freqClear ∧ decode 0x00006104 = .ok (.freqInc 0x61) ∧ decode 0x00000010 = .ok .build ∧
  decode 0x00006220 = .ok (.encSym 0x62) ∧ decode 0x00000030 = .ok .decReset ∧
  decode 0x00000131 = .ok (.decBit true) ∧ decode 0x00000031 = .ok (.decBit false) ∧
  decode 0x00000032 = .ok .decSym ∧ decode 0x00000033 = .ok .decFinish ∧
  decode 0x00000005 = .error .unassignedOp ∧ decode 0x00010020 = .error .reservedBits ∧
  decode 0x00000231 = .error .reservedBits ∧ decode 0x00000100 = .error .reservedBits

/-- R73 to R77, R79: encoding and decoding are inverse to each other, over all commands and over all 2^32 words. -/
def Obligations.DecodeAndEncodeAreInverse : Prop :=
  (∀ i : Instr, i.wellFormed = true → decode (encode i) = .ok i) ∧
  (∀ (w : Word) (i : Instr), decode w = .ok i → encode i = w)

/-- R79, R80, R81: decoding is the search for a matching row, at most one row matches any word, and a word is illegal
exactly when its OP is unassigned or a bit outside its format's fields is not 0. -/
def Obligations.DecodingIsUnambiguousAndStrict : Prop :=
  (∀ w : Word, (∃ i, decode w = .ok i) ↔ ∃ r ∈ opcodeMap, w &&& r.mask = r.pattern) ∧
  (∀ (w : Word) (r r' : Row), r ∈ opcodeMap → r' ∈ opcodeMap →
    w &&& r.mask = r.pattern → w &&& r'.mask = r'.pattern → r = r') ∧
  ∀ w : Word, (∃ why, decode w = .error why) ↔
    (formatOf (w.extractLsb' 0 8) = none ∨
     (formatOf (w.extractLsb' 0 8) = some .n ∧ w.extractLsb' 8 24 ≠ 0) ∨
     (formatOf (w.extractLsb' 0 8) = some .s ∧ w.extractLsb' 16 16 ≠ 0) ∨
     (formatOf (w.extractLsb' 0 8) = some .b ∧ w.extractLsb' 9 23 ≠ 0))
/-! ### Reset -/

/-- R47: the reset values, and what SOFT_RESET (with its completion) resets and preserves.  A memory the spec leaves
unspecified reads as the free values of Config, of which nothing is known (log entry 5). -/
def Obligations.ResetAndSoftResetValues : Prop :=
  (State.reset.cmd = ⟨false, 0, 0⟩ ∧ State.reset.tree = ⟨false, 0, 0⟩ ∧ State.reset.dec = ⟨0, false, 0⟩ ∧
   State.reset.ptr = ⟨0, 0, 0, 0⟩ ∧ State.reset.error = ⟨false, .none, 0, false⟩ ∧
   State.reset.irq = ⟨false, false, false⟩ ∧ State.reset.irqLine = false ∧
   (∀ k, State.reset.freqRead k = Config.freqAtReset 0 k.toNat) ∧
   (∀ k, State.reset.bitRead k = Config.bitAtReset 0 k)) ∧
  ∀ s : State, ∃ t, exec .softReset s = .next t ∧
    t.complete.cmd = ⟨false, 0, 0⟩ ∧ t.complete.tree = ⟨false, 0, 0⟩ ∧ t.complete.dec = ⟨0, false, 0⟩ ∧
    t.complete.ptr = ⟨0, 0, 0, 0⟩ ∧ t.complete.error = ⟨false, .none, 0, false⟩ ∧
    t.irq.done = false ∧ t.complete.irq = ⟨true, s.irq.doneIe, s.irq.errIe⟩ ∧ t.complete.mem = s.mem

/-- R145: hardware reset, at any moment, with a bus transaction on the port or without: every register at its reset value,
the pending command abandoned without DONE, `irq` low, and the overlapping transaction answered with a free value and
without any other effect.  That FREQ and BITMEM are drawn anew, that the overlapping answer is a draw counted by
`env.draws`, and that reset is one input between two steps is the model's form of it (log entries 5, 10 and 16). -/
def Obligations.HardwareResetAtAnyMoment : Prop :=
  ∀ (s : State) (i : Input) (rest : List Input), s.env.host = i :: rest → s.mover = some .host →
    (i = .hardReset ∨ ∃ isWrite, i = .hardResetDuring isWrite) →
    ∃ t, step s = .next t ∧ t.cmd = ⟨false, 0, 0⟩ ∧ t.tree = ⟨false, 0, 0⟩ ∧ t.dec = ⟨0, false, 0⟩ ∧
      t.ptr = ⟨0, 0, 0, 0⟩ ∧ t.error = ⟨false, .none, 0, false⟩ ∧ t.irq = ⟨false, false, false⟩ ∧
      t.irqLine = false ∧ t.params = s.params ∧ t.env.host = rest ∧
      (∀ k, t.freqRead k = Config.freqAtReset (s.env.epoch + 1) k.toNat) ∧
      (∀ k, t.bitRead k = Config.bitAtReset (s.env.epoch + 1) k) ∧
      (i = .hardResetDuring true → t.env.resp = some (.write (Config.overlapErr s.env.draws))) ∧
      (i = .hardResetDuring false →
        t.env.resp = some (.read (Config.overlapErr s.env.draws) (Config.overlapData s.env.draws)))

/-! ### The life of a command -/

/-- R122: acceptance of a word written to CMD; a word with an exempt OP and another bit set is accepted, and is illegal
(which `IllegalWordFailsWithItself` says the rest of). -/
def Obligations.CommandWordIsAcceptedOrDropped : Prop :=
  ∀ (s : State) (w : Word),
    (s.busWrite 0x010 w).1 = .write false ∧
    (s.cmd.busy = true → (s.busWrite 0x010 w).2 = { s with error := { s.error with dropped := true } }) ∧
    (s.cmd.busy = false → s.error.err = true →
      w.extractLsb' 0 8 ≠ 0x00 → w.extractLsb' 0 8 ≠ 0x01 → w.extractLsb' 0 8 ≠ 0x02 →
      (s.busWrite 0x010 w).2 = { s with error := { s.error with dropped := true } }) ∧
    (s.cmd.busy = false →
      (s.error.err = false ∨ w.extractLsb' 0 8 = 0x00 ∨ w.extractLsb' 0 8 = 0x01 ∨ w.extractLsb' 0 8 = 0x02) →
      (s.busWrite 0x010 w).2 = { s with cmd := { busy := true, pending := w, lastCmd := w } }) ∧
    ((w.extractLsb' 0 8 = 0x00 ∨ w.extractLsb' 0 8 = 0x01 ∨ w.extractLsb' 0 8 = 0x02) → w.extractLsb' 8 24 ≠ 0 →
      ∃ why, decode w = .error why)

/-- R123: a sequencer step runs the decoded command on the current state and then completes; the tape of turns, which is
the model's own (log entry 4), advances. -/
def Obligations.StepRunsThePendingCommand : Prop :=
  ∀ (s : State) (i : Instr), s.mover = some .sequencer → decode s.cmd.pending = .ok i →
    step s = onNext (fun t => t.complete.turnTaken) (exec i s)

/-- R80, R123: an illegal word fails with ILLEGAL_COMMAND and ERRINFO = the word, changes nothing else, and completes. -/
def Obligations.IllegalWordFailsWithItself : Prop :=
  ∀ (s : State) (why : Illegal), s.mover = some .sequencer → decode s.cmd.pending = .error why →
    ∃ t, step s = .next t ∧
      t = { s with
        cmd := { s.cmd with busy := false, pending := 0 }
        error := { s.error with err := true, code := .illegalCommand, info := s.cmd.pending }
        irq := { s.irq with done := true }
        env := { s.env with turns := s.env.turns.tail } }

/-- R124: every executed command, successful or failed, ends with BUSY and PENDING 0 and DONE 1. -/
def Obligations.CompletionEndsEveryCommand : Prop :=
  ∀ s : State, s.mover = some .sequencer →
    ∃ t, step s = .next t ∧ t.cmd.busy = false ∧ t.cmd.pending = 0 ∧ t.irq.done = true

/-- R131, R132, R134: no step of HTB ever stops the machine. -/
def Obligations.EveryStepGoesOn : Prop :=
  ∀ s : State, ∃ t, step s = .next t

/-- R67, R123: the sequencer moves only when BUSY = 1; with BUSY = 0 and no input nothing changes; and a host step is the
oldest input's effect: the bus access of R48, refused with strobes missing (R49), the STATUS read of WAIT, which stays in
the list while BUSY = 1 (R85), or the reset of R145.  Which agent moves when both can, that an idle step is a step, that
the answer is kept, and the two resets' own fields are the model's (log entries 3, 4, 9, 10, 12, 15, 16 and 17). -/
def Obligations.StepIsOneAgentsMove : Prop :=
  ∀ s : State,
    (s.mover = some .sequencer → s.cmd.busy = true) ∧
    (s.mover = some .host → s.env.host ≠ []) ∧
    (s.mover = none ↔ s.cmd.busy = false ∧ s.env.host = []) ∧
    (s.mover = none → step s = .next s) ∧
    ∀ (i : Input) (rest : List Input), s.mover = some .host → s.env.host = i :: rest →
      let left := s.env.turns.tail
      let after (r : BusResponse × State) (host : List Input) : Host.Outcome State Fault Refusal :=
        .next { r.2 with env := { r.2.env with host := host, turns := left, resp := some r.1 } }
      match i with
      | .read a => step s = after (s.busRead a) rest
      | .write a v => step s = after (s.busWrite a v) rest
      | .strobedRead strobes a =>
        (strobes = 0xF → step s = after (s.busRead a) rest) ∧
        (strobes ≠ 0xF → step s = after (.read true 0, s) rest)
      | .strobedWrite strobes a v =>
        (strobes = 0xF → step s = after (s.busWrite a v) rest) ∧
        (strobes ≠ 0xF → step s = after (.write true, s) rest)
      | .wait =>
        (s.cmd.busy = true → step s = after (s.busRead 0x014) (.wait :: rest)) ∧
        (s.cmd.busy = false → step s = after (s.busRead 0x014) rest)
      | .hardReset => step s =
        .next { State.reset with params := s.params, env := ⟨rest, left, none, s.env.draws, s.env.epoch + 1⟩ }
      | .hardResetDuring isWrite => ∃ r, step s =
        .next { State.reset with
          params := s.params, env := ⟨rest, left, some r, s.env.draws + 1, s.env.epoch + 1⟩ } ∧
        (isWrite = true → r = .write (Config.overlapErr s.env.draws)) ∧
        (isWrite = false → r = .read (Config.overlapErr s.env.draws) (Config.overlapData s.env.draws))

/-- R159 (weak fairness, log entry 4): BUSY does not stay 1 for ever, and when no hardware reset is among the host's
inputs, it ends by the sequencer's executing that very pending word, whose completion leaves DONE = 1 (R123, R124).  A
hardware reset abandons the command (R145). -/
def Obligations.PendingCommandIsNotLeftPending : Prop :=
  ∀ s : State, s.cmd.busy = true →
    (∃ k ≤ s.env.turns.length + 1, ∃ t : State, Host.Core.run Sys2Proof.core k s = .next t ∧ t.cmd.busy = false) ∧
    ((∀ i ∈ s.env.host, i ≠ .hardReset ∧ ∀ isWrite, i ≠ .hardResetDuring isWrite) →
      ∃ k ≤ s.env.turns.length, ∃ u t : State, Host.Core.run Sys2Proof.core k s = .next u ∧
        u.mover = some .sequencer ∧ u.cmd.pending = s.cmd.pending ∧
        step u = .next t ∧ t.cmd.busy = false ∧ t.irq.done = true)

/-- R132: a command either succeeds and leaves the error state alone, or fails and changes nothing but ERR, ERRCODE and
ERRINFO.  CLR_ERR and SOFT_RESET, which clear the error state and cannot fail, are the two exceptions. -/
def Obligations.FailureChangesOnlyTheErrorState : Prop :=
  ∀ (i : Instr) (s t : State), i ≠ .clrErr → i ≠ .softReset → exec i s = .next t →
    t.error = s.error ∨
      ∃ code info, code ≠ ErrCode.none ∧
        t = { s with error := { s.error with err := true, code := code, info := info } }

/-- R129, R130: which command raises which code with which information (the codes' numbers: `RegistersReadTheirFields`). -/
def Obligations.ErrorsAreThoseOfTheTable : Prop :=
  ∀ (i : Instr) (s t : State), i ≠ .clrErr → i ≠ .softReset → exec i s = .next t → t.error ≠ s.error →
    (i = .build ∧ t.error.code = .emptyInput ∧ t.error.info = 0) ∨
    (∃ k, i = .encSym k ∧ t.error.code = .unknownSymbol ∧ t.error.info = k.setWidth 32) ∨
    ((i = .decBit false ∨ i = .decBit true) ∧ t.error.code = .malformedBitstream ∧ t.error.info = 1) ∨
    (i = .decSym ∧ t.error.code = .malformedBitstream ∧
      (t.error.info = 1 ∨ t.error.info = 2 ∨ t.error.info = 3)) ∨
    (i = .decFinish ∧ t.error.code = .malformedBitstream ∧ t.error.info = 2) ∨
    (∃ k, i = .encSym k ∧ t.error.code = .noTree ∧ t.error.info = 0x20) ∨
    ((i = .decBit false ∨ i = .decBit true) ∧ t.error.code = .noTree ∧ t.error.info = 0x31) ∨
    (i = .decSym ∧ t.error.code = .noTree ∧ t.error.info = 0x32) ∨
    (i = .decFinish ∧ t.error.code = .noTree ∧ t.error.info = 0x33) ∨
    (∃ k, i = .encSym k ∧ t.error.code = .bitmemOverflow ∧ t.error.info = k.setWidth 32) ∨
    (∃ k, i = .freqInc k ∧ t.error.code = .freqOverflow ∧ t.error.info = k.setWidth 32)

/-- R136: under the error lock-out a step of the sequencer clears the error (CLR_ERR, SOFT_RESET), leaves it (NOP), or
records ILLEGAL_COMMAND over it. -/
def Obligations.SecondFailureCanOnlyBeIllegalCommand : Prop :=
  ∀ s t : State, s.Inv → s.error.err = true → s.mover = some .sequencer → step s = .next t →
    t.error = s.error ∨ t.error = ⟨false, .none, 0, false⟩ ∨
      t.error = { s.error with err := true, code := .illegalCommand, info := s.cmd.pending }

/-! ### Invariants -/

/-- The invariants of R46 and the rest of `State.Inv` hold right after reset.  The canonical form of the memories and the
legal parameter among them are the model's choices (log entries 7 and 19). -/
def Obligations.ResetMeetsTheInvariant : Prop := State.reset.Inv

/-- Every step, the sequencer's and the host's, keeps the invariants of the tree state (R46, R42), the code table that
belongs to it (R43, R101, R102), the agreement of error and command state (R29, R122, R124, R129, R136), the canonical
form of the memories, which is the model's choice (log entry 7), and the legal parameter, a field of the model's state
(R7, log entries 2 and 19). -/
def Obligations.EveryStepKeepsTheInvariant : Prop :=
  ∀ s t : State, s.Inv → step s = .next t → t.Inv

/-- R42, R43: only BUILD and hardware reset change what a NODE record or a CODE entry reads as. -/
def Obligations.OnlyBuildWritesNodesAndCodes : Prop :=
  ∀ s t : State, step s = .next t → ((∃ n, t.nodeRead n ≠ s.nodeRead n) ∨ ∃ k, t.codeRead k ≠ s.codeRead k) →
    (s.mover = some .sequencer ∧ decode s.cmd.pending = .ok .build) ∨
    (s.mover = some .host ∧ ∃ rest, s.env.host = .hardReset :: rest ∨ ∃ b, s.env.host = .hardResetDuring b :: rest)

/-- R41, R44: only FREQ_CLEAR, FREQ_INC, host writes through the FREQ window with BUSY = 0, and hardware reset change
FREQ; only ENC_SYM, host writes through the BITMEM window with BUSY = 0, and hardware reset change BITMEM. -/
def Obligations.OnlyTheseWriteCountsAndStreamBits : Prop :=
  ∀ s t : State, step s = .next t →
    ((∃ k, t.freqRead k ≠ s.freqRead k) →
      (s.mover = some .sequencer ∧
        (decode s.cmd.pending = .ok .freqClear ∨ ∃ k, decode s.cmd.pending = .ok (.freqInc k))) ∨
      (s.mover = some .host ∧ s.cmd.busy = false ∧ ∃ a v rest k, locate s.params a = some (.freq k) ∧
        (s.env.host = .write a v :: rest ∨ s.env.host = .strobedWrite 0xF a v :: rest)) ∨
      (s.mover = some .host ∧ ∃ rest, s.env.host = .hardReset :: rest ∨ ∃ b, s.env.host = .hardResetDuring b :: rest)) ∧
    ((∃ k, t.bitRead k ≠ s.bitRead k) →
      (s.mover = some .sequencer ∧ ∃ k, decode s.cmd.pending = .ok (.encSym k)) ∨
      (s.mover = some .host ∧ s.cmd.busy = false ∧ ∃ a v rest j, locate s.params a = some (.bitmem j) ∧
        (s.env.host = .write a v :: rest ∨ s.env.host = .strobedWrite 0xF a v :: rest)) ∨
      (s.mover = some .host ∧ ∃ rest, s.env.host = .hardReset :: rest ∨ ∃ b, s.env.host = .hardResetDuring b :: rest))
/-! ### Control commands -/

/-- R126, R128: NOP writes nothing, and CLR_ERR clears ERR, ERRCODE, ERRINFO and DROPPED, with ERR = 0 too, and changes
nothing else. -/
def Obligations.NopAndClrErrWriteOnlyTheirOwn : Prop :=
  ∀ s : State, exec .nop s = .next s ∧
    exec .clrErr s = .next { s with error := { err := false, code := .none, info := 0, dropped := false } }
/-- R127: SOFT_RESET's writes and its frame: BUSY, PENDING, the memories, IRQ_EN and the parameter are left alone. -/
def Obligations.SoftResetClearsTheControlState : Prop :=
  ∀ s : State, exec .softReset s =
    .next { s with
      tree := { valid := false, nleaves := 0, root := 0 }
      dec := { cursor := 0, symValid := false, result := 0 }
      ptr := { encPtr := 0, decPtr := 0, decEnd := 0, lastLen := 0 }
      error := { err := false, code := .none, info := 0, dropped := false }
      cmd := { s.cmd with lastCmd := 0 }
      irq := { s.irq with done := false } }

/-! ### The frequency table -/

/-- R87: FREQ_CLEAR makes all 256 counts 0 and changes nothing else. -/
def Obligations.FreqClearZeroesEveryCount : Prop :=
  ∀ s : State, ∃ t, exec .freqClear s = .next t ∧ (∀ k, t.freqRead k = 0) ∧
    t = { s with mem := { s.mem with freq := t.mem.freq } }

/-- R88: FREQ_INC adds one to one count, without wrapping, or fails with FREQ_OVERFLOW. -/
def Obligations.FreqIncAddsOneOrOverflows : Prop :=
  ∀ (s : State) (k : Symbol),
    (s.freqRead k ≠ 0xFFFFFFFF → ∃ t, exec (.freqInc k) s = .next t ∧
      (t.freqRead k).toNat = (s.freqRead k).toNat + 1 ∧ (∀ k', k' ≠ k → t.freqRead k' = s.freqRead k') ∧
      t = { s with mem := { s.mem with freq := t.mem.freq } }) ∧
    (s.freqRead k = 0xFFFFFFFF → exec (.freqInc k) s =
      .next { s with error := { s.error with err := true, code := .freqOverflow, info := k.setWidth 32 } })

/-- R89: FREQ_CLEAR and one FREQ_INC per symbol of a text shorter than 2^32 count the text, without an error. -/
def Obligations.CountingATextGivesItsCounts : Prop :=
  ∀ (s : State) (text : List Symbol), text.length < 2 ^ 32 →
    ∃ t, runCommands (.freqClear :: text.map .freqInc) s = .next t ∧ t.error = s.error ∧
      ∀ k, (t.freqRead k).toNat = text.count k

/-! ### BUILD -/

/-- R93: BUILD on an all-zero table fails with EMPTY_INPUT, ERRINFO 0, and keeps everything else. -/
def Obligations.BuildOnEmptyTableFails : Prop :=
  ∀ s : State, (∀ k, s.freqRead k = 0) → exec .build s =
    .next { s with error := { s.error with err := true, code := .emptyInput, info := 0 } }

/-- R103: what a successful BUILD writes (the values are those of the pseudocode of R91) and what it leaves.
That NODE records from 2L-1 on stay as they were is the model's choice (log entry 6). -/
def Obligations.BuildWritesTreeAndCodes : Prop :=
  ∀ s : State, (∃ k, s.freqRead k ≠ 0) →
    ∃ t, exec .build s = .next t ∧
      t.tree.valid = true ∧ t.tree.nleaves.toNat = s.leafCount ∧ t.tree.root.toNat = 2 * s.leafCount - 2 ∧
      t.dec = { s.dec with cursor := t.tree.root, symValid := false } ∧
      (∀ n < 2 * s.leafCount - 1, t.nodeRead n = nodeAt (builtNodes s.freqRead) n) ∧
      (∀ n, 2 * s.leafCount - 1 ≤ n → t.nodeRead n = s.nodeRead n) ∧
      (∀ k, t.codeRead k = CodeEntry.ofCode (builtCode s.freqRead k)) ∧
      t = { s with
        tree := t.tree
        dec := t.dec
        mem := { s.mem with node := t.mem.node, code := t.mem.code } }

/-- R92: the leaves are the symbols with a nonzero count, one each, in ascending order, weighted by their counts. -/
def Obligations.BuildSeedsLeavesInSymbolOrder : Prop :=
  ∀ s t : State, (∃ k, s.freqRead k ≠ 0) → exec .build s = .next t →
    (∀ n < s.leafCount, (t.nodeRead n).isLeaf = true ∧
      (t.nodeRead n).weight.toNat = (s.freqRead (t.nodeRead n).sym).toNat ∧
      s.freqRead (t.nodeRead n).sym ≠ 0 ∧ (t.nodeRead n).left = 0 ∧ (t.nodeRead n).right = 0) ∧
    (∀ m n, m < n → n < s.leafCount → (t.nodeRead m).sym.toNat < (t.nodeRead n).sym.toNat) ∧
    (∀ k, s.freqRead k ≠ 0 → ∃ n < s.leafCount, (t.nodeRead n).sym = k)

/-- R95, R96, R97: each internal node joins the two least nodes, in the order (weight, index), of those not merged
before it; the least is its LEFT child.  With R92 this fixes the tree, however the priority collection is built. -/
def Obligations.BuildMergesTheTwoLeastNodes : Prop :=
  ∀ s t : State, (∃ k, s.freqRead k ≠ 0) → exec .build s = .next t →
    ∀ n, s.leafCount ≤ n → n < 2 * s.leafCount - 1 →
      let a := (t.nodeRead n).left.toNat
      let b := (t.nodeRead n).right.toNat
      (t.nodeRead n).isLeaf = false ∧ (t.nodeRead n).sym = 0 ∧ a < n ∧ b < n ∧ a ≠ b ∧
      t.unmerged s.leafCount n a ∧ t.unmerged s.leafCount n b ∧ t.before a b ∧
      ∀ m < n, t.unmerged s.leafCount n m → m ≠ a → m ≠ b → t.before b m

/-- R99: an internal node's weight is the exact sum of its children's, and the root's weight is the sum of all counts. -/
def Obligations.WeightsAreExactSums : Prop :=
  ∀ s t : State, (∃ k, s.freqRead k ≠ 0) → exec .build s = .next t →
    (∀ n, s.leafCount ≤ n → n < 2 * s.leafCount - 1 →
      (t.nodeRead n).weight.toNat =
        (t.nodeRead (t.nodeRead n).left.toNat).weight.toNat + (t.nodeRead (t.nodeRead n).right.toNat).weight.toNat) ∧
    (t.nodeRead t.tree.root.toNat).weight.toNat = (allSymbols.map fun k => (s.freqRead k).toNat).sum

/-- R101: with two or more leaves, the code of each leaf's symbol is the path from the root to that leaf, and a symbol
with count 0 has LEN 0 and all-zero BITS. -/
def Obligations.CodesAreRootToLeafPaths : Prop :=
  ∀ s t : State, 2 ≤ s.leafCount → exec .build s = .next t →
    (∀ n < s.leafCount, t.pathEnd t.tree.root.toNat (t.codeRead (t.nodeRead n).sym).code = some n) ∧
    (∀ k, s.freqRead k = 0 → (t.codeRead k).len = 0 ∧ (t.codeRead k).bits = 0)

/-- R94, R102: with one leaf, the tree is that leaf at index 0 and its symbol has the one-bit code "0". -/
def Obligations.SingleSymbolGetsTheCodeZero : Prop :=
  ∀ (s : State) (k : Symbol), s.freqRead k ≠ 0 → (∀ k', k' ≠ k → s.freqRead k' = 0) →
    ∃ t, exec .build s = .next t ∧ t.tree = ⟨true, 1, 0⟩ ∧ t.dec.cursor = 0 ∧
      t.nodeRead 0 = ⟨true, k, (s.freqRead k).setWidth 40, 0, 0⟩ ∧
      (t.codeRead k).code = [false] ∧ (t.codeRead k).bits = 0 ∧ ∀ k', k' ≠ k → (t.codeRead k').len = 0

/-- R100: a code is at most L - 1 bits long, which is at most 255, and with two or more leaves at least one bit; BITS is
0 past LEN (R43). -/
def Obligations.CodeLengthsAreBounded : Prop :=
  ∀ s t : State, 2 ≤ s.leafCount → exec .build s = .next t →
    s.leafCount - 1 ≤ 255 ∧
    ∀ k, s.freqRead k ≠ 0 → 1 ≤ (t.codeRead k).len.toNat ∧ (t.codeRead k).len.toNat ≤ s.leafCount - 1 ∧
      ∀ i, (t.codeRead k).len.toNat ≤ i → (t.codeRead k).bit i = false

/-- R104: after BUILD no symbol's code is a prefix of another's, and with two or more leaves the code is complete: the
sum of 2^-LEN over the coded symbols is 1. -/
def Obligations.BuiltCodeIsCompletePrefixCode : Prop :=
  ∀ s t : State, (∃ k, s.freqRead k ≠ 0) → exec .build s = .next t →
    (∀ k k', k ≠ k' → (t.codeRead k).len ≠ 0 → (t.codeRead k').len ≠ 0 →
      ¬ (t.codeRead k).code <+: (t.codeRead k').code) ∧
    (2 ≤ s.leafCount →
      ((allSymbols.filter fun k => (t.codeRead k).len ≠ 0).map
        fun k => (1 / 2 : ℚ) ^ (t.codeRead k).len.toNat).sum = 1)

/-- R105: BUILD's result is a function of FREQ alone, whatever else the two machines hold. -/
def Obligations.BuildDependsOnlyOnTheCounts : Prop :=
  ∀ s s' t t' : State, (∀ k, s.freqRead k = s'.freqRead k) → (∃ k, s.freqRead k ≠ 0) →
    exec .build s = .next t → exec .build s' = .next t' →
    t.tree = t'.tree ∧ (∀ n < t.nnodes, t.nodeRead n = t'.nodeRead n) ∧ ∀ k, t.codeRead k = t'.codeRead k

/-- R106: with two or more leaves, no binary prefix code for the counted symbols gives the counted text fewer bits. -/
def Obligations.BuiltCodeIsOptimal : Prop :=
  ∀ s t : State, 2 ≤ s.leafCount → exec .build s = .next t →
    ∀ c : Symbol → List Bool,
      (∀ k k', k ≠ k' → s.freqRead k ≠ 0 → s.freqRead k' ≠ 0 → ¬ c k <+: c k') →
      (allSymbols.map fun k => (s.freqRead k).toNat * (t.codeRead k).len.toNat).sum ≤
        (allSymbols.map fun k => (s.freqRead k).toNat * (c k).length).sum

/-! ### The encoder -/

/-- R107: ENC_SYM appends the code at ENC_PTR, first bit first; bits outside it and everything else stay. -/
def Obligations.EncSymAppendsTheCode : Prop :=
  ∀ (s : State) (k : Symbol), s.params.wellFormed = true → s.tree.valid = true → (s.codeRead k).len ≠ 0 →
    s.ptr.encPtr.toNat + (s.codeRead k).len.toNat ≤ s.bitmemBits →
    ∃ t, exec (.encSym k) s = .next t ∧
      (∀ i < (s.codeRead k).len.toNat, t.bitRead (s.ptr.encPtr.toNat + i) = (s.codeRead k).bit i) ∧
      (∀ j, j < s.ptr.encPtr.toNat ∨ s.ptr.encPtr.toNat + (s.codeRead k).len.toNat ≤ j →
        t.bitRead j = s.bitRead j) ∧
      t.ptr.encPtr.toNat = s.ptr.encPtr.toNat + (s.codeRead k).len.toNat ∧ t.ptr.lastLen = (s.codeRead k).len ∧
      t = { s with
        mem := { s.mem with bitmem := t.mem.bitmem }
        ptr := { s.ptr with encPtr := t.ptr.encPtr, lastLen := t.ptr.lastLen } }

/-- R107, R108, R109, R133: the failures of ENC_SYM, in their order; the sum of R109 is not truncated. -/
def Obligations.EncSymFailsInOrder : Prop :=
  ∀ (s : State) (k : Symbol),
    (s.tree.valid = false → exec (.encSym k) s =
      .next { s with error := { s.error with err := true, code := .noTree, info := 0x00000020 } }) ∧
    (s.tree.valid = true → (s.codeRead k).len = 0 → exec (.encSym k) s =
      .next { s with error := { s.error with err := true, code := .unknownSymbol, info := k.setWidth 32 } }) ∧
    (s.tree.valid = true → (s.codeRead k).len ≠ 0 →
      s.bitmemBits < s.ptr.encPtr.toNat + (s.codeRead k).len.toNat → exec (.encSym k) s =
      .next { s with error := { s.error with err := true, code := .bitmemOverflow, info := k.setWidth 32 } })

/-- R110: encoding a text puts the concatenation of its codes at ENC_PTR and moves ENC_PTR past it. -/
def Obligations.EncodingATextConcatenatesItsCodes : Prop :=
  ∀ (s : State) (text : List Symbol), s.params.wellFormed = true → s.tree.valid = true →
    (∀ k ∈ text, (s.codeRead k).len ≠ 0) →
    s.ptr.encPtr.toNat + (s.codeOfText text).length ≤ s.bitmemBits →
    ∃ t, runCommands (text.map .encSym) s = .next t ∧ t.error = s.error ∧
      t.holdsAt s.ptr.encPtr.toNat (s.codeOfText text) ∧
      t.ptr.encPtr.toNat = s.ptr.encPtr.toNat + (s.codeOfText text).length

/-! ### The decoder -/

/-- R114: DEC_RESET puts the cursor at ROOT and clears SYM_VALID, with or without a tree. -/
def Obligations.DecResetPutsTheCursorAtTheRoot : Prop :=
  ∀ s : State, exec .decReset s =
    .next { s with dec := { s.dec with cursor := s.tree.root, symValid := false } }

/-- R111, R112, R115: DEC_BIT with a tree.  In a single-leaf tree any bit emits the leaf; else the cursor moves to the
child, which is emitted if it is a leaf.  The cursor is at an internal node, as R46(c) has it. -/
def Obligations.DecBitFollowsOneEdge : Prop :=
  ∀ (s : State) (b : Bool), s.tree.valid = true →
    (s.tree.nleaves = 1 → exec (.decBit b) s =
      .next { s with dec := { cursor := s.tree.root, symValid := true, result := (s.nodeRead 0).sym } }) ∧
    (s.tree.nleaves ≠ 1 → (s.nodeRead s.dec.cursor.toNat).isLeaf = false →
      let n := if b then (s.nodeRead s.dec.cursor.toNat).right else (s.nodeRead s.dec.cursor.toNat).left
      ((s.nodeRead n.toNat).isLeaf = true → exec (.decBit b) s =
        .next { s with dec := { cursor := s.tree.root, symValid := true, result := (s.nodeRead n.toNat).sym } }) ∧
      ((s.nodeRead n.toNat).isLeaf = false → exec (.decBit b) s =
        .next { s with dec := { s.dec with cursor := n, symValid := false } }))

/-- R113: MALFORMED_BITSTREAM(1) would be raised on a move from a leaf of a larger tree, and never is in a state that
meets the invariants of R46. -/
def Obligations.MoveFromALeafNeverHappens : Prop :=
  (∀ (s : State) (b : Bool), s.tree.valid = true → s.tree.nleaves ≠ 1 →
    (s.nodeRead s.dec.cursor.toNat).isLeaf = true → exec (.decBit b) s =
      .next { s with error := { s.error with err := true, code := .malformedBitstream, info := 1 } }) ∧
  (∀ (i : Instr) (s t : State), s.Inv → exec i s = .next t →
    t.error = s.error ∨ t.error.code ≠ .malformedBitstream ∨ t.error.info ≠ 1)

/-- R107, R115, R116, R117, R133: with no tree these four commands fail with NO_TREE and their OP as ERRINFO, before any
other check of theirs. -/
def Obligations.NoTreeComesFirst : Prop :=
  ∀ (s : State), s.tree.valid = false → ∀ (i : Instr) (op : Word),
    ((∃ k, i = .encSym k) ∧ op = 0x20) ∨ ((∃ b, i = .decBit b) ∧ op = 0x31) ∨ (i = .decSym ∧ op = 0x32) ∨
      (i = .decFinish ∧ op = 0x33) →
    exec i s = .next { s with error := { s.error with err := true, code := .noTree, info := op } }

/-- R112, R116: in a tree of two or more leaves, when the bits from DEC_PTR on lead from the cursor to a leaf before the
limit, DEC_SYM emits that leaf's symbol and moves DEC_PTR past them; in a single-leaf tree it takes exactly one bit, 0
or 1, and emits the leaf's symbol. -/
def Obligations.DecSymEmitsTheLeafTheBitsLeadTo : Prop :=
  ∀ s : State, s.params.wellFormed = true → s.tree.valid = true →
    (∀ (p : List Bool) (n : Nat), s.tree.nleaves ≠ 1 →
      p ≠ [] → s.holdsAt s.ptr.decPtr.toNat p → s.ptr.decPtr.toNat + p.length ≤ s.decLimit →
      s.pathEnd s.dec.cursor.toNat p = some n → (s.nodeRead n).isLeaf = true →
      ∃ t, exec .decSym s = .next t ∧ t.ptr.decPtr.toNat = s.ptr.decPtr.toNat + p.length ∧
        t.dec = { cursor := s.tree.root, symValid := true, result := (s.nodeRead n).sym } ∧
        t = { s with dec := t.dec, ptr := { s.ptr with decPtr := t.ptr.decPtr } }) ∧
    (s.tree.nleaves = 1 → s.ptr.decPtr.toNat < s.decLimit →
      ∃ t, exec .decSym s = .next t ∧ t.ptr.decPtr.toNat = s.ptr.decPtr.toNat + 1 ∧
        t.dec = { cursor := s.tree.root, symValid := true, result := (s.nodeRead 0).sym } ∧
        t = { s with dec := t.dec, ptr := { s.ptr with decPtr := t.ptr.decPtr } })
/-- R116, R118, R119: with nothing to read DEC_SYM fails with subcause 3; when all bits up to the limit lead only to an
internal node it fails with subcause 2; both leave DEC_PTR, CURSOR, RESULT and SYM_VALID. -/
def Obligations.DecSymFailsWithoutEnoughBits : Prop :=
  ∀ s : State, s.tree.valid = true →
    (s.decLimit ≤ s.ptr.decPtr.toNat → exec .decSym s =
      .next { s with error := { s.error with err := true, code := .malformedBitstream, info := 3 } }) ∧
    (∀ (p : List Bool) (n : Nat), s.tree.nleaves ≠ 1 → p ≠ [] → s.holdsAt s.ptr.decPtr.toNat p →
      s.ptr.decPtr.toNat + p.length = s.decLimit → s.pathEnd s.dec.cursor.toNat p = some n →
      (s.nodeRead n).isLeaf = false → exec .decSym s =
      .next { s with error := { s.error with err := true, code := .malformedBitstream, info := 2 } })

/-- R117: with a tree, DEC_FINISH succeeds without a change exactly when the cursor is at the root, and else fails with
subcause 2. -/
def Obligations.DecFinishChecksTheCursor : Prop :=
  ∀ s : State, s.tree.valid = true →
    (s.dec.cursor = s.tree.root → exec .decFinish s = .next s) ∧
    (s.dec.cursor ≠ s.tree.root → exec .decFinish s =
      .next { s with error := { s.error with err := true, code := .malformedBitstream, info := 2 } })

/-- R120: the concatenated codes of a text, decoded from the root, give the text; then DEC_FINISH succeeds and a further
DEC_SYM fails with subcause 3. -/
def Obligations.DecodingRecoversTheText : Prop :=
  ∀ (s : State) (text : List Symbol), s.Inv → s.tree.valid = true → s.dec.cursor = s.tree.root →
    (∀ k ∈ text, (s.codeRead k).len ≠ 0) → s.holdsAt s.ptr.decPtr.toNat (s.codeOfText text) →
    s.ptr.decEnd.toNat = s.ptr.decPtr.toNat + (s.codeOfText text).length → s.ptr.decEnd.toNat ≤ s.bitmemBits →
    ∃ t, decodeText text.length s = (text, t) ∧ t.error = s.error ∧ t.ptr.decPtr = s.ptr.decEnd ∧
      t.dec.cursor = t.tree.root ∧ exec .decFinish t = .next t ∧
      exec .decSym t =
        .next { t with error := { t.error with err := true, code := .malformedBitstream, info := 3 } }

/-- R121: counting, building, encoding and decoding a non-empty text gives the text back, without an error. -/
def Obligations.RoundTripGivesTheTextBack : Prop :=
  ∀ (s : State) (text : List Symbol), text ≠ [] → text.length < 2 ^ 32 → s.params.wellFormed = true →
    ∃ s₁, runCommands (.freqClear :: text.map .freqInc ++ [.build]) s = .next s₁ ∧ s₁.error = s.error ∧
      ((s₁.codeOfText text).length ≤ s.bitmemBits →
        ∃ s₂, runCommands (text.map .encSym) { s₁ with ptr := { s₁.ptr with encPtr := 0 } } = .next s₂ ∧
          s₂.ptr.encPtr.toNat = (s₁.codeOfText text).length ∧
          ∃ s₃, exec .decReset { s₂ with ptr := { s₂.ptr with decPtr := 0, decEnd := s₂.ptr.encPtr } } = .next s₃ ∧
            ∃ t, decodeText text.length s₃.complete = (text, t) ∧ exec .decFinish t = .next t ∧ t.error = s.error)

/-! ### The bus port -/

/-- R49, R50, R131: a misaligned or unmapped access is answered with a bus error and changes nothing. -/
def Obligations.BusErrorChangesNothing : Prop :=
  ∀ (s : State) (a : Offset) (v : Word),
    a.toNat % 4 ≠ 0 ∨ (0x0100 ≤ a.toNat ∧ a.toNat < 0x0400) ∨ (0x0C00 ≤ a.toNat ∧ a.toNat < 0x1000) ∨
      (0x3000 ≤ a.toNat ∧ a.toNat < 0x4000) ∨ (0x6000 ≤ a.toNat ∧ a.toNat < 0x8000) ∨
      0x8000 + s.bitmemBits / 8 ≤ a.toNat →
    s.busRead a = (.read true 0, s) ∧ s.busWrite a v = (.write true, s)

/-- R51: the address map, both ways: every target that exists is found at its offset and nowhere else. -/
def Obligations.AddressMapIsExact : Prop :=
  ∀ p : Params, p.wellFormed = true →
    (∀ t : Target, t.exists? p = true → locate p t.offset = some t) ∧
    (∀ (a : Offset) (t : Target), locate p a = some t → t.offset = a ∧ t.exists? p = true)

/-- R54, R55, with the offsets of R51 written out, while BUSY = 1.  An access to ERRCODE, ERRINFO, ENC_PTR, DEC_PTR,
DEC_END, RESULT, ROOT, NLEAVES, CURSOR, LAST_LEN or one of the FREQ, CODE_LEN, CODE_BITS, NODE and BITMEM windows: a read
is answered with a free value, a write is discarded and sets DROPPED, and neither changes anything else (`env.draws`
counts the free values, log entry 8).  Every other offset below 0x100 behaves as with BUSY = 0, but for STATUS, which
shows BUSY (`StatusBitsShowTheState`), and CMD, which discards a write and sets DROPPED. -/
def Obligations.BusyClassAccessIsHarmless : Prop :=
  ∀ (s : State) (a : Offset) (v : Word), s.cmd.busy = true → a.toNat % 4 = 0 →
    let busyRegs : List Nat := [0x018, 0x01C, 0x030, 0x034, 0x038, 0x03C, 0x040, 0x044, 0x048, 0x04C]
    let idle := { s with cmd := { s.cmd with busy := false } }
    (a.toNat ∈ busyRegs ∨ (0x0400 ≤ a.toNat ∧ a.toNat < 0x0800) ∨ (0x0800 ≤ a.toNat ∧ a.toNat < 0x0C00) ∨
        (0x1000 ≤ a.toNat ∧ a.toNat < 0x3000) ∨ (0x4000 ≤ a.toNat ∧ a.toNat < 0x6000) ∨
        (0x8000 ≤ a.toNat ∧ a.toNat < 0x8000 + s.bitmemBits / 8) →
      s.busRead a =
        (.read false (Config.busyRead s.env.draws), { s with env := { s.env with draws := s.env.draws + 1 } }) ∧
      s.busWrite a v = (.write false, { s with error := { s.error with dropped := true } })) ∧
    (a.toNat < 0x0100 → a.toNat ∉ busyRegs →
      (s.busRead a).2 = s ∧
      (a ≠ 0x014 → (s.busRead a).1 = (idle.busRead a).1) ∧
      (a ≠ 0x010 → (s.busWrite a v).1 = (idle.busWrite a v).1 ∧
        (s.busWrite a v).2 = { (idle.busWrite a v).2 with cmd := s.cmd }) ∧
      (a = 0x010 → s.busWrite a v = (.write false, { s with error := { s.error with dropped := true } })))

/-- R64: no read at any address has a side effect on HTB (`env.draws` is the model's own, log entry 8). -/
def Obligations.ReadsHaveNoSideEffect : Prop :=
  ∀ (s : State) (a : Offset),
    (s.busRead a).2 = { s with env := { s.env with draws := ((s.busRead a).2).env.draws } }

/-- R52, R53: with BUSY = 0 a write to a reserved offset, a read-only register or a read-only window is ignored, and a
reserved offset reads 0 at any time. -/
def Obligations.ReadOnlyTargetsIgnoreWrites : Prop :=
  ∀ (s : State) (a : Offset) (t : Target) (v : Word), locate s.params a = some t →
    ((∃ b, t = .reserved b) → (s.busRead a).1 = .read false 0 ∧ s.busWrite a v = (.write false, s)) ∧
    (t = .reg .id ∨ t = .reg .version ∨ t = .reg .param ∨ t = .reg .status → s.busWrite a v = (.write false, s)) ∧
    (s.cmd.busy = false →
      t = .reg .errCode ∨ t = .reg .errInfo ∨ t = .reg .result ∨ t = .reg .root ∨ t = .reg .nleaves ∨
        t = .reg .cursor ∨ t = .reg .lastLen ∨ (∃ k, t = .codeLen k) ∨ (∃ k j, t = .codeBits k j) ∨
        (∃ n i, t = .node n i) → s.busWrite a v = (.write false, s))

/-- R28: every bit of STATUS, readable at any time. -/
def Obligations.StatusBitsShowTheState : Prop :=
  ∀ s : State, ∃ w, s.busRead 0x014 = (.read false w, s) ∧
    w.getLsbD 0 = s.cmd.busy ∧ w.getLsbD 1 = s.tree.valid ∧
    (w.getLsbD 2 = true ↔ s.tree.valid = true ∧ s.tree.nleaves = 1) ∧
    (w.getLsbD 3 = true ↔ s.tree.valid = true ∧ s.dec.cursor = s.tree.root) ∧
    w.getLsbD 4 = s.dec.symValid ∧ w.getLsbD 5 = s.error.err ∧ w.getLsbD 6 = s.error.dropped ∧
    ∀ i, 7 ≤ i → w.getLsbD i = false

/-- R31, R32, R138: the interrupt line, what sets and clears its sources, and the enables. -/
def Obligations.InterruptLineAndItsSources : Prop :=
  ∀ (s : State) (v : Word),
    s.irqLine = ((s.irq.done && s.irq.doneIe) || (s.error.err && s.irq.errIe)) ∧
    (v.getLsbD 0 = true → s.busWrite 0x020 v = (.write false, { s with irq := { s.irq with done := false } })) ∧
    (v.getLsbD 0 = false → s.busWrite 0x020 v = (.write false, s)) ∧
    s.busWrite 0x024 v =
      (.write false, { s with irq := { s.irq with doneIe := v.getLsbD 0, errIe := v.getLsbD 1 } }) ∧
    (∃ w, s.busRead 0x020 = (.read false w, s) ∧ w.getLsbD 0 = s.irq.done ∧ ∀ i, 1 ≤ i → w.getLsbD i = false) ∧
    (∃ w, s.busRead 0x024 = (.read false w, s) ∧ w.getLsbD 0 = s.irq.doneIe ∧ w.getLsbD 1 = s.irq.errIe ∧
      ∀ i, 2 ≤ i → w.getLsbD i = false)

/-- R33, R34, R35: with BUSY = 0 the pointer registers hold wdata[18:0], read back zero-extended. -/
def Obligations.PointerRegistersHoldNineteenBits : Prop :=
  ∀ (s : State) (v : Word), s.cmd.busy = false →
    s.busWrite 0x030 v = (.write false, { s with ptr := { s.ptr with encPtr := v.extractLsb' 0 19 } }) ∧
    s.busWrite 0x034 v = (.write false, { s with ptr := { s.ptr with decPtr := v.extractLsb' 0 19 } }) ∧
    s.busWrite 0x038 v = (.write false, { s with ptr := { s.ptr with decEnd := v.extractLsb' 0 19 } }) ∧
    (∃ w, s.busRead 0x030 = (.read false w, s) ∧ w.toNat = s.ptr.encPtr.toNat) ∧
    (∃ w, s.busRead 0x034 = (.read false w, s) ∧ w.toNat = s.ptr.decPtr.toNat) ∧
    (∃ w, s.busRead 0x038 = (.read false w, s) ∧ w.toNat = s.ptr.decEnd.toNat)

/-- R56: the FREQ window reads and writes FREQ, one entry each, and nothing else. -/
def Obligations.FreqWindowIsTheTable : Prop :=
  ∀ (s : State) (k : Symbol) (v : Word), s.cmd.busy = false →
    s.busRead (BitVec.ofNat 16 (0x0400 + 4 * k.toNat)) = (.read false (s.freqRead k), s) ∧
    ∃ t, s.busWrite (BitVec.ofNat 16 (0x0400 + 4 * k.toNat)) v = (.write false, t) ∧ t.freqRead k = v ∧
      (∀ k', k' ≠ k → t.freqRead k' = s.freqRead k') ∧ t = { s with mem := { s.mem with freq := t.mem.freq } }

/-- R60, R61: the BITMEM window: word `j` holds stream bits `32 j` to `32 j + 31`, the first at its bit 31; a write sets
those 32 bits and no other, and moves no pointer. -/
def Obligations.BitmemWindowIsMsbFirst : Prop :=
  ∀ (s : State) (j : Nat) (v : Word), s.params.wellFormed = true → j < s.bitmemBits / 32 → s.cmd.busy = false →
    (∃ w, s.busRead (BitVec.ofNat 16 (0x8000 + 4 * j)) = (.read false w, s) ∧
      ∀ i < 32, w.getLsbD (31 - i) = s.bitRead (32 * j + i)) ∧
    ∃ t, s.busWrite (BitVec.ofNat 16 (0x8000 + 4 * j)) v = (.write false, t) ∧
      (∀ i < 32, t.bitRead (32 * j + i) = v.getLsbD (31 - i)) ∧
      (∀ k, k < 32 * j ∨ 32 * j + 32 ≤ k → t.bitRead k = s.bitRead k) ∧
      t = { s with mem := { s.mem with bitmem := t.mem.bitmem } }

/-- R57, R58: the code windows read 0 without a tree, and else LEN, and BITS with its first bit at bit 31 of word 0. -/
def Obligations.CodeWindowsShowTheCodes : Prop :=
  ∀ (s : State) (k : Symbol) (j : Nat), s.cmd.busy = false → j < 8 →
    (s.tree.valid = false →
      s.busRead (BitVec.ofNat 16 (0x0800 + 4 * k.toNat)) = (.read false 0, s) ∧
      s.busRead (BitVec.ofNat 16 (0x1000 + 32 * k.toNat + 4 * j)) = (.read false 0, s)) ∧
    (s.tree.valid = true →
      s.busRead (BitVec.ofNat 16 (0x0800 + 4 * k.toNat)) = (.read false ((s.codeRead k).len.setWidth 32), s) ∧
      ∃ w, s.busRead (BitVec.ofNat 16 (0x1000 + 32 * k.toNat + 4 * j)) = (.read false w, s) ∧
        ∀ i < 32, w.getLsbD (31 - i) = (s.codeRead k).bit (32 * j + i))

/-- R59: the NODE window reads 0 from NNODES on, and else the four words of the record. -/
def Obligations.NodeWindowShowsTheTree : Prop :=
  ∀ (s : State) (n i : Nat), s.cmd.busy = false → n < 512 → i < 4 →
    ∃ w, s.busRead (BitVec.ofNat 16 (0x4000 + 16 * n + 4 * i)) = (.read false w, s) ∧
      (s.nnodes ≤ n → w = 0) ∧
      (n < s.nnodes →
        (i = 0 → w.getLsbD 31 = true ∧ w.extractLsb' 16 15 = 0 ∧ w.extractLsb' 8 8 = (s.nodeRead n).sym ∧
          w.extractLsb' 1 7 = 0 ∧ w.getLsbD 0 = (s.nodeRead n).isLeaf) ∧
        (i = 1 → w.toNat = (s.nodeRead n).weight.toNat % 2 ^ 32) ∧
        (i = 2 → w.toNat = (s.nodeRead n).weight.toNat / 2 ^ 32) ∧
        (i = 3 → w.toNat = (s.nodeRead n).right.toNat * 2 ^ 16 + (s.nodeRead n).left.toNat))

/-- R24 to R27, R29, R30, R36 to R40: what the registers that are not covered above read: the identification registers
and CMD at any time, the others with BUSY = 0, each field zero-extended; ERRCODE reads the numbers of R129. -/
def Obligations.RegistersReadTheirFields : Prop :=
  ∀ s : State, s.busRead 0x000 = (.read false 0x48544200, s) ∧ s.busRead 0x004 = (.read false 0x00000100, s) ∧
    (s.params.wellFormed = true → ∃ w, s.busRead 0x008 = (.read false w, s) ∧
      w.toNat = s.params.bitmemLog2 + 8 * 2 ^ 8 + 511 * 2 ^ 16) ∧
    s.busRead 0x010 = (.read false s.cmd.lastCmd, s) ∧
    (s.cmd.busy = false →
      s.busRead 0x018 = (.read false (match s.error.code with
        | .none => 0x00
        | .emptyInput => 0x01
        | .unknownSymbol => 0x02
        | .malformedBitstream => 0x03
        | .illegalCommand => 0x10
        | .noTree => 0x11
        | .bitmemOverflow => 0x12
        | .freqOverflow => 0x13), s) ∧
      s.busRead 0x01C = (.read false s.error.info, s) ∧
      s.busRead 0x03C = (.read false (s.dec.result.setWidth 32), s) ∧
      s.busRead 0x040 = (.read false (s.tree.root.setWidth 32), s) ∧
      s.busRead 0x044 = (.read false (s.tree.nleaves.setWidth 32), s) ∧
      s.busRead 0x048 = (.read false (s.dec.cursor.setWidth 32), s) ∧
      s.busRead 0x04C = (.read false (s.ptr.lastLen.setWidth 32), s))
end

