-- ==== Sys2Proof/Laws/Forest.lean ====
section
/-! SUPPORT. The merging of BUILD (41_tree_builder.md R95 to R99): what one merge does, the invariant of the merges, and
the finished node table. -/

namespace Sys2Proof.Machine

/-- A node's weight as a number. -/
def weightNat (nodes : List NodeRec) (n : Nat) : Nat := (nodeAt nodes n).weight.toNat

/-- LEFT and RIGHT of a node as numbers. -/
def leftNat (nodes : List NodeRec) (n : Nat) : Nat := (nodeAt nodes n).left.toNat

def rightNat (nodes : List NodeRec) (n : Nat) : Nat := (nodeAt nodes n).right.toNat

/-- The extraction order of R96 on numbers. -/
def beforeIn (nodes : List NodeRec) (a b : Nat) : Prop :=
  weightNat nodes a < weightNat nodes b ∨ (weightNat nodes a = weightNat nodes b ∧ a < b)

/-- `m` is a child of no node with an index in `lo..n-1`. -/
def unmergedIn (nodes : List NodeRec) (lo n m : Nat) : Prop :=
  ∀ j, lo ≤ j → j < n → leftNat nodes j ≠ m ∧ rightNat nodes j ≠ m

/-- How many times `x` occurs as a child in a node table. -/
def timesIn (nodes : List NodeRec) (x : Nat) : Nat :=
  ((List.range nodes.length).map fun m =>
    if (nodeAt nodes m).isLeaf then 0
    else (leftNat nodes m == x).toNat + (rightNat nodes m == x).toNat).sum

theorem nodeAt_append_left {nodes : List NodeRec} {n : Nat} (r : NodeRec) (h : n < nodes.length) :
    nodeAt (nodes ++ [r]) n = nodeAt nodes n := by
  simp [nodeAt, List.getElem?_append_left h]

theorem nodeAt_append_last (nodes : List NodeRec) (r : NodeRec) : nodeAt (nodes ++ [r]) nodes.length = r := by
  simp [nodeAt]

theorem precedes_iff (nodes : List NodeRec) (a b : Nat) : precedes nodes a b = true ↔ beforeIn nodes a b := by
  simp only [precedes, beforeIn, weightNat, Bool.or_eq_true, Bool.and_eq_true, decide_eq_true_eq, beq_iff_eq,
    BitVec.lt_def, BitVec.toNat_inj]

theorem beforeIn_total {nodes : List NodeRec} {a b : Nat} (h : a ≠ b) (hb : ¬ beforeIn nodes a b) :
    beforeIn nodes b a := by
  simp only [beforeIn] at *; omega

theorem beforeIn_trans {nodes : List NodeRec} {a b c : Nat} (h : beforeIn nodes a b) (h' : beforeIn nodes b c) :
    beforeIn nodes a c := by
  simp only [beforeIn] at *; omega

theorem argmin_eq_none {nodes : List NodeRec} {pq : List Nat} (h : argmin nodes pq = none) : pq = [] := by
  cases pq with
  | nil => rfl
  | cons n ns => simp only [argmin] at h; split at h <;> simp at h

/-- R91, R96: argmin gives an element of the collection that precedes every other. -/
theorem argmin_spec {nodes : List NodeRec} {pq : List Nat} {a : Nat} (h : argmin nodes pq = some a) :
    a ∈ pq ∧ ∀ x ∈ pq, x ≠ a → beforeIn nodes a x := by
  induction pq generalizing a with
  | nil => simp [argmin] at h
  | cons n ns ih =>
    simp only [argmin] at h
    split at h
    · rename_i hn
      obtain rfl := argmin_eq_none hn
      simp only [Option.some.injEq] at h
      subst h
      simp
    · rename_i m hm
      obtain ⟨hmem, hmin⟩ := ih hm
      simp only [Option.some.injEq] at h
      split at h
      · rename_i hp
        subst h
        rw [precedes_iff] at hp
        refine ⟨List.mem_cons_of_mem _ hmem, fun x hx hne => ?_⟩
        rcases List.mem_cons.1 hx with rfl | hx
        · exact hp
        · exact hmin x hx hne
      · rename_i hp
        subst h
        rw [precedes_iff] at hp
        refine ⟨List.mem_cons_self, fun x hx hne => ?_⟩
        rcases List.mem_cons.1 hx with rfl | hx'
        · exact absurd rfl hne
        · by_cases hxm : x = m
          · subst hxm; exact beforeIn_total hne hp
          · by_cases hnm : m = n
            · exact hnm ▸ hmin x hx' hxm
            · exact beforeIn_trans (beforeIn_total hnm hp) (hmin x hx' hxm)

theorem extractMin_none {nodes : List NodeRec} {pq : List Nat} (h : extractMin nodes pq = none) : pq = [] := by
  simp only [extractMin, Option.map_eq_none_iff] at h
  exact argmin_eq_none h

theorem extractMin_spec {nodes : List NodeRec} {pq pq' : List Nat} {a : Nat} (h : extractMin nodes pq = some (a, pq')) :
    pq.Perm (a :: pq') ∧ ∀ x ∈ pq, x ≠ a → beforeIn nodes a x := by
  simp only [extractMin, Option.map_eq_some_iff, Prod.mk.injEq] at h
  obtain ⟨a', h, rfl, rfl⟩ := h
  have := argmin_spec h
  exact ⟨List.perm_cons_erase this.1, this.2⟩

/-- R95: a merge is possible exactly while two or more nodes are left. -/
theorem merge_eq_none {f : Forest} (h : f.merge = none) : f.pq.length ≤ 1 := by
  simp only [Forest.merge] at h
  split at h
  · rename_i h₁; simp [extractMin_none h₁]
  · rename_i a pq₁ h₁
    split at h
    · rename_i h₂
      have := (extractMin_spec h₁).1.length_eq
      rw [extractMin_none h₂] at this
      simp [this]
    · simp at h

/-- What one merge does (R95, R96, R97). -/
theorem merge_spec {f f' : Forest} (hn : f.pq.Nodup) (h : f.merge = some f') :
    ∃ a b rest, f.pq.Perm (a :: b :: rest) ∧ f'.nodes = f.nodes ++ [joinNode f.nodes a b] ∧
      f'.pq = rest ++ [f.nodes.length] ∧ beforeIn f.nodes a b ∧
      ∀ x ∈ rest, beforeIn f.nodes b x := by
  simp only [Forest.merge] at h
  split at h
  · simp at h
  · rename_i a pq₁ h₁
    split at h
    · simp at h
    · rename_i b pq₂ h₂
      simp only [Option.some.injEq] at h
      subst h
      obtain ⟨p₁, m₁⟩ := extractMin_spec h₁
      obtain ⟨p₂, m₂⟩ := extractMin_spec h₂
      have hp : f.pq.Perm (a :: b :: pq₂) := p₁.trans (p₂.cons a)
      have nd := hp.nodup_iff.1 hn
      simp only [List.nodup_cons, List.mem_cons, not_or] at nd
      refine ⟨a, b, pq₂, hp, rfl, rfl, m₁ b (hp.mem_iff.2 (by simp)) (Ne.symm nd.1.1), fun x hx => ?_⟩
      exact m₂ x (p₂.mem_iff.2 (by simp [hx])) (fun e => nd.2.1 (e ▸ hx))

/-- What holds of an internal node `k` once it is made (R96, R97, R99). -/
structure InternalOk (nodes : List NodeRec) (lo k : Nat) : Prop where
  isLeaf : (nodeAt nodes k).isLeaf = false
  sym : (nodeAt nodes k).sym = 0
  left_lt : leftNat nodes k < k
  right_lt : rightNat nodes k < k
  ne : leftNat nodes k ≠ rightNat nodes k
  weight : weightNat nodes k = weightNat nodes (leftNat nodes k) + weightNat nodes (rightNat nodes k)
  left_unmerged : unmergedIn nodes lo k (leftNat nodes k)
  right_unmerged : unmergedIn nodes lo k (rightNat nodes k)
  ordered : beforeIn nodes (leftNat nodes k) (rightNat nodes k)
  least : ∀ m < k, unmergedIn nodes lo k m → m ≠ leftNat nodes k → m ≠ rightNat nodes k →
    beforeIn nodes (rightNat nodes k) m

/-- The invariant of the merges over the leaves `seed`. -/
structure ForestInv (seed : List NodeRec) (f : Forest) : Prop where
  size : f.nodes.length + f.pq.length = 2 * seed.length
  nonempty : f.pq ≠ []
  long : seed.length ≤ f.nodes.length
  leaves : ∀ k < seed.length, nodeAt f.nodes k = nodeAt seed k
  nodup : f.pq.Nodup
  bound : ∀ x ∈ f.pq, x < f.nodes.length
  internal : ∀ k, seed.length ≤ k → k < f.nodes.length → InternalOk f.nodes seed.length k
  unmerged : ∀ x < f.nodes.length, x ∈ f.pq ↔ unmergedIn f.nodes seed.length f.nodes.length x
  once : ∀ x < f.nodes.length, timesIn f.nodes x = if x ∈ f.pq then 0 else 1
  total : (f.pq.map (weightNat f.nodes)).sum = (seed.map fun r => r.weight.toNat).sum

/-- The facts about the seed that the merges need (R8, R92). -/
structure SeedOk (seed : List NodeRec) : Prop where
  leaf : ∀ r ∈ seed, r.isLeaf = true
  nonempty : seed ≠ []
  length_le : seed.length ≤ 256
  weight_lt : ∀ r ∈ seed, r.weight.toNat < 2 ^ 32

theorem nodeAt_mem {nodes : List NodeRec} {n : Nat} (h : n < nodes.length) : nodeAt nodes n ∈ nodes := by
  simp [nodeAt, List.getElem?_eq_getElem h]

theorem SeedOk.sum_le {seed : List NodeRec} (h : SeedOk seed) : (seed.map fun r => r.weight.toNat).sum < 2 ^ 40 := by
  have key : ∀ l : List NodeRec, (∀ r ∈ l, r.weight.toNat < 2 ^ 32) →
      (l.map fun r => r.weight.toNat).sum ≤ l.length * (2 ^ 32 - 1) := by
    intro l hl
    induction l with
    | nil => simp
    | cons r l ih =>
      have h₁ := hl r (by simp)
      have h₂ := ih fun r hr => hl r (by simp [hr])
      simp only [List.map_cons, List.sum_cons, List.length_cons]
      omega
  have := key seed h.weight_lt
  have := h.length_le
  omega

theorem timesIn_eq_zero {nodes : List NodeRec} {x : Nat} (h : ∀ m < nodes.length, (nodeAt nodes m).isLeaf = true) :
    timesIn nodes x = 0 := by
  simp only [timesIn, List.sum_eq_zero_iff, List.mem_map, List.mem_range, forall_exists_index, and_imp]
  rintro _ m hm rfl
  simp [h m hm]

theorem timesIn_append {nodes : List NodeRec} (r : NodeRec) (x : Nat) (h : r.isLeaf = false) :
    timesIn (nodes ++ [r]) x = timesIn nodes x + ((r.left.toNat == x).toNat + (r.right.toNat == x).toNat) := by
  simp only [timesIn, List.length_append, List.length_cons, List.length_nil, Nat.zero_add, List.range_succ,
    List.map_append, List.map_cons, List.map_nil, List.sum_append, List.sum_cons, List.sum_nil, Nat.add_zero]
  congr 1
  · congr 1
    apply List.map_congr_left
    intro m hm
    rw [List.mem_range] at hm
    simp [leftNat, rightNat, nodeAt_append_left r hm]
  · simp [leftNat, rightNat, nodeAt_append_last, h]

/-- R92: the seeded forest meets the invariant. -/
theorem forestInv_seed {seed : List NodeRec} (h : SeedOk seed) : ForestInv seed ⟨seed, List.range seed.length⟩ where
  size := by simp; omega
  nonempty := by
    have := List.length_pos_iff.2 h.nonempty
    simp only [ne_eq, List.range_eq_nil]; omega
  long := le_refl _
  leaves _ _ := rfl
  nodup := List.nodup_range
  bound x hx := List.mem_range.1 hx
  internal k h₁ h₂ := by simp at h₂; omega
  unmerged x hx := by
    simp only [List.mem_range, unmergedIn]
    exact ⟨fun _ j h₁ h₂ => by omega, fun _ => hx⟩
  once x hx := by
    rw [timesIn_eq_zero fun m hm => h.leaf _ (nodeAt_mem hm)]
    simp only at hx
    simp [hx]
  total := by
    congr 1
    apply List.ext_getElem (by simp)
    intro i h₁ h₂
    simp at h₁ h₂
    simp [weightNat, nodeAt, h₁]

theorem weightNat_append_left {nodes : List NodeRec} {n : Nat} (r : NodeRec) (h : n < nodes.length) :
    weightNat (nodes ++ [r]) n = weightNat nodes n := by simp [weightNat, nodeAt_append_left r h]

theorem leftNat_append_left {nodes : List NodeRec} {n : Nat} (r : NodeRec) (h : n < nodes.length) :
    leftNat (nodes ++ [r]) n = leftNat nodes n := by simp [leftNat, nodeAt_append_left r h]

theorem rightNat_append_left {nodes : List NodeRec} {n : Nat} (r : NodeRec) (h : n < nodes.length) :
    rightNat (nodes ++ [r]) n = rightNat nodes n := by simp [rightNat, nodeAt_append_left r h]

theorem beforeIn_append_left {nodes : List NodeRec} {a b : Nat} (r : NodeRec) (ha : a < nodes.length)
    (hb : b < nodes.length) : beforeIn (nodes ++ [r]) a b ↔ beforeIn nodes a b := by
  simp [beforeIn, weightNat_append_left r ha, weightNat_append_left r hb]

theorem unmergedIn_append_left {nodes : List NodeRec} {lo n m : Nat} (r : NodeRec) (h : n ≤ nodes.length) :
    unmergedIn (nodes ++ [r]) lo n m ↔ unmergedIn nodes lo n m := by
  simp only [unmergedIn]
  refine forall_congr' fun j => ?_
  by_cases hj : j < n
  · simp [leftNat_append_left r (show j < nodes.length by omega), rightNat_append_left r (show j < nodes.length by omega)]
  · simp [hj]

theorem InternalOk.append {nodes : List NodeRec} {lo k : Nat} (r : NodeRec) (h : InternalOk nodes lo k)
    (hk : k < nodes.length) : InternalOk (nodes ++ [r]) lo k := by
  have hl := h.left_lt
  have hr := h.right_lt
  constructor <;>
    simp only [leftNat_append_left r hk, rightNat_append_left r hk, nodeAt_append_left r hk,
      weightNat_append_left r hk, weightNat_append_left r (show leftNat nodes k < nodes.length by omega),
      weightNat_append_left r (show rightNat nodes k < nodes.length by omega),
      unmergedIn_append_left r (show k ≤ nodes.length by omega),
      beforeIn_append_left r (show leftNat nodes k < nodes.length by omega)
        (show rightNat nodes k < nodes.length by omega)]
  · exact h.isLeaf
  · exact h.sym
  · exact h.left_lt
  · exact h.right_lt
  · exact h.ne
  · exact h.weight
  · exact h.left_unmerged
  · exact h.right_unmerged
  · exact h.ordered
  · intro m hm
    rw [beforeIn_append_left r (by omega) (by omega)]
    exact h.least m hm

/-- R95 to R99: a merge keeps the invariant. -/
theorem ForestInv.merge {seed : List NodeRec} (hs : SeedOk seed) {f f' : Forest} (hf : ForestInv seed f)
    (h : f.merge = some f') : ForestInv seed f' ∧ f'.pq.length + 1 = f.pq.length := by
  obtain ⟨a, b, rest, hp, hnodes, hpq, hab, hrest⟩ := merge_spec hf.nodup h
  obtain ⟨nodes', pq'⟩ := f'
  obtain ⟨nodes, pq⟩ := f
  simp only at hp hnodes hpq hab hrest ⊢
  have nd := hp.nodup_iff.1 hf.nodup
  simp only [List.nodup_cons, List.mem_cons, not_or] at nd
  have hlen := hp.length_eq
  simp only [List.length_cons] at hlen
  have hsize := hf.size
  have hL := hs.length_le
  have hlong := hf.long
  simp only at hsize hlong
  have ha : a < nodes.length := hf.bound a (hp.mem_iff.2 (by simp))
  have hb : b < nodes.length := hf.bound b (hp.mem_iff.2 (by simp))
  have hr : ∀ x ∈ rest, x < nodes.length := fun x hx => hf.bound x (hp.mem_iff.2 (by simp [hx]))
  have hsum := hf.total
  have hlt := hs.sum_le
  simp only at hsum
  rw [(hp.map (weightNat nodes)).sum_eq] at hsum
  simp only [List.map_cons, List.sum_cons] at hsum
  set r := joinNode nodes a b with hrdef
  have hrl : r.left.toNat = a := by simp [hrdef, joinNode]; omega
  have hrr : r.right.toNat = b := by simp [hrdef, joinNode]; omega
  have hrw : r.weight.toNat = weightNat nodes a + weightNat nodes b := by
    have : r.weight = (nodeAt nodes a).weight + (nodeAt nodes b).weight := rfl
    rw [this, BitVec.toNat_add, Nat.mod_eq_of_lt]
    · rfl
    · simp only [weightNat] at hsum
      omega
  have hl' : leftNat (nodes ++ [r]) nodes.length = a := by simp [leftNat, nodeAt_append_last, hrl]
  have hr' : rightNat (nodes ++ [r]) nodes.length = b := by simp [rightNat, nodeAt_append_last, hrr]
  have hw' : weightNat (nodes ++ [r]) nodes.length = weightNat nodes a + weightNat nodes b := by
    simp [weightNat, nodeAt_append_last, hrw]
  have hunm := hf.unmerged
  simp only at hunm
  have hnotin : nodes.length ∉ pq := fun hm => by have := hf.bound _ hm; simp at this
  subst hnodes hpq
  refine ⟨⟨?_, by simp, by simp; omega, ?_, ?_, ?_, ?_, ?_, ?_, ?_⟩, by simp [hlen]⟩
  · simp; omega
  · intro k hk
    simp only
    rw [nodeAt_append_left r (by omega)]
    exact hf.leaves k hk
  · simp only
    rw [List.nodup_append]
    refine ⟨nd.2.2, by simp, fun x hx y hy => ?_⟩
    simp only [List.mem_singleton] at hy
    have := hr x hx
    omega
  · intro x hx
    simp only [List.mem_append, List.mem_singleton, List.length_append, List.length_cons, List.length_nil] at hx ⊢
    rcases hx with hx | hx
    · have := hr x hx; omega
    · omega
  · intro k h₁ h₂
    simp only [List.length_append, List.length_cons, List.length_nil] at h₂ ⊢
    by_cases hk : k < nodes.length
    · exact (hf.internal k h₁ hk).append r hk
    · obtain rfl : k = nodes.length := by omega
      refine ⟨?_, ?_, ?_, ?_, ?_, ?_, ?_, ?_, ?_, ?_⟩ <;> simp only [hl', hr', nodeAt_append_last]
      · rfl
      · rfl
      · exact ha
      · exact hb
      · exact nd.1.1
      · rw [hw', weightNat_append_left r ha, weightNat_append_left r hb]
      · exact (unmergedIn_append_left r (le_refl _)).2 ((hunm a ha).1 (hp.mem_iff.2 (by simp)))
      · exact (unmergedIn_append_left r (le_refl _)).2 ((hunm b hb).1 (hp.mem_iff.2 (by simp)))
      · exact (beforeIn_append_left r ha hb).2 hab
      · intro m hm hmu hma hmb
        rw [unmergedIn_append_left r (le_refl _)] at hmu
        have := hp.mem_iff.1 ((hunm m hm).2 hmu)
        simp only [List.mem_cons, hma, hmb, false_or] at this
        exact (beforeIn_append_left r hb hm).2 (hrest m this)
  · intro x hx
    simp only [List.length_append, List.length_cons, List.length_nil, List.mem_append, List.mem_singleton] at hx ⊢
    have step : unmergedIn (nodes ++ [r]) seed.length (nodes.length + 1) x ↔
        unmergedIn nodes seed.length nodes.length x ∧ a ≠ x ∧ b ≠ x := by
      rw [← unmergedIn_append_left r (le_refl _)]
      constructor
      · intro hu
        refine ⟨fun j h₁ h₂ => hu j h₁ (by omega), ?_⟩
        have := hu nodes.length hlong (by omega)
        rwa [hl', hr'] at this
      · rintro ⟨hu, hax⟩ j h₁ h₂
        by_cases hj : j < nodes.length
        · exact hu j h₁ hj
        · obtain rfl : j = nodes.length := by omega
          rwa [hl', hr']
    rw [step]
    by_cases hxl : x < nodes.length
    · rw [← hunm x hxl, hp.mem_iff]
      simp only [List.mem_cons]
      constructor
      · rintro (hx | hx)
        · exact ⟨.inr (.inr hx), fun e => nd.1.2 (e ▸ hx), fun e => nd.2.1 (e ▸ hx)⟩
        · omega
      · rintro ⟨rfl | rfl | hx, h₁, h₂⟩
        · exact absurd rfl h₁
        · exact absurd rfl h₂
        · exact .inl hx
    · obtain rfl : x = nodes.length := by omega
      refine ⟨fun _ => ⟨fun j h₁ h₂ => ?_, by omega, by omega⟩, fun _ => .inr rfl⟩
      have h₃ := hf.internal j h₁ h₂
      have := h₃.left_lt
      have := h₃.right_lt
      simp only at *
      omega
  · intro x hx
    simp only [List.length_append, List.length_cons, List.length_nil, List.mem_append, List.mem_singleton] at hx ⊢
    rw [timesIn_append r x rfl, hrl, hrr]
    by_cases hxl : x < nodes.length
    · rw [hf.once x hxl]
      simp only [hp.mem_iff, List.mem_cons]
      by_cases hxa : x = a
      · subst hxa
        simp [nd.1.2, show b ≠ x from fun e => nd.1.1 e.symm, show x ≠ nodes.length by omega]
      · by_cases hxb : x = b
        · subst hxb
          simp [nd.2.1, show a ≠ x from fun e => hxa e.symm, show x ≠ nodes.length by omega]
        · simp [hxa, hxb, Ne.symm hxa, Ne.symm hxb, show x ≠ nodes.length by omega]
    · obtain rfl : x = nodes.length := by omega
      have h0 : timesIn nodes nodes.length = 0 := by
        simp only [timesIn, List.sum_eq_zero_iff, List.mem_map, List.mem_range, forall_exists_index, and_imp]
        rintro _ m hm rfl
        by_cases hml : m < seed.length
        · rw [hf.leaves m hml, hs.leaf _ (nodeAt_mem hml)]; simp
        · have h₃ := hf.internal m (by omega) hm
          have := h₃.left_lt
          have := h₃.right_lt
          simp only at *
          simp [h₃.isLeaf, show leftNat nodes m ≠ nodes.length by omega,
            show rightNat nodes m ≠ nodes.length by omega]
      simp [h0, show a ≠ nodes.length by omega, show b ≠ nodes.length by omega]
  · simp only [List.map_append, List.map_cons, List.map_nil, List.sum_append, List.sum_cons, List.sum_nil, hw']
    rw [List.map_congr_left fun x hx => weightNat_append_left r (hr x hx)]
    change (rest.map (weightNat nodes)).sum + _ = _
    omega

theorem ForestInv.mergeUpTo {seed : List NodeRec} (hs : SeedOk seed) (k : Nat) {f : Forest} (hf : ForestInv seed f)
    (hk : f.pq.length ≤ k + 1) :
    ForestInv seed (f.mergeUpTo k) ∧ (f.mergeUpTo k).pq.length = 1 := by
  induction k generalizing f with
  | zero =>
    have := List.length_pos_iff.2 hf.nonempty
    exact ⟨hf, by simp only [Forest.mergeUpTo]; omega⟩
  | succ k ih =>
    rw [Forest.mergeUpTo]
    split
    · rename_i h
      have := List.length_pos_iff.2 hf.nonempty
      exact ⟨hf, by have := merge_eq_none h; omega⟩
    · rename_i f' h
      obtain ⟨h₁, h₂⟩ := hf.merge hs h
      exact ih h₁ (by omega)

/-- The finished table over the leaves `seed` (R98): the invariant, and one node left in the collection, the last. -/
structure BuiltOk (seed nodes : List NodeRec) : Prop where
  seedOk : SeedOk seed
  length : nodes.length = 2 * seed.length - 1
  leaves : ∀ k < seed.length, nodeAt nodes k = nodeAt seed k
  internal : ∀ k, seed.length ≤ k → k < nodes.length → InternalOk nodes seed.length k
  once : ∀ x < nodes.length, timesIn nodes x = if x = nodes.length - 1 then 0 else 1
  unmerged : ∀ x < nodes.length, x = nodes.length - 1 ↔ unmergedIn nodes seed.length nodes.length x
  total : weightNat nodes (nodes.length - 1) = (seed.map fun r => r.weight.toNat).sum

theorem seedForest_mergeUpTo {seed : List NodeRec} (hs : SeedOk seed) :
    ∃ nodes, Forest.mergeUpTo (List.range seed.length).length ⟨seed, List.range seed.length⟩ =
      ⟨nodes, [nodes.length - 1]⟩ ∧ BuiltOk seed nodes := by
  obtain ⟨hf, h1⟩ := (forestInv_seed hs).mergeUpTo hs (List.range seed.length).length (by simp)
  revert hf h1
  generalize Forest.mergeUpTo (List.range seed.length).length ⟨seed, List.range seed.length⟩ = f
  intro hf h1
  obtain ⟨nodes, pq⟩ := f
  obtain ⟨x, rfl⟩ := List.length_eq_one_iff.1 h1
  have hpos := List.length_pos_iff.2 hs.nonempty
  have hsize := hf.size
  simp only [List.length_cons, List.length_nil] at hsize
  have hx : x < nodes.length := hf.bound x (by simp)
  -- the last node is a child of none, so it is the one left
  have hlast : nodes.length - 1 ∈ [x] := by
    rw [show ([x] : List Nat) = (⟨nodes, [x]⟩ : Forest).pq from rfl, hf.unmerged _ (by simp only; omega)]
    intro j h₁ h₂
    have h₃ := hf.internal j h₁ h₂
    have := h₃.left_lt
    have := h₃.right_lt
    simp only at *
    omega
  obtain rfl : nodes.length - 1 = x := by simpa using hlast
  refine ⟨nodes, rfl, hs, by omega, hf.leaves, hf.internal, ?_, ?_, ?_⟩
  · intro y hy
    have := hf.once y hy
    simpa using this
  · intro y hy
    have := hf.unmerged y hy
    simpa using this
  · have := hf.total
    simpa using this

end Sys2Proof.Machine
end

