-- ==== Sys2Proof/Laws/Memory.lean ====
section
/-! SUPPORT. The laws of the internal memories: a read after a write, the canonical form, and the packing of bits into
words and codes. -/

namespace Sys2Proof.Machine

section Reads
variable {α : Type}

@[simp] theorem Memory.find_nil (k : Nat) : Memory.find ([] : Memory α) k = none := rfl

/-- A read after a write at the same index gives the value written. -/
@[simp] theorem Memory.find_write_same (m : Memory α) (k : Nat) (v : α) : (Memory.write m k v).find k = some v := by
  induction m with
  | nil => simp [Memory.write, Memory.find]
  | cons c rest ih =>
    obtain ⟨j, u⟩ := c
    unfold Memory.write
    split
    · simp [Memory.find]
    · split
      · simp [Memory.find]
      · rename_i h₁ h₂
        simp [Memory.find, h₁, h₂, ih]

/-- A write leaves every other index alone. -/
theorem Memory.find_write_other (m : Memory α) {k k' : Nat} (v : α) (h : k' ≠ k) :
    (Memory.write m k v).find k' = Memory.find m k' := by
  induction m with
  | nil => simp [Memory.write, Memory.find, h]
  | cons c rest ih =>
    obtain ⟨j, u⟩ := c
    unfold Memory.write
    split
    · rename_i h₁
      by_cases h₂ : k' < k
      · simp [Memory.find, h, h₂, show k' ≠ j by omega, show k' < j by omega]
      · simp [Memory.find, h, h₂]
    · split
      · rename_i h₁ h₂
        subst h₂
        simp [Memory.find, h]
      · simp [Memory.find, ih]

theorem Memory.find_write (m : Memory α) (k k' : Nat) (v : α) :
    (Memory.write m k v).find k' = if k' = k then some v else Memory.find m k' := by
  split
  · rename_i h; subst h; simp
  · exact Memory.find_write_other m v ‹_›

/-- A read after a run of writes: the value of the run inside it, the old value outside. -/
theorem Memory.find_writeFrom (m : Memory α) (k : Nat) (vs : List α) (k' : Nat) :
    (Memory.writeFrom m k vs).find k' =
      if k ≤ k' then (if h : k' - k < vs.length then some vs[k' - k] else Memory.find m k') else Memory.find m k' := by
  induction vs generalizing m k with
  | nil => simp [Memory.writeFrom]
  | cons v vs ih =>
    rw [Memory.writeFrom, ih, Memory.find_write]
    by_cases h₁ : k' = k
    · subst h₁; simp
    · by_cases h₂ : k ≤ k'
      · have e : k' - k = (k' - (k + 1)) + 1 := by omega
        simp [show k + 1 ≤ k' by omega, h₁, h₂, e]
      · simp [show ¬ k + 1 ≤ k' by omega, h₁, h₂]

theorem Memory.find_writeFrom_inside (m : Memory α) (k : Nat) (vs : List α) (i : Nat) (h : i < vs.length) :
    (Memory.writeFrom m k vs).find (k + i) = some vs[i] := by
  simp [Memory.find_writeFrom, h]

theorem Memory.find_writeFrom_outside (m : Memory α) (k : Nat) (vs : List α) (k' : Nat)
    (h : k' < k ∨ k + vs.length ≤ k') : (Memory.writeFrom m k vs).find k' = Memory.find m k' := by
  rw [Memory.find_writeFrom]
  split
  · rw [dif_neg (by omega)]
  · rfl

end Reads

section CanonicalForm
variable {α : Type}

theorem Memory.risesFrom_mono {m : Memory α} {lo lo' : Nat} (h : lo' ≤ lo) (hm : Memory.risesFrom lo m = true) :
    Memory.risesFrom lo' m = true := by
  cases m with
  | nil => rfl
  | cons c rest =>
    simp only [Memory.risesFrom, Bool.and_eq_true, decide_eq_true_eq] at hm ⊢
    exact ⟨by omega, hm.2⟩

theorem Memory.risesFrom_write {m : Memory α} {lo k : Nat} (v : α) (hk : lo ≤ k)
    (hm : Memory.risesFrom lo m = true) : Memory.risesFrom lo (Memory.write m k v) = true := by
  induction m generalizing lo with
  | nil => simp [Memory.write, Memory.risesFrom, hk]
  | cons c rest ih =>
    obtain ⟨j, u⟩ := c
    simp only [Memory.risesFrom, Bool.and_eq_true, decide_eq_true_eq] at hm
    unfold Memory.write
    split
    · simp only [Memory.risesFrom, Bool.and_eq_true, decide_eq_true_eq]
      exact ⟨hk, by omega, hm.2⟩
    · split
      · rename_i h₁ h₂
        subst h₂
        simp only [Memory.risesFrom, Bool.and_eq_true, decide_eq_true_eq]
        exact ⟨hk, hm.2⟩
      · simp only [Memory.risesFrom, Bool.and_eq_true, decide_eq_true_eq]
        exact ⟨hm.1, ih (by omega) hm.2⟩

theorem Memory.mem_write {m : Memory α} {k : Nat} {v : α} {c : Nat × α} (h : c ∈ Memory.write m k v) :
    c = (k, v) ∨ c ∈ m := by
  induction m with
  | nil => simpa [Memory.write] using h
  | cons d rest ih =>
    obtain ⟨j, u⟩ := d
    unfold Memory.write at h
    split at h
    · simpa using h
    · split at h
      · simp at h ⊢; tauto
      · simp only [List.mem_cons] at h ⊢
        rcases h with h | h
        · exact .inr (.inl h)
        · exact (ih h).imp_right .inr

/-- A write keeps the canonical form. -/
theorem Memory.wf_write {m : Memory α} {size k : Nat} (v : α) (hk : k < size) (hm : Memory.wf size m = true) :
    Memory.wf size (Memory.write m k v) = true := by
  simp only [Memory.wf, Bool.and_eq_true, List.all_eq_true, decide_eq_true_eq] at hm ⊢
  refine ⟨Memory.risesFrom_write v (Nat.zero_le _) hm.1, fun c hc => ?_⟩
  rcases Memory.mem_write hc with rfl | h
  · exact hk
  · exact hm.2 c h

/-- A run of writes keeps the canonical form. -/
theorem Memory.wf_writeFrom {m : Memory α} {size k : Nat} (vs : List α) (hk : k + vs.length ≤ size)
    (hm : Memory.wf size m = true) : Memory.wf size (Memory.writeFrom m k vs) = true := by
  induction vs generalizing m k with
  | nil => exact hm
  | cons v vs ih =>
    rw [Memory.writeFrom]
    exact ih (by simp at hk; omega) (Memory.wf_write v (by simp at hk; omega) hm)

@[simp] theorem Memory.wf_nil (size : Nat) : Memory.wf size ([] : Memory α) = true := rfl

/-- In canonical form an index that is read is in the memory's range. -/
theorem Memory.find_none_of_size_le {m : Memory α} {size k : Nat} (hm : Memory.wf size m = true) (hk : size ≤ k) :
    Memory.find m k = none := by
  simp only [Memory.wf, Bool.and_eq_true, List.all_eq_true, decide_eq_true_eq] at hm
  have hlt := hm.2
  clear hm
  induction m with
  | nil => rfl
  | cons c rest ih =>
    obtain ⟨j, u⟩ := c
    have hj := hlt (j, u) (by simp)
    simp only at hj
    rw [Memory.find, if_neg (by omega), if_neg (by omega)]
    exact ih fun c hc => hlt c (by simp [hc])

end CanonicalForm

section Packing

theorem packMsb_lt (f : Nat → Bool) (n : Nat) : packMsb f n < 2 ^ n := by
  induction n with
  | zero => simp [packMsb]
  | succ n ih =>
    have := Bool.toNat_lt (f n)
    rw [packMsb, Nat.pow_succ]
    omega

/-- Bit `n - 1 - i` of the packed number is bit `i` of the sequence. -/
theorem testBit_packMsb (f : Nat → Bool) (n i : Nat) (h : i < n) :
    (packMsb f n).testBit (n - 1 - i) = f i := by
  induction n with
  | zero => omega
  | succ n ih =>
    rw [packMsb]
    by_cases e : i = n
    · subst e
      rw [show i + 1 - 1 - i = 0 by omega, Nat.testBit_zero]
      have := Bool.toNat_lt (f i)
      cases f i <;> simp [Nat.add_mod]
    · rw [show n + 1 - 1 - i = (n - 1 - i) + 1 by omega, Nat.testBit_succ]
      have := Bool.toNat_lt (f n)
      rw [show (2 * packMsb f n + (f n).toNat) / 2 = packMsb f n by omega]
      exact ih (by omega)

/-- The packing of R58, R60 and R61: bit `31 - i` of the word is bit `i` of the sequence. -/
theorem getLsbD_wordOfBits (f : Nat → Bool) (i : Nat) (h : i < 32) : (wordOfBits f).getLsbD (31 - i) = f i := by
  rw [wordOfBits, BitVec.getLsbD_ofNat]
  simp only [show (31 - i < 32) = True by simp; omega, decide_true, Bool.true_and]
  exact testBit_packMsb f 32 i h

theorem streamBitOfWord_eq (w : Word) (i : Nat) (h : i < 32) : streamBitOfWord w i = w.getLsbD (31 - i) := by
  simp [streamBitOfWord, BitVec.getMsbD, h]

@[simp] theorem length_bitsOfWord (w : Word) : (bitsOfWord w).length = 32 := by simp [bitsOfWord]

/-- R61: bit `i` of the stream is bit `31 - i` of the word. -/
theorem getElem_bitsOfWord (w : Word) (i : Nat) (h : i < (bitsOfWord w).length) :
    (bitsOfWord w)[i] = w.getLsbD (31 - i) := by
  rw [length_bitsOfWord] at h
  rw [← streamBitOfWord_eq w i h]
  simp [bitsOfWord]

end Packing

end Sys2Proof.Machine

namespace Sys2Proof

@[simp] theorem CodeEntry.length_code (c : CodeEntry) : c.code.length = c.len.toNat := by simp [CodeEntry.code]

theorem CodeEntry.getElem_code (c : CodeEntry) (i : Nat) (h : i < c.code.length) : c.code[i] = c.bit i := by
  simp [CodeEntry.code]

theorem CodeEntry.len_ofCode (p : List Bool) (h : p.length ≤ 255) : (CodeEntry.ofCode p).len.toNat = p.length := by
  simp only [CodeEntry.ofCode, BitVec.toNat_ofNat]
  omega

/-- BITS holds the code, first bit first, and zeros after it (R43). -/
theorem CodeEntry.bit_ofCode (p : List Bool) (i : Nat) (h : i < 256) :
    (CodeEntry.ofCode p).bit i = p.getD i false := by
  rw [CodeEntry.bit, CodeEntry.ofCode, BitVec.getMsbD]
  simp only [h, decide_true, Bool.true_and]
  rw [BitVec.getLsbD_ofNat]
  simp only [show (256 - 1 - i < 256) = True by simp; omega, decide_true, Bool.true_and]
  exact Machine.testBit_packMsb (fun i => p.getD i false) 256 i h

/-- A code of at most 255 bits is read back from the entry that stores it. -/
theorem CodeEntry.code_ofCode (p : List Bool) (h : p.length ≤ 255) : (CodeEntry.ofCode p).code = p := by
  apply List.ext_getElem
  · rw [CodeEntry.length_code, CodeEntry.len_ofCode p h]
  · intro i h₁ h₂
    rw [CodeEntry.getElem_code, CodeEntry.bit_ofCode p i (by omega)]
    simp [h₂]

theorem CodeEntry.bits_ofCode_nil : (CodeEntry.ofCode []).bits = 0 := by decide +kernel

end Sys2Proof
end

