-- ==== Sys2Proof/Laws/Codes.lean ====
section
/-! SUPPORT. Paths in a finished node table and the codes a BUILD derives from them (41_tree_builder.md R100 to R104):
every node has exactly one path from the root, a leaf's path is its symbol's code, and no code is a prefix of another. -/

namespace Sys2Proof.Machine

/-- Where a bit string leads from node `n` of a node table. -/
def pathEndIn (nodes : List NodeRec) : Nat → List Bool → Option Nat
  | n, [] => some n
  | n, b :: bs => if (nodeAt nodes n).isLeaf then none else pathEndIn nodes (childOf (nodeAt nodes n) b).toNat bs

/-- The child of node `n` on bit `b`, as a number. -/
def childNat (nodes : List NodeRec) (n : Nat) (b : Bool) : Nat := (childOf (nodeAt nodes n) b).toNat

@[simp] theorem childNat_false (nodes : List NodeRec) (n : Nat) : childNat nodes n false = leftNat nodes n := rfl
@[simp] theorem childNat_true (nodes : List NodeRec) (n : Nat) : childNat nodes n true = rightNat nodes n := rfl

theorem pathEndIn_cons (nodes : List NodeRec) (n : Nat) (b : Bool) (bs : List Bool) :
    pathEndIn nodes n (b :: bs) = if (nodeAt nodes n).isLeaf then none else pathEndIn nodes (childNat nodes n b) bs := rfl

theorem pathEndIn_append (nodes : List NodeRec) (n : Nat) (p q : List Bool) :
    pathEndIn nodes n (p ++ q) = (pathEndIn nodes n p).bind fun m => pathEndIn nodes m q := by
  induction p generalizing n with
  | nil => rfl
  | cons b bs ih =>
    rw [List.cons_append, pathEndIn_cons, pathEndIn_cons]
    split
    · rfl
    · exact ih _

/-- A last edge: it leaves an internal node, for its child. -/
theorem pathEndIn_concat {nodes : List NodeRec} {n m : Nat} {p : List Bool} {b : Bool}
    (h : pathEndIn nodes n (p ++ [b]) = some m) :
    ∃ j, pathEndIn nodes n p = some j ∧ (nodeAt nodes j).isLeaf = false ∧ childNat nodes j b = m := by
  rw [pathEndIn_append, Option.bind_eq_some_iff] at h
  obtain ⟨j, hj, h⟩ := h
  rw [pathEndIn_cons] at h
  split at h
  · simp at h
  · rename_i hl
    refine ⟨j, hj, by simpa using hl, ?_⟩
    simpa [pathEndIn] using h

/-- Only the empty path starts at a leaf. -/
theorem pathEndIn_leaf {nodes : List NodeRec} {n m : Nat} {p : List Bool} (hl : (nodeAt nodes n).isLeaf = true)
    (h : pathEndIn nodes n p = some m) : p = [] := by
  cases p with
  | nil => rfl
  | cons b bs => simp [pathEndIn_cons, hl] at h

section Built
variable {seed nodes : List NodeRec} (hb : BuiltOk seed nodes)
include hb

theorem BuiltOk.pos : 0 < seed.length := List.length_pos_iff.2 hb.seedOk.nonempty

theorem BuiltOk.isLeaf {n : Nat} (h : n < nodes.length) : (nodeAt nodes n).isLeaf = decide (n < seed.length) := by
  by_cases hn : n < seed.length
  · rw [hb.leaves n hn, hb.seedOk.leaf _ (nodeAt_mem hn)]; simp [hn]
  · rw [(hb.internal n (by omega) h).isLeaf]; simp [hn]

theorem BuiltOk.childNat_lt {n : Nat} (h : n < nodes.length) (hl : (nodeAt nodes n).isLeaf = false) (b : Bool) :
    childNat nodes n b < n := by
  rw [hb.isLeaf h] at hl
  have hi := hb.internal n (by simpa using hl) h
  cases b
  · exact hi.left_lt
  · exact hi.right_lt

/-- A path never leaves the table, and goes down in index. -/
theorem BuiltOk.pathEndIn_le {n m : Nat} {p : List Bool} (hn : n < nodes.length) (h : pathEndIn nodes n p = some m) :
    m ≤ n := by
  induction p generalizing n with
  | nil => simp [pathEndIn] at h; omega
  | cons b bs ih =>
    rw [pathEndIn_cons] at h
    split at h
    · simp at h
    · rename_i hl
      have := hb.childNat_lt hn (by simpa using hl) b
      have := ih (by omega) h
      omega

/-- R100: a path from node `n` passes internal nodes only before its end, so it has at most `n - L + 1` edges. -/
theorem BuiltOk.length_path_le {n m : Nat} {p : List Bool} (hn : n < nodes.length)
    (h : pathEndIn nodes n p = some m) : p.length + seed.length ≤ n + 1 ∨ p = [] := by
  induction p generalizing n with
  | nil => exact .inr rfl
  | cons b bs ih =>
    rw [pathEndIn_cons] at h
    split at h
    · simp at h
    · rename_i hl
      have hlt := hb.childNat_lt hn (by simpa using hl) b
      have hl' : seed.length ≤ n := by
        have := hb.isLeaf hn
        simp only [hl, Bool.false_eq] at this
        simpa using this
      left
      rcases ih (by omega) h with h₁ | h₁
      · simp only [List.length_cons]; omega
      · subst h₁; simp only [List.length_cons, List.length_nil]; omega

/-- R99: a node is a child of at most one node, on one side. -/
theorem BuiltOk.parent_unique {j j' : Nat} {b b' : Bool} (hj : j < nodes.length) (hj' : j' < nodes.length)
    (hl : (nodeAt nodes j).isLeaf = false) (hl' : (nodeAt nodes j').isLeaf = false)
    (h : childNat nodes j b = childNat nodes j' b') : j = j' ∧ b = b' := by
  rw [hb.isLeaf hj] at hl
  rw [hb.isLeaf hj'] at hl'
  simp only [decide_eq_false_iff_not, not_lt] at hl hl'
  have hi := hb.internal j hl hj
  have hi' := hb.internal j' hl' hj'
  have hun : ∀ (k : Nat) (c : Bool), seed.length ≤ k → k < nodes.length →
      unmergedIn nodes seed.length k (childNat nodes k c) := by
    intro k c h₁ h₂
    cases c
    · exact (hb.internal k h₁ h₂).left_unmerged
    · exact (hb.internal k h₁ h₂).right_unmerged
  have key : ∀ (k k' : Nat) (c c' : Bool), seed.length ≤ k → k < k' → k' < nodes.length →
      childNat nodes k c ≠ childNat nodes k' c' := by
    intro k k' c c' h₁ h₂ h₃ e
    have := hun k' c' (by omega) h₃ k h₁ h₂
    cases c
    · exact this.1 e
    · exact this.2 e
  rcases Nat.lt_trichotomy j j' with hlt | rfl | hlt
  · exact absurd h (key j j' b b' hl hlt hj')
  · refine ⟨rfl, ?_⟩
    cases b <;> cases b' <;> simp only [childNat_false, childNat_true] at h
    · rfl
    · exact absurd h hi.ne
    · exact absurd h.symm hi.ne
    · rfl
  · exact absurd h.symm (key j' j b' b hl' hlt hj)

/-- R99: every node but the root is a child. -/
theorem BuiltOk.exists_parent {m : Nat} (hm : m < nodes.length) (hr : m ≠ nodes.length - 1) :
    ∃ j b, j < nodes.length ∧ (nodeAt nodes j).isLeaf = false ∧ childNat nodes j b = m := by
  have := (hb.unmerged m hm).not.1 hr
  simp only [unmergedIn, not_forall, not_and_or, not_not] at this
  obtain ⟨j, h₁, h₂, h⟩ := this
  refine ⟨j, ?_⟩
  rcases h with h | h
  · exact ⟨false, h₂, (hb.internal j h₁ h₂).isLeaf, h⟩
  · exact ⟨true, h₂, (hb.internal j h₁ h₂).isLeaf, h⟩

/-- Every node is reached from the root. -/
theorem BuiltOk.exists_path {m : Nat} (hm : m < nodes.length) :
    ∃ p, pathEndIn nodes (nodes.length - 1) p = some m := by
  induction hk : nodes.length - m using Nat.strong_induction_on generalizing m with
  | _ k ih =>
    by_cases hr : m = nodes.length - 1
    · exact ⟨[], by simp [pathEndIn, hr]⟩
    · obtain ⟨j, b, hj, hl, h⟩ := hb.exists_parent hm hr
      have hlt := hb.childNat_lt hj hl b
      obtain ⟨p, hp⟩ := ih (nodes.length - j) (by omega) hj rfl
      refine ⟨p ++ [b], ?_⟩
      rw [pathEndIn_append, hp, Option.bind_some, pathEndIn_cons, hl]
      simp [pathEndIn, h]

/-- By one path only. -/
theorem BuiltOk.path_unique {m : Nat} {p q : List Bool} (hp : pathEndIn nodes (nodes.length - 1) p = some m)
    (hq : pathEndIn nodes (nodes.length - 1) q = some m) : p = q := by
  have hpos := hb.pos
  have hlen := hb.length
  have hroot : nodes.length - 1 < nodes.length := by omega
  have noParent : ∀ {p : List Bool} {b : Bool}, pathEndIn nodes (nodes.length - 1) (p ++ [b]) ≠
      some (nodes.length - 1) := by
    intro p b h
    obtain ⟨j, hj, hl, h⟩ := pathEndIn_concat h
    have hle := hb.pathEndIn_le hroot hj
    have := hb.childNat_lt (by omega) hl b
    omega
  induction p using List.reverseRecOn generalizing m q with
  | nil =>
    obtain rfl : nodes.length - 1 = m := by simpa [pathEndIn] using hp
    rcases List.eq_nil_or_concat q with rfl | ⟨q', c, rfl⟩
    · rfl
    · rw [List.concat_eq_append] at hq
      exact absurd hq noParent
  | append_singleton p b ih =>
    rcases List.eq_nil_or_concat q with rfl | ⟨q', c, rfl⟩
    · obtain rfl : nodes.length - 1 = m := by simpa [pathEndIn] using hq
      exact absurd hp noParent
    · rw [List.concat_eq_append] at hq ⊢
      obtain ⟨j, hj, hl, h⟩ := pathEndIn_concat hp
      obtain ⟨j', hj', hl', h'⟩ := pathEndIn_concat hq
      have hle := hb.pathEndIn_le hroot hj
      have hle' := hb.pathEndIn_le hroot hj'
      obtain ⟨rfl, rfl⟩ := hb.parent_unique (by omega) (by omega) hl hl' (h.trans h'.symm)
      rw [ih hj hj']

end Built

section Walk

/-- Every leaf that Walk records is reached by the path it records (R101). -/
theorem walk_sound {nodes : List NodeRec} {fuel n : Nat} {p : List Bool} {k : Symbol} {c : List Bool}
    (h : (k, c) ∈ walk nodes fuel n p) :
    ∃ q m, c = p ++ q ∧ pathEndIn nodes n q = some m ∧ (nodeAt nodes m).isLeaf = true ∧ (nodeAt nodes m).sym = k := by
  induction fuel generalizing n p with
  | zero => simp [walk] at h
  | succ fuel ih =>
    rw [walk] at h
    split at h
    · rename_i hl
      simp only [List.mem_singleton, Prod.mk.injEq] at h
      exact ⟨[], n, by simp [h.2], rfl, hl, h.1.symm⟩
    · rename_i hl
      rcases List.mem_append.1 h with h | h
      · obtain ⟨q, m, rfl, h₁, h₂⟩ := ih h
        exact ⟨false :: q, m, by simp, by rw [pathEndIn_cons]; simpa [hl, childNat, childOf] using h₁, h₂⟩
      · obtain ⟨q, m, rfl, h₁, h₂⟩ := ih h
        exact ⟨true :: q, m, by simp, by rw [pathEndIn_cons]; simpa [hl, childNat, childOf] using h₁, h₂⟩

variable {seed nodes : List NodeRec} (hb : BuiltOk seed nodes)
include hb

/-- Every leaf below the node is recorded (R101). -/
theorem BuiltOk.walk_complete {fuel n m : Nat} {p q : List Bool} (hn : n < nodes.length) (hf : n < fuel)
    (h : pathEndIn nodes n q = some m) (hl : (nodeAt nodes m).isLeaf = true) :
    ((nodeAt nodes m).sym, p ++ q) ∈ walk nodes fuel n p := by
  induction fuel generalizing n p q with
  | zero => omega
  | succ fuel ih =>
    rw [walk]
    cases q with
    | nil =>
      obtain rfl : n = m := by simpa [pathEndIn] using h
      simp [hl]
    | cons b bs =>
      rw [pathEndIn_cons] at h
      split at h
      · simp at h
      · rename_i hnl
        have hlt := hb.childNat_lt hn (by simpa using hnl) b
        rw [if_neg hnl, List.mem_append]
        have := ih (p := p ++ [b]) (by omega) (by omega) h
        rw [List.append_assoc, List.singleton_append] at this
        cases b
        · exact .inl this
        · exact .inr this

/-- The code is complete (R104): below a node at depth `d` the sum of 2^-LEN is 2^-d. -/
theorem BuiltOk.walk_kraft {fuel n : Nat} {p : List Bool} (hn : n < nodes.length) (hf : n < fuel) :
    ((walk nodes fuel n p).map fun c => (1 / 2 : ℚ) ^ c.2.length).sum = (1 / 2) ^ p.length := by
  induction fuel generalizing n p with
  | zero => omega
  | succ fuel ih =>
    rw [walk]
    split
    · simp
    · rename_i hnl
      have h₁ := hb.childNat_lt hn (by simpa using hnl) false
      have h₂ := hb.childNat_lt hn (by simpa using hnl) true
      rw [List.map_append, List.sum_append]
      have e₁ := ih (n := (nodeAt nodes n).left.toNat) (p := p ++ [false])
        (by simp only [childNat_false, leftNat] at h₁; omega) (by simp only [childNat_false, leftNat] at h₁; omega)
      have e₂ := ih (n := (nodeAt nodes n).right.toNat) (p := p ++ [true])
        (by simp only [childNat_true, rightNat] at h₂; omega) (by simp only [childNat_true, rightNat] at h₂; omega)
      rw [e₁, e₂]
      simp only [List.length_append, List.length_cons, List.length_nil, pow_succ]
      ring

end Walk

/-- The paths Walk records start with the path it was given. -/
theorem walk_prefix {nodes : List NodeRec} {fuel n : Nat} {p : List Bool} {c : Symbol × List Bool}
    (h : c ∈ walk nodes fuel n p) : p <+: c.2 := by
  obtain ⟨q, m, e, -⟩ := walk_sound (k := c.1) (c := c.2) h
  exact ⟨q, e.symm⟩

/-- R104: no recorded path is a prefix of a later or an earlier one. -/
theorem walk_prefixFree (nodes : List NodeRec) (fuel n : Nat) (p : List Bool) :
    (walk nodes fuel n p).Pairwise fun x y => ¬ x.2 <+: y.2 ∧ ¬ y.2 <+: x.2 := by
  induction fuel generalizing n p with
  | zero => simp [walk]
  | succ fuel ih =>
    rw [walk]
    split
    · simp
    · rw [List.pairwise_append]
      refine ⟨ih _ _, ih _ _, fun x hx y hy => ?_⟩
      have h₁ := walk_prefix hx
      have h₂ := walk_prefix hy
      constructor <;> intro h
      · have := List.prefix_of_prefix_length_le (h₁.trans h) h₂ (by simp)
        obtain ⟨t, ht⟩ := this
        simp at ht
      · have := List.prefix_of_prefix_length_le (h₂.trans h) h₁ (by simp)
        obtain ⟨t, ht⟩ := this
        simp at ht

section Lookup

theorem mem_of_lookup {l : List (Symbol × List Bool)} {k : Symbol} {c : List Bool} (h : l.lookup k = some c) :
    (k, c) ∈ l := by
  induction l with
  | nil => simp at h
  | cons x l ih =>
    obtain ⟨j, d⟩ := x
    rw [List.lookup_cons] at h
    split at h
    · rename_i he
      simp only [Option.some.injEq] at h
      have : k = j := by simpa using he
      simp [this, h]
    · exact List.mem_cons_of_mem _ (ih h)

theorem lookup_none {l : List (Symbol × List Bool)} {k : Symbol} (h : l.lookup k = none) (c : List Bool) :
    (k, c) ∉ l := by
  induction l with
  | nil => simp
  | cons x l ih =>
    obtain ⟨j, d⟩ := x
    rw [List.lookup_cons] at h
    split at h
    · simp at h
    · rename_i he
      simp only [List.mem_cons, Prod.mk.injEq, not_or, not_and]
      exact ⟨fun e => by simp [e] at he, ih h⟩

/-- When a list gives a symbol one code only, that is the code it has. -/
theorem codeIn_eq {l : List (Symbol × List Bool)} {k : Symbol} {c : List Bool} (hm : (k, c) ∈ l)
    (hu : ∀ d, (k, d) ∈ l → d = c) : codeIn l k = c := by
  rw [codeIn]
  cases h : l.lookup k with
  | none => exact absurd hm (lookup_none h c)
  | some d => exact hu d (mem_of_lookup h)

theorem codeIn_eq_nil {l : List (Symbol × List Bool)} {k : Symbol} (h : ∀ d, (k, d) ∉ l) : codeIn l k = [] := by
  rw [codeIn]
  cases h' : l.lookup k with
  | none => rfl
  | some d => exact absurd (mem_of_lookup h') (h d)

end Lookup

section BuiltCodes
variable {seed nodes : List NodeRec} (hb : BuiltOk seed nodes)
  (hinj : ∀ m n, m < seed.length → n < seed.length → (nodeAt seed m).sym = (nodeAt seed n).sym → m = n)
include hb

/-- R101: with two or more leaves, the recorded codes are exactly the paths to the leaves. -/
theorem BuiltOk.mem_codesOf (h2 : 2 ≤ seed.length) (k : Symbol) (c : List Bool) :
    (k, c) ∈ codesOf nodes (nodes.length - 1) ↔
      ∃ m < seed.length, (nodeAt nodes m).sym = k ∧ pathEndIn nodes (nodes.length - 1) c = some m := by
  have hlen := hb.length
  rw [codesOf, if_neg (by omega)]
  constructor
  · intro h
    obtain ⟨q, m, rfl, h₁, h₂, h₃⟩ := walk_sound h
    have hm := hb.pathEndIn_le (by omega) h₁
    rw [hb.isLeaf (by omega)] at h₂
    exact ⟨m, by simpa using h₂, h₃, by simpa using h₁⟩
  · rintro ⟨m, hm, rfl, h⟩
    have := hb.walk_complete (fuel := nodes.length) (p := []) (by omega) (by omega) h
      (by rw [hb.isLeaf (by omega)]; simpa using hm)
    simpa using this

include hinj

/-- R101: the code of a leaf's symbol is the path to the leaf. -/
theorem BuiltOk.path_code (h2 : 2 ≤ seed.length) {m : Nat} (hm : m < seed.length) :
    pathEndIn nodes (nodes.length - 1) (codeIn (codesOf nodes (nodes.length - 1)) (nodeAt nodes m).sym) = some m := by
  have hlen := hb.length
  obtain ⟨p, hp⟩ := hb.exists_path (m := m) (by omega)
  rw [codeIn_eq ((hb.mem_codesOf h2 _ p).2 ⟨m, hm, rfl, hp⟩) fun d hd => ?_]
  · exact hp
  · obtain ⟨m', hm', hs, hd'⟩ := (hb.mem_codesOf h2 _ d).1 hd
    rw [hb.leaves m' hm', hb.leaves m hm] at hs
    obtain rfl := hinj _ _ hm' hm hs
    exact hb.path_unique hd' hp

omit hinj in
/-- R101: a symbol that no leaf holds has no code. -/
theorem BuiltOk.code_of_absent {k : Symbol} (h : ∀ m < seed.length, (nodeAt seed m).sym ≠ k) :
    codeIn (codesOf nodes (nodes.length - 1)) k = [] := by
  have hpos := hb.pos
  apply codeIn_eq_nil
  intro d hd
  by_cases h2 : 2 ≤ seed.length
  · obtain ⟨m, hm, hs, -⟩ := (hb.mem_codesOf h2 k d).1 hd
    rw [hb.leaves m hm] at hs
    exact h m hm hs
  · have hlen := hb.length
    rw [codesOf, if_pos (by omega)] at hd
    simp only [List.mem_singleton, Prod.mk.injEq] at hd
    rw [hb.leaves 0 hpos] at hd
    exact h 0 hpos hd.1.symm

omit hinj in
/-- R102: the code of the one symbol of a single-leaf tree. -/
theorem BuiltOk.code_single (h1 : seed.length = 1) :
    codeIn (codesOf nodes (nodes.length - 1)) (nodeAt seed 0).sym = [false] := by
  have hlen := hb.length
  rw [codesOf, if_pos (by omega), ← hb.leaves 0 (by omega)]
  simp [codeIn]

/-- R100: the length of a code. -/
theorem BuiltOk.length_code (h2 : 2 ≤ seed.length) {m : Nat} (hm : m < seed.length) :
    1 ≤ (codeIn (codesOf nodes (nodes.length - 1)) (nodeAt nodes m).sym).length ∧
      (codeIn (codesOf nodes (nodes.length - 1)) (nodeAt nodes m).sym).length ≤ seed.length - 1 := by
  have hlen := hb.length
  have hp := hb.path_code hinj h2 hm
  have hne : codeIn (codesOf nodes (nodes.length - 1)) (nodeAt nodes m).sym ≠ [] := by
    intro e
    rw [e] at hp
    simp only [pathEndIn, Option.some.injEq] at hp
    omega
  refine ⟨List.length_pos_iff.2 hne, ?_⟩
  rcases hb.length_path_le (by omega) hp with h | h
  · omega
  · exact absurd h hne

end BuiltCodes

end Sys2Proof.Machine
end

