-- ==== Sys2Proof/Laws/State.lean ====
section
/-! SUPPORT. One lemma per part of the state and named update, all by rfl, so that no proof unfolds a record update;
and what the reads of the memories give after each. -/

namespace Sys2Proof.Machine

variable (s : State)

@[simp] theorem State.raise_cmd (c : ErrCode) (i : Word) : (s.raise c i).cmd = s.cmd := rfl
@[simp] theorem State.raise_tree (c : ErrCode) (i : Word) : (s.raise c i).tree = s.tree := rfl
@[simp] theorem State.raise_dec (c : ErrCode) (i : Word) : (s.raise c i).dec = s.dec := rfl
@[simp] theorem State.raise_ptr (c : ErrCode) (i : Word) : (s.raise c i).ptr = s.ptr := rfl
@[simp] theorem State.raise_error (c : ErrCode) (i : Word) : (s.raise c i).error = ⟨true, c, i, s.error.dropped⟩ := rfl
@[simp] theorem State.raise_irq (c : ErrCode) (i : Word) : (s.raise c i).irq = s.irq := rfl
@[simp] theorem State.raise_mem (c : ErrCode) (i : Word) : (s.raise c i).mem = s.mem := rfl
@[simp] theorem State.raise_params (c : ErrCode) (i : Word) : (s.raise c i).params = s.params := rfl
@[simp] theorem State.raise_env (c : ErrCode) (i : Word) : (s.raise c i).env = s.env := rfl
@[simp] theorem State.raise_freqRead (c : ErrCode) (i : Word) (k' : Symbol) : (s.raise c i).freqRead k' = s.freqRead k' := rfl
@[simp] theorem State.raise_nodeRead (c : ErrCode) (i : Word) (n' : Nat) : (s.raise c i).nodeRead n' = s.nodeRead n' := rfl
@[simp] theorem State.raise_codeRead (c : ErrCode) (i : Word) (k' : Symbol) : (s.raise c i).codeRead k' = s.codeRead k' := rfl
@[simp] theorem State.raise_bitRead (c : ErrCode) (i : Word) (j' : Nat) : (s.raise c i).bitRead j' = s.bitRead j' := rfl
@[simp] theorem State.raise_bitmemBits (c : ErrCode) (i : Word) : (s.raise c i).bitmemBits = s.bitmemBits := rfl

@[simp] theorem State.clearError_cmd : (s.clearError).cmd = s.cmd := rfl
@[simp] theorem State.clearError_tree : (s.clearError).tree = s.tree := rfl
@[simp] theorem State.clearError_dec : (s.clearError).dec = s.dec := rfl
@[simp] theorem State.clearError_ptr : (s.clearError).ptr = s.ptr := rfl
@[simp] theorem State.clearError_error : (s.clearError).error = .reset := rfl
@[simp] theorem State.clearError_irq : (s.clearError).irq = s.irq := rfl
@[simp] theorem State.clearError_mem : (s.clearError).mem = s.mem := rfl
@[simp] theorem State.clearError_params : (s.clearError).params = s.params := rfl
@[simp] theorem State.clearError_env : (s.clearError).env = s.env := rfl
@[simp] theorem State.clearError_freqRead (k' : Symbol) : (s.clearError).freqRead k' = s.freqRead k' := rfl
@[simp] theorem State.clearError_nodeRead (n' : Nat) : (s.clearError).nodeRead n' = s.nodeRead n' := rfl
@[simp] theorem State.clearError_codeRead (k' : Symbol) : (s.clearError).codeRead k' = s.codeRead k' := rfl
@[simp] theorem State.clearError_bitRead (j' : Nat) : (s.clearError).bitRead j' = s.bitRead j' := rfl
@[simp] theorem State.clearError_bitmemBits : (s.clearError).bitmemBits = s.bitmemBits := rfl

@[simp] theorem State.complete_cmd : (s.complete).cmd = ⟨false, 0, s.cmd.lastCmd⟩ := rfl
@[simp] theorem State.complete_tree : (s.complete).tree = s.tree := rfl
@[simp] theorem State.complete_dec : (s.complete).dec = s.dec := rfl
@[simp] theorem State.complete_ptr : (s.complete).ptr = s.ptr := rfl
@[simp] theorem State.complete_error : (s.complete).error = s.error := rfl
@[simp] theorem State.complete_irq : (s.complete).irq = ⟨true, s.irq.doneIe, s.irq.errIe⟩ := rfl
@[simp] theorem State.complete_mem : (s.complete).mem = s.mem := rfl
@[simp] theorem State.complete_params : (s.complete).params = s.params := rfl
@[simp] theorem State.complete_env : (s.complete).env = s.env := rfl
@[simp] theorem State.complete_freqRead (k' : Symbol) : (s.complete).freqRead k' = s.freqRead k' := rfl
@[simp] theorem State.complete_nodeRead (n' : Nat) : (s.complete).nodeRead n' = s.nodeRead n' := rfl
@[simp] theorem State.complete_codeRead (k' : Symbol) : (s.complete).codeRead k' = s.codeRead k' := rfl
@[simp] theorem State.complete_bitRead (j' : Nat) : (s.complete).bitRead j' = s.bitRead j' := rfl
@[simp] theorem State.complete_bitmemBits : (s.complete).bitmemBits = s.bitmemBits := rfl

@[simp] theorem State.drop_cmd : (s.drop).cmd = s.cmd := rfl
@[simp] theorem State.drop_tree : (s.drop).tree = s.tree := rfl
@[simp] theorem State.drop_dec : (s.drop).dec = s.dec := rfl
@[simp] theorem State.drop_ptr : (s.drop).ptr = s.ptr := rfl
@[simp] theorem State.drop_error : (s.drop).error = ⟨s.error.err, s.error.code, s.error.info, true⟩ := rfl
@[simp] theorem State.drop_irq : (s.drop).irq = s.irq := rfl
@[simp] theorem State.drop_mem : (s.drop).mem = s.mem := rfl
@[simp] theorem State.drop_params : (s.drop).params = s.params := rfl
@[simp] theorem State.drop_env : (s.drop).env = s.env := rfl
@[simp] theorem State.drop_freqRead (k' : Symbol) : (s.drop).freqRead k' = s.freqRead k' := rfl
@[simp] theorem State.drop_nodeRead (n' : Nat) : (s.drop).nodeRead n' = s.nodeRead n' := rfl
@[simp] theorem State.drop_codeRead (k' : Symbol) : (s.drop).codeRead k' = s.codeRead k' := rfl
@[simp] theorem State.drop_bitRead (j' : Nat) : (s.drop).bitRead j' = s.bitRead j' := rfl
@[simp] theorem State.drop_bitmemBits : (s.drop).bitmemBits = s.bitmemBits := rfl

@[simp] theorem State.softReset_cmd : (s.softReset).cmd = ⟨s.cmd.busy, s.cmd.pending, 0⟩ := rfl
@[simp] theorem State.softReset_tree : (s.softReset).tree = .reset := rfl
@[simp] theorem State.softReset_dec : (s.softReset).dec = .reset := rfl
@[simp] theorem State.softReset_ptr : (s.softReset).ptr = .reset := rfl
@[simp] theorem State.softReset_error : (s.softReset).error = .reset := rfl
@[simp] theorem State.softReset_irq : (s.softReset).irq = ⟨false, s.irq.doneIe, s.irq.errIe⟩ := rfl
@[simp] theorem State.softReset_mem : (s.softReset).mem = s.mem := rfl
@[simp] theorem State.softReset_params : (s.softReset).params = s.params := rfl
@[simp] theorem State.softReset_env : (s.softReset).env = s.env := rfl
@[simp] theorem State.softReset_freqRead (k' : Symbol) : (s.softReset).freqRead k' = s.freqRead k' := rfl
@[simp] theorem State.softReset_nodeRead (n' : Nat) : (s.softReset).nodeRead n' = s.nodeRead n' := rfl
@[simp] theorem State.softReset_codeRead (k' : Symbol) : (s.softReset).codeRead k' = s.codeRead k' := rfl
@[simp] theorem State.softReset_bitRead (j' : Nat) : (s.softReset).bitRead j' = s.bitRead j' := rfl
@[simp] theorem State.softReset_bitmemBits : (s.softReset).bitmemBits = s.bitmemBits := rfl

@[simp] theorem State.freqWrite_cmd (k : Symbol) (v : Word) : (s.freqWrite k v).cmd = s.cmd := rfl
@[simp] theorem State.freqWrite_tree (k : Symbol) (v : Word) : (s.freqWrite k v).tree = s.tree := rfl
@[simp] theorem State.freqWrite_dec (k : Symbol) (v : Word) : (s.freqWrite k v).dec = s.dec := rfl
@[simp] theorem State.freqWrite_ptr (k : Symbol) (v : Word) : (s.freqWrite k v).ptr = s.ptr := rfl
@[simp] theorem State.freqWrite_error (k : Symbol) (v : Word) : (s.freqWrite k v).error = s.error := rfl
@[simp] theorem State.freqWrite_irq (k : Symbol) (v : Word) : (s.freqWrite k v).irq = s.irq := rfl
@[simp] theorem State.freqWrite_mem (k : Symbol) (v : Word) : (s.freqWrite k v).mem = ⟨s.mem.freq.write k.toNat v, s.mem.node, s.mem.code, s.mem.bitmem⟩ := rfl
@[simp] theorem State.freqWrite_params (k : Symbol) (v : Word) : (s.freqWrite k v).params = s.params := rfl
@[simp] theorem State.freqWrite_env (k : Symbol) (v : Word) : (s.freqWrite k v).env = s.env := rfl
@[simp] theorem State.freqWrite_nodeRead (k : Symbol) (v : Word) (n' : Nat) : (s.freqWrite k v).nodeRead n' = s.nodeRead n' := rfl
@[simp] theorem State.freqWrite_codeRead (k : Symbol) (v : Word) (k' : Symbol) : (s.freqWrite k v).codeRead k' = s.codeRead k' := rfl
@[simp] theorem State.freqWrite_bitRead (k : Symbol) (v : Word) (j' : Nat) : (s.freqWrite k v).bitRead j' = s.bitRead j' := rfl
@[simp] theorem State.freqWrite_bitmemBits (k : Symbol) (v : Word) : (s.freqWrite k v).bitmemBits = s.bitmemBits := rfl

@[simp] theorem State.freqClear_cmd : (s.freqClear).cmd = s.cmd := rfl
@[simp] theorem State.freqClear_tree : (s.freqClear).tree = s.tree := rfl
@[simp] theorem State.freqClear_dec : (s.freqClear).dec = s.dec := rfl
@[simp] theorem State.freqClear_ptr : (s.freqClear).ptr = s.ptr := rfl
@[simp] theorem State.freqClear_error : (s.freqClear).error = s.error := rfl
@[simp] theorem State.freqClear_irq : (s.freqClear).irq = s.irq := rfl
@[simp] theorem State.freqClear_mem : (s.freqClear).mem = ⟨s.mem.freq.writeFrom 0 zeroCounts, s.mem.node, s.mem.code, s.mem.bitmem⟩ := rfl
@[simp] theorem State.freqClear_params : (s.freqClear).params = s.params := rfl
@[simp] theorem State.freqClear_env : (s.freqClear).env = s.env := rfl
@[simp] theorem State.freqClear_nodeRead (n' : Nat) : (s.freqClear).nodeRead n' = s.nodeRead n' := rfl
@[simp] theorem State.freqClear_codeRead (k' : Symbol) : (s.freqClear).codeRead k' = s.codeRead k' := rfl
@[simp] theorem State.freqClear_bitRead (j' : Nat) : (s.freqClear).bitRead j' = s.bitRead j' := rfl
@[simp] theorem State.freqClear_bitmemBits : (s.freqClear).bitmemBits = s.bitmemBits := rfl

@[simp] theorem State.bitWriteFrom_cmd (k : Nat) (bs : List Bool) : (s.bitWriteFrom k bs).cmd = s.cmd := rfl
@[simp] theorem State.bitWriteFrom_tree (k : Nat) (bs : List Bool) : (s.bitWriteFrom k bs).tree = s.tree := rfl
@[simp] theorem State.bitWriteFrom_dec (k : Nat) (bs : List Bool) : (s.bitWriteFrom k bs).dec = s.dec := rfl
@[simp] theorem State.bitWriteFrom_ptr (k : Nat) (bs : List Bool) : (s.bitWriteFrom k bs).ptr = s.ptr := rfl
@[simp] theorem State.bitWriteFrom_error (k : Nat) (bs : List Bool) : (s.bitWriteFrom k bs).error = s.error := rfl
@[simp] theorem State.bitWriteFrom_irq (k : Nat) (bs : List Bool) : (s.bitWriteFrom k bs).irq = s.irq := rfl
@[simp] theorem State.bitWriteFrom_mem (k : Nat) (bs : List Bool) : (s.bitWriteFrom k bs).mem = ⟨s.mem.freq, s.mem.node, s.mem.code, s.mem.bitmem.writeFrom k bs⟩ := rfl
@[simp] theorem State.bitWriteFrom_params (k : Nat) (bs : List Bool) : (s.bitWriteFrom k bs).params = s.params := rfl
@[simp] theorem State.bitWriteFrom_env (k : Nat) (bs : List Bool) : (s.bitWriteFrom k bs).env = s.env := rfl
@[simp] theorem State.bitWriteFrom_freqRead (k : Nat) (bs : List Bool) (k' : Symbol) : (s.bitWriteFrom k bs).freqRead k' = s.freqRead k' := rfl
@[simp] theorem State.bitWriteFrom_nodeRead (k : Nat) (bs : List Bool) (n' : Nat) : (s.bitWriteFrom k bs).nodeRead n' = s.nodeRead n' := rfl
@[simp] theorem State.bitWriteFrom_codeRead (k : Nat) (bs : List Bool) (k' : Symbol) : (s.bitWriteFrom k bs).codeRead k' = s.codeRead k' := rfl
@[simp] theorem State.bitWriteFrom_bitmemBits (k : Nat) (bs : List Bool) : (s.bitWriteFrom k bs).bitmemBits = s.bitmemBits := rfl

@[simp] theorem State.commitBuild_cmd : (s.commitBuild).cmd = s.cmd := rfl
@[simp] theorem State.commitBuild_tree : (s.commitBuild).tree = ⟨true, BitVec.ofNat 9 (seedSymbols s.freqRead).length, BitVec.ofNat 9 (builtRoot s.freqRead)⟩ := rfl
@[simp] theorem State.commitBuild_dec : (s.commitBuild).dec = ⟨BitVec.ofNat 9 (builtRoot s.freqRead), false, s.dec.result⟩ := rfl
@[simp] theorem State.commitBuild_ptr : (s.commitBuild).ptr = s.ptr := rfl
@[simp] theorem State.commitBuild_error : (s.commitBuild).error = s.error := rfl
@[simp] theorem State.commitBuild_irq : (s.commitBuild).irq = s.irq := rfl
@[simp] theorem State.commitBuild_mem : (s.commitBuild).mem = ⟨s.mem.freq, s.mem.node.writeFrom 0 (builtNodes s.freqRead), s.mem.code.writeFrom 0 (builtTable s.freqRead),
      s.mem.bitmem⟩ := rfl
@[simp] theorem State.commitBuild_params : (s.commitBuild).params = s.params := rfl
@[simp] theorem State.commitBuild_env : (s.commitBuild).env = s.env := rfl
@[simp] theorem State.commitBuild_freqRead (k' : Symbol) : (s.commitBuild).freqRead k' = s.freqRead k' := rfl
@[simp] theorem State.commitBuild_bitRead (j' : Nat) : (s.commitBuild).bitRead j' = s.bitRead j' := rfl
@[simp] theorem State.commitBuild_bitmemBits : (s.commitBuild).bitmemBits = s.bitmemBits := rfl

@[simp] theorem State.emit_cmd (c : CodeEntry) : (s.emit c).cmd = s.cmd := rfl
@[simp] theorem State.emit_tree (c : CodeEntry) : (s.emit c).tree = s.tree := rfl
@[simp] theorem State.emit_dec (c : CodeEntry) : (s.emit c).dec = s.dec := rfl
@[simp] theorem State.emit_ptr (c : CodeEntry) : (s.emit c).ptr = ⟨BitVec.ofNat 19 (s.ptr.encPtr.toNat + c.len.toNat), s.ptr.decPtr, s.ptr.decEnd, c.len⟩ := rfl
@[simp] theorem State.emit_error (c : CodeEntry) : (s.emit c).error = s.error := rfl
@[simp] theorem State.emit_irq (c : CodeEntry) : (s.emit c).irq = s.irq := rfl
@[simp] theorem State.emit_mem (c : CodeEntry) : (s.emit c).mem = ⟨s.mem.freq, s.mem.node, s.mem.code, s.mem.bitmem.writeFrom s.ptr.encPtr.toNat c.code⟩ := rfl
@[simp] theorem State.emit_params (c : CodeEntry) : (s.emit c).params = s.params := rfl
@[simp] theorem State.emit_env (c : CodeEntry) : (s.emit c).env = s.env := rfl
@[simp] theorem State.emit_freqRead (c : CodeEntry) (k' : Symbol) : (s.emit c).freqRead k' = s.freqRead k' := rfl
@[simp] theorem State.emit_nodeRead (c : CodeEntry) (n' : Nat) : (s.emit c).nodeRead n' = s.nodeRead n' := rfl
@[simp] theorem State.emit_codeRead (c : CodeEntry) (k' : Symbol) : (s.emit c).codeRead k' = s.codeRead k' := rfl
@[simp] theorem State.emit_bitmemBits (c : CodeEntry) : (s.emit c).bitmemBits = s.bitmemBits := rfl

@[simp] theorem State.moveCursor_cmd (n : NodeIdx) : (s.moveCursor n).cmd = s.cmd := rfl
@[simp] theorem State.moveCursor_tree (n : NodeIdx) : (s.moveCursor n).tree = s.tree := rfl
@[simp] theorem State.moveCursor_dec (n : NodeIdx) : (s.moveCursor n).dec = ⟨n, false, s.dec.result⟩ := rfl
@[simp] theorem State.moveCursor_ptr (n : NodeIdx) : (s.moveCursor n).ptr = s.ptr := rfl
@[simp] theorem State.moveCursor_error (n : NodeIdx) : (s.moveCursor n).error = s.error := rfl
@[simp] theorem State.moveCursor_irq (n : NodeIdx) : (s.moveCursor n).irq = s.irq := rfl
@[simp] theorem State.moveCursor_mem (n : NodeIdx) : (s.moveCursor n).mem = s.mem := rfl
@[simp] theorem State.moveCursor_params (n : NodeIdx) : (s.moveCursor n).params = s.params := rfl
@[simp] theorem State.moveCursor_env (n : NodeIdx) : (s.moveCursor n).env = s.env := rfl
@[simp] theorem State.moveCursor_freqRead (n : NodeIdx) (k' : Symbol) : (s.moveCursor n).freqRead k' = s.freqRead k' := rfl
@[simp] theorem State.moveCursor_nodeRead (n : NodeIdx) (n' : Nat) : (s.moveCursor n).nodeRead n' = s.nodeRead n' := rfl
@[simp] theorem State.moveCursor_codeRead (n : NodeIdx) (k' : Symbol) : (s.moveCursor n).codeRead k' = s.codeRead k' := rfl
@[simp] theorem State.moveCursor_bitRead (n : NodeIdx) (j' : Nat) : (s.moveCursor n).bitRead j' = s.bitRead j' := rfl
@[simp] theorem State.moveCursor_bitmemBits (n : NodeIdx) : (s.moveCursor n).bitmemBits = s.bitmemBits := rfl

@[simp] theorem State.emitSymbol_cmd (k : Symbol) : (s.emitSymbol k).cmd = s.cmd := rfl
@[simp] theorem State.emitSymbol_tree (k : Symbol) : (s.emitSymbol k).tree = s.tree := rfl
@[simp] theorem State.emitSymbol_dec (k : Symbol) : (s.emitSymbol k).dec = ⟨s.tree.root, true, k⟩ := rfl
@[simp] theorem State.emitSymbol_ptr (k : Symbol) : (s.emitSymbol k).ptr = s.ptr := rfl
@[simp] theorem State.emitSymbol_error (k : Symbol) : (s.emitSymbol k).error = s.error := rfl
@[simp] theorem State.emitSymbol_irq (k : Symbol) : (s.emitSymbol k).irq = s.irq := rfl
@[simp] theorem State.emitSymbol_mem (k : Symbol) : (s.emitSymbol k).mem = s.mem := rfl
@[simp] theorem State.emitSymbol_params (k : Symbol) : (s.emitSymbol k).params = s.params := rfl
@[simp] theorem State.emitSymbol_env (k : Symbol) : (s.emitSymbol k).env = s.env := rfl
@[simp] theorem State.emitSymbol_freqRead (k : Symbol) (k' : Symbol) : (s.emitSymbol k).freqRead k' = s.freqRead k' := rfl
@[simp] theorem State.emitSymbol_nodeRead (k : Symbol) (n' : Nat) : (s.emitSymbol k).nodeRead n' = s.nodeRead n' := rfl
@[simp] theorem State.emitSymbol_codeRead (k : Symbol) (k' : Symbol) : (s.emitSymbol k).codeRead k' = s.codeRead k' := rfl
@[simp] theorem State.emitSymbol_bitRead (k : Symbol) (j' : Nat) : (s.emitSymbol k).bitRead j' = s.bitRead j' := rfl
@[simp] theorem State.emitSymbol_bitmemBits (k : Symbol) : (s.emitSymbol k).bitmemBits = s.bitmemBits := rfl

@[simp] theorem State.commitSymbol_cmd (k : Symbol) (p : Nat) : (s.commitSymbol k p).cmd = s.cmd := rfl
@[simp] theorem State.commitSymbol_tree (k : Symbol) (p : Nat) : (s.commitSymbol k p).tree = s.tree := rfl
@[simp] theorem State.commitSymbol_dec (k : Symbol) (p : Nat) : (s.commitSymbol k p).dec = ⟨s.tree.root, true, k⟩ := rfl
@[simp] theorem State.commitSymbol_ptr (k : Symbol) (p : Nat) : (s.commitSymbol k p).ptr = ⟨s.ptr.encPtr, BitVec.ofNat 19 p, s.ptr.decEnd, s.ptr.lastLen⟩ := rfl
@[simp] theorem State.commitSymbol_error (k : Symbol) (p : Nat) : (s.commitSymbol k p).error = s.error := rfl
@[simp] theorem State.commitSymbol_irq (k : Symbol) (p : Nat) : (s.commitSymbol k p).irq = s.irq := rfl
@[simp] theorem State.commitSymbol_mem (k : Symbol) (p : Nat) : (s.commitSymbol k p).mem = s.mem := rfl
@[simp] theorem State.commitSymbol_params (k : Symbol) (p : Nat) : (s.commitSymbol k p).params = s.params := rfl
@[simp] theorem State.commitSymbol_env (k : Symbol) (p : Nat) : (s.commitSymbol k p).env = s.env := rfl
@[simp] theorem State.commitSymbol_freqRead (k : Symbol) (p : Nat) (k' : Symbol) : (s.commitSymbol k p).freqRead k' = s.freqRead k' := rfl
@[simp] theorem State.commitSymbol_nodeRead (k : Symbol) (p : Nat) (n' : Nat) : (s.commitSymbol k p).nodeRead n' = s.nodeRead n' := rfl
@[simp] theorem State.commitSymbol_codeRead (k : Symbol) (p : Nat) (k' : Symbol) : (s.commitSymbol k p).codeRead k' = s.codeRead k' := rfl
@[simp] theorem State.commitSymbol_bitRead (k : Symbol) (p : Nat) (j' : Nat) : (s.commitSymbol k p).bitRead j' = s.bitRead j' := rfl
@[simp] theorem State.commitSymbol_bitmemBits (k : Symbol) (p : Nat) : (s.commitSymbol k p).bitmemBits = s.bitmemBits := rfl

@[simp] theorem State.drawn_cmd : (s.drawn).cmd = s.cmd := rfl
@[simp] theorem State.drawn_tree : (s.drawn).tree = s.tree := rfl
@[simp] theorem State.drawn_dec : (s.drawn).dec = s.dec := rfl
@[simp] theorem State.drawn_ptr : (s.drawn).ptr = s.ptr := rfl
@[simp] theorem State.drawn_error : (s.drawn).error = s.error := rfl
@[simp] theorem State.drawn_irq : (s.drawn).irq = s.irq := rfl
@[simp] theorem State.drawn_mem : (s.drawn).mem = s.mem := rfl
@[simp] theorem State.drawn_params : (s.drawn).params = s.params := rfl
@[simp] theorem State.drawn_env : (s.drawn).env = ⟨s.env.host, s.env.turns, s.env.resp, s.env.draws + 1, s.env.epoch⟩ := rfl
@[simp] theorem State.drawn_freqRead (k' : Symbol) : (s.drawn).freqRead k' = s.freqRead k' := rfl
@[simp] theorem State.drawn_nodeRead (n' : Nat) : (s.drawn).nodeRead n' = s.nodeRead n' := rfl
@[simp] theorem State.drawn_codeRead (k' : Symbol) : (s.drawn).codeRead k' = s.codeRead k' := rfl
@[simp] theorem State.drawn_bitRead (j' : Nat) : (s.drawn).bitRead j' = s.bitRead j' := rfl
@[simp] theorem State.drawn_bitmemBits : (s.drawn).bitmemBits = s.bitmemBits := rfl

@[simp] theorem State.turnTaken_cmd : (s.turnTaken).cmd = s.cmd := rfl
@[simp] theorem State.turnTaken_tree : (s.turnTaken).tree = s.tree := rfl
@[simp] theorem State.turnTaken_dec : (s.turnTaken).dec = s.dec := rfl
@[simp] theorem State.turnTaken_ptr : (s.turnTaken).ptr = s.ptr := rfl
@[simp] theorem State.turnTaken_error : (s.turnTaken).error = s.error := rfl
@[simp] theorem State.turnTaken_irq : (s.turnTaken).irq = s.irq := rfl
@[simp] theorem State.turnTaken_mem : (s.turnTaken).mem = s.mem := rfl
@[simp] theorem State.turnTaken_params : (s.turnTaken).params = s.params := rfl
@[simp] theorem State.turnTaken_env : (s.turnTaken).env = ⟨s.env.host, s.env.turns.tail, s.env.resp, s.env.draws, s.env.epoch⟩ := rfl
@[simp] theorem State.turnTaken_freqRead (k' : Symbol) : (s.turnTaken).freqRead k' = s.freqRead k' := rfl
@[simp] theorem State.turnTaken_nodeRead (n' : Nat) : (s.turnTaken).nodeRead n' = s.nodeRead n' := rfl
@[simp] theorem State.turnTaken_codeRead (k' : Symbol) : (s.turnTaken).codeRead k' = s.codeRead k' := rfl
@[simp] theorem State.turnTaken_bitRead (j' : Nat) : (s.turnTaken).bitRead j' = s.bitRead j' := rfl
@[simp] theorem State.turnTaken_bitmemBits : (s.turnTaken).bitmemBits = s.bitmemBits := rfl

@[simp] theorem State.nextInput_cmd : (s.nextInput).cmd = s.cmd := rfl
@[simp] theorem State.nextInput_tree : (s.nextInput).tree = s.tree := rfl
@[simp] theorem State.nextInput_dec : (s.nextInput).dec = s.dec := rfl
@[simp] theorem State.nextInput_ptr : (s.nextInput).ptr = s.ptr := rfl
@[simp] theorem State.nextInput_error : (s.nextInput).error = s.error := rfl
@[simp] theorem State.nextInput_irq : (s.nextInput).irq = s.irq := rfl
@[simp] theorem State.nextInput_mem : (s.nextInput).mem = s.mem := rfl
@[simp] theorem State.nextInput_params : (s.nextInput).params = s.params := rfl
@[simp] theorem State.nextInput_env : (s.nextInput).env = ⟨s.env.host.tail, s.env.turns, s.env.resp, s.env.draws, s.env.epoch⟩ := rfl
@[simp] theorem State.nextInput_freqRead (k' : Symbol) : (s.nextInput).freqRead k' = s.freqRead k' := rfl
@[simp] theorem State.nextInput_nodeRead (n' : Nat) : (s.nextInput).nodeRead n' = s.nodeRead n' := rfl
@[simp] theorem State.nextInput_codeRead (k' : Symbol) : (s.nextInput).codeRead k' = s.codeRead k' := rfl
@[simp] theorem State.nextInput_bitRead (j' : Nat) : (s.nextInput).bitRead j' = s.bitRead j' := rfl
@[simp] theorem State.nextInput_bitmemBits : (s.nextInput).bitmemBits = s.bitmemBits := rfl

@[simp] theorem State.hardReset_cmd : (s.hardReset).cmd = .reset := rfl
@[simp] theorem State.hardReset_tree : (s.hardReset).tree = .reset := rfl
@[simp] theorem State.hardReset_dec : (s.hardReset).dec = .reset := rfl
@[simp] theorem State.hardReset_ptr : (s.hardReset).ptr = .reset := rfl
@[simp] theorem State.hardReset_error : (s.hardReset).error = .reset := rfl
@[simp] theorem State.hardReset_irq : (s.hardReset).irq = .reset := rfl
@[simp] theorem State.hardReset_mem : (s.hardReset).mem = .reset := rfl
@[simp] theorem State.hardReset_params : (s.hardReset).params = s.params := rfl
@[simp] theorem State.hardReset_env : (s.hardReset).env = ⟨s.env.host, s.env.turns, none, s.env.draws, s.env.epoch + 1⟩ := rfl
@[simp] theorem State.hardReset_bitmemBits : (s.hardReset).bitmemBits = s.bitmemBits := rfl

@[simp] theorem State.answered_cmd (r : BusResponse) : (State.answered (r, s)).cmd = s.cmd := rfl
@[simp] theorem State.answered_tree (r : BusResponse) : (State.answered (r, s)).tree = s.tree := rfl
@[simp] theorem State.answered_dec (r : BusResponse) : (State.answered (r, s)).dec = s.dec := rfl
@[simp] theorem State.answered_ptr (r : BusResponse) : (State.answered (r, s)).ptr = s.ptr := rfl
@[simp] theorem State.answered_error (r : BusResponse) : (State.answered (r, s)).error = s.error := rfl
@[simp] theorem State.answered_irq (r : BusResponse) : (State.answered (r, s)).irq = s.irq := rfl
@[simp] theorem State.answered_mem (r : BusResponse) : (State.answered (r, s)).mem = s.mem := rfl
@[simp] theorem State.answered_params (r : BusResponse) : (State.answered (r, s)).params = s.params := rfl
@[simp] theorem State.answered_env (r : BusResponse) : (State.answered (r, s)).env = ⟨s.env.host, s.env.turns, some r, s.env.draws, s.env.epoch⟩ := rfl
@[simp] theorem State.answered_freqRead (r : BusResponse) (k' : Symbol) : (State.answered (r, s)).freqRead k' = s.freqRead k' := rfl
@[simp] theorem State.answered_nodeRead (r : BusResponse) (n' : Nat) : (State.answered (r, s)).nodeRead n' = s.nodeRead n' := rfl
@[simp] theorem State.answered_codeRead (r : BusResponse) (k' : Symbol) : (State.answered (r, s)).codeRead k' = s.codeRead k' := rfl
@[simp] theorem State.answered_bitRead (r : BusResponse) (j' : Nat) : (State.answered (r, s)).bitRead j' = s.bitRead j' := rfl
@[simp] theorem State.answered_bitmemBits (r : BusResponse) : (State.answered (r, s)).bitmemBits = s.bitmemBits := rfl

end Sys2Proof.Machine
end

