-- ==== Sys2Proof/Laws/Build.lean ====
section
/-! SUPPORT. What a successful BUILD leaves (41_tree_builder.md R92, R98, R103): the seed of a frequency table, the node
and code memories after the commit, and the tree and code invariants of the state it commits. -/

namespace Sys2Proof.Machine

section Seed
variable (freq : Symbol → Word)

theorem allSymbols_pairwise : allSymbols.Pairwise fun a b => a.toNat < b.toNat := by decide +kernel

theorem mem_allSymbols (k : Symbol) : k ∈ allSymbols := by
  simp only [allSymbols, List.mem_map, List.mem_range]
  exact ⟨k.toNat, k.isLt, by simp⟩

theorem seedSymbols_eq : seedSymbols freq = allSymbols.filter fun k => freq k ≠ 0 := rfl

theorem mem_seedSymbols (k : Symbol) : k ∈ seedSymbols freq ↔ freq k ≠ 0 := by
  simp [seedSymbols_eq, mem_allSymbols]

/-- R92: the seed is in ascending symbol order. -/
theorem seedSymbols_pairwise : (seedSymbols freq).Pairwise fun a b => a.toNat < b.toNat :=
  allSymbols_pairwise.filter _

theorem seedSymbols_lt {m n : Nat} (hmn : m < n) (hn : n < (seedSymbols freq).length) :
    ((seedSymbols freq)[m]).toNat < ((seedSymbols freq)[n]).toNat :=
  List.pairwise_iff_getElem.1 (seedSymbols_pairwise freq) m n (by omega) hn hmn

theorem length_seedSymbols_le : (seedSymbols freq).length ≤ 256 := by
  have := List.length_filter_le (fun k => decide (freq k ≠ 0)) allSymbols
  simpa [seedSymbols_eq, allSymbols] using this

@[simp] theorem length_seedNodes : (seedNodes freq).length = (seedSymbols freq).length := by simp [seedNodes]

theorem nodeAt_seedNodes {n : Nat} (h : n < (seedSymbols freq).length) :
    nodeAt (seedNodes freq) n = leafNode freq (seedSymbols freq)[n] := by
  simp [nodeAt, seedNodes, h]

theorem seedSymbols_ne_nil (h : ∃ k, freq k ≠ 0) : seedSymbols freq ≠ [] := by
  obtain ⟨k, hk⟩ := h
  exact List.ne_nil_of_mem ((mem_seedSymbols freq k).2 hk)

theorem seedOk (h : ∃ k, freq k ≠ 0) : SeedOk (seedNodes freq) where
  leaf r hr := by
    simp only [seedNodes, List.mem_map] at hr
    obtain ⟨k, -, rfl⟩ := hr
    rfl
  nonempty := by simp [seedNodes, seedSymbols_ne_nil freq h]
  length_le := by simpa using length_seedSymbols_le freq
  weight_lt r hr := by
    simp only [seedNodes, List.mem_map] at hr
    obtain ⟨k, -, rfl⟩ := hr
    have := (freq k).isLt
    simp only [leafNode, BitVec.toNat_setWidth]
    omega

theorem builtForest_ok (h : ∃ k, freq k ≠ 0) :
    BuiltOk (seedNodes freq) (builtNodes freq) ∧ builtRoot freq = (builtNodes freq).length - 1 := by
  obtain ⟨nodes, he, hb⟩ := seedForest_mergeUpTo (seedOk freq h)
  have he' : builtForest freq = ⟨nodes, [nodes.length - 1]⟩ := he
  rw [builtRoot, builtNodes, he']
  exact ⟨hb, rfl⟩

theorem length_builtNodes (h : ∃ k, freq k ≠ 0) : (builtNodes freq).length = 2 * (seedSymbols freq).length - 1 := by
  simpa using (builtForest_ok freq h).1.length

theorem seed_injective (m n : Nat) (hm : m < (seedNodes freq).length) (hn : n < (seedNodes freq).length)
    (h : (nodeAt (seedNodes freq) m).sym = (nodeAt (seedNodes freq) n).sym) : m = n := by
  rw [length_seedNodes] at hm hn
  rw [nodeAt_seedNodes freq hm, nodeAt_seedNodes freq hn] at h
  simp only [leafNode] at h
  rcases Nat.lt_trichotomy m n with hlt | rfl | hlt
  · have := seedSymbols_lt freq hlt hn; rw [h] at this; omega
  · rfl
  · have := seedSymbols_lt freq hlt hm; rw [h] at this; omega

/-- A sum over the symbols of a table is a sum over its seed, when the other symbols add nothing. -/
theorem sum_allSymbols {M : Type} [AddCommMonoid M] (g : Symbol → M) (hg : ∀ k, freq k = 0 → g k = 0) :
    (allSymbols.map g).sum = ((seedSymbols freq).map g).sum := by
  rw [seedSymbols_eq]
  generalize allSymbols = l
  induction l with
  | nil => rfl
  | cons k l ih =>
    by_cases hk : freq k = 0
    · rw [List.filter_cons_of_neg (by simpa using hk), List.map_cons, List.sum_cons, hg k hk, zero_add, ih]
    · rw [List.filter_cons_of_pos (by simpa using hk), List.map_cons, List.sum_cons, List.map_cons, List.sum_cons, ih]

theorem sum_seed_weights : ((seedNodes freq).map fun r => r.weight.toNat).sum =
    (allSymbols.map fun k => (freq k).toNat).sum := by
  rw [sum_allSymbols freq (fun k => (freq k).toNat) (by intro k hk; simp [hk]), seedNodes, List.map_map]
  refine congrArg List.sum (List.map_congr_left fun k _ => ?_)
  have := (freq k).isLt
  simp only [Function.comp, leafNode, BitVec.toNat_setWidth]
  exact Nat.mod_eq_of_lt (by omega)

theorem builtCodes_eq (h : ∃ k, freq k ≠ 0) :
    builtCodes freq = codesOf (builtNodes freq) ((builtNodes freq).length - 1) := by
  rw [builtCodes, (builtForest_ok freq h).2]

/-- The index of a counted symbol's leaf. -/
theorem exists_leaf {k : Symbol} (hk : freq k ≠ 0) :
    ∃ n < (seedSymbols freq).length, (nodeAt (builtNodes freq) n).sym = k := by
  have h : ∃ k, freq k ≠ 0 := ⟨k, hk⟩
  obtain ⟨n, hn, e⟩ := List.getElem_of_mem ((mem_seedSymbols freq k).2 hk)
  refine ⟨n, hn, ?_⟩
  rw [(builtForest_ok freq h).1.leaves n (by simpa using hn), nodeAt_seedNodes freq hn, e]
  rfl

theorem sym_leaf {n : Nat} (h : ∃ k, freq k ≠ 0) (hn : n < (seedSymbols freq).length) :
    (nodeAt (builtNodes freq) n).sym = (seedSymbols freq)[n] := by
  rw [(builtForest_ok freq h).1.leaves n (by simpa using hn), nodeAt_seedNodes freq hn]
  rfl

theorem freq_leaf_ne_zero {n : Nat} (h : ∃ k, freq k ≠ 0) (hn : n < (seedSymbols freq).length) :
    freq (nodeAt (builtNodes freq) n).sym ≠ 0 := by
  rw [sym_leaf freq h hn, ← mem_seedSymbols]
  exact List.getElem_mem _

theorem builtCode_absent {k : Symbol} (h : ∃ k, freq k ≠ 0) (hk : freq k = 0) : builtCode freq k = [] := by
  rw [builtCode, builtCodes_eq freq h]
  apply (builtForest_ok freq h).1.code_of_absent
  intro m hm e
  rw [length_seedNodes] at hm
  rw [nodeAt_seedNodes freq hm] at e
  simp only [leafNode] at e
  exact ((mem_seedSymbols freq _).1 (List.getElem_mem hm)) (e ▸ hk)

/-- R100: a code has at most L - 1 bits, and a counted symbol's at least one. -/
theorem length_builtCode {k : Symbol} (h2 : 2 ≤ (seedSymbols freq).length) (hk : freq k ≠ 0) :
    1 ≤ (builtCode freq k).length ∧ (builtCode freq k).length ≤ (seedSymbols freq).length - 1 := by
  have h : ∃ k, freq k ≠ 0 := ⟨k, hk⟩
  obtain ⟨n, hn, rfl⟩ := exists_leaf freq hk
  have := (builtForest_ok freq h).1.length_code (seed_injective freq) (by simpa using h2) (m := n) (by simpa using hn)
  rw [builtCode, builtCodes_eq freq h]
  simpa using this

/-- R102. -/
theorem builtCode_single {k : Symbol} (h1 : (seedSymbols freq).length = 1) (hk : freq k ≠ 0) :
    builtCode freq k = [false] := by
  have h : ∃ k, freq k ≠ 0 := ⟨k, hk⟩
  have hb := (builtForest_ok freq h).1
  obtain ⟨n, hn, rfl⟩ := exists_leaf freq hk
  obtain rfl : n = 0 := by omega
  rw [builtCode, builtCodes_eq freq h, hb.leaves 0 (by simp; omega)]
  exact hb.code_single (by simpa using h1)

/-- R101. -/
theorem path_builtCode {n : Nat} (h2 : 2 ≤ (seedSymbols freq).length) (hn : n < (seedSymbols freq).length) :
    pathEndIn (builtNodes freq) ((builtNodes freq).length - 1)
      (builtCode freq (nodeAt (builtNodes freq) n).sym) = some n := by
  have h : ∃ k, freq k ≠ 0 := ⟨_, (mem_seedSymbols freq _).1 (List.getElem_mem hn)⟩
  rw [builtCode, builtCodes_eq freq h]
  exact (builtForest_ok freq h).1.path_code (seed_injective freq) (by simpa using h2) (by simpa using hn)

theorem length_builtCode_le {k : Symbol} (h : ∃ k, freq k ≠ 0) : (builtCode freq k).length ≤ 255 := by
  have hle := length_seedSymbols_le freq
  by_cases hk : freq k = 0
  · simp [builtCode_absent freq h hk]
  · by_cases h2 : 2 ≤ (seedSymbols freq).length
    · have := length_builtCode freq h2 hk; omega
    · have : 0 < (seedSymbols freq).length := List.length_pos_iff.2 (seedSymbols_ne_nil freq h)
      simp [builtCode_single freq (by omega) hk]

theorem builtCode_eq_nil_iff {k : Symbol} (h : ∃ k, freq k ≠ 0) : builtCode freq k = [] ↔ freq k = 0 := by
  refine ⟨fun e => ?_, builtCode_absent freq h⟩
  by_contra hk
  by_cases h2 : 2 ≤ (seedSymbols freq).length
  · have := length_builtCode freq h2 hk; simp [e] at this
  · have : 0 < (seedSymbols freq).length := List.length_pos_iff.2 (seedSymbols_ne_nil freq h)
    simp [builtCode_single freq (by omega) hk] at e

end Seed

section Commit
variable (s : State)

theorem leafCount_eq : s.leafCount = (seedSymbols s.freqRead).length := rfl

/-- What BUILD answers (R91, R93). -/
theorem exec_build_eq (h : ∃ k, s.freqRead k ≠ 0) : exec .build s = .next s.commitBuild := by
  have : (seedSymbols s.freqRead).isEmpty = false := by simp [seedSymbols_ne_nil _ h]
  simp [exec, execBuild, answer, buildRule, this, CmdResult.settle]

theorem exec_build_empty (h : ∀ k, s.freqRead k = 0) : exec .build s = .next (s.raise .emptyInput 0) := by
  have : (seedSymbols s.freqRead).isEmpty = true := by
    rw [List.isEmpty_iff]
    by_contra hne
    obtain ⟨k, hk⟩ := List.exists_mem_of_ne_nil _ hne
    exact (mem_seedSymbols _ k).1 hk (h k)
  simp [exec, execBuild, answer, buildRule, this, CmdResult.settle]

theorem commitBuild_nodeRead {n : Nat} (hn : n < (builtNodes s.freqRead).length) :
    s.commitBuild.nodeRead n = nodeAt (builtNodes s.freqRead) n := by
  have := Memory.find_writeFrom_inside s.mem.node 0 (builtNodes s.freqRead) n hn
  rw [Nat.zero_add] at this
  rw [State.nodeRead, State.commitBuild_mem, this, Option.getD_some]
  simp [nodeAt, hn]

theorem commitBuild_nodeRead_outside {n : Nat} (hn : (builtNodes s.freqRead).length ≤ n) :
    s.commitBuild.nodeRead n = s.nodeRead n := by
  rw [State.nodeRead, State.commitBuild_mem]
  simp only
  rw [Memory.find_writeFrom_outside _ _ _ _ (.inr (by omega)), State.commitBuild_env]
  rfl

theorem length_builtTable (freq : Symbol → Word) : (builtTable freq).length = 256 := by simp [builtTable, tableOf]

theorem getElem_builtTable (freq : Symbol → Word) (i : Nat) (h : i < (builtTable freq).length) :
    (builtTable freq)[i] = CodeEntry.ofCode (builtCode freq (BitVec.ofNat 8 i)) := by
  simp [builtTable, tableOf, builtCode]

theorem commitBuild_codeRead (k : Symbol) : s.commitBuild.codeRead k = CodeEntry.ofCode (builtCode s.freqRead k) := by
  have := Memory.find_writeFrom_inside s.mem.code 0 (builtTable s.freqRead) k.toNat
    (by rw [length_builtTable]; exact k.isLt)
  rw [Nat.zero_add] at this
  rw [State.codeRead, State.commitBuild_mem, this, Option.getD_some, getElem_builtTable]
  simp

variable (h : ∃ k, s.freqRead k ≠ 0)
include h

omit h in
theorem commitBuild_nleaves : s.commitBuild.tree.nleaves.toNat = (seedSymbols s.freqRead).length := by
  have := length_seedSymbols_le s.freqRead
  rw [State.commitBuild_tree]
  simp only [BitVec.toNat_ofNat]
  omega

theorem commitBuild_root : s.commitBuild.tree.root.toNat = (builtNodes s.freqRead).length - 1 := by
  have := length_seedSymbols_le s.freqRead
  have := length_builtNodes _ h
  rw [State.commitBuild_tree]
  simp only [BitVec.toNat_ofNat, (builtForest_ok _ h).2]
  omega

theorem commitBuild_nnodes : s.commitBuild.nnodes = (builtNodes s.freqRead).length := by
  rw [State.nnodes, commitBuild_nleaves s, length_builtNodes _ h, State.commitBuild_tree]
  simp

theorem commitBuild_code (k : Symbol) : (s.commitBuild.codeRead k).code = builtCode s.freqRead k := by
  rw [commitBuild_codeRead, CodeEntry.code_ofCode _ (length_builtCode_le _ h)]

theorem commitBuild_len (k : Symbol) : (s.commitBuild.codeRead k).len.toNat = (builtCode s.freqRead k).length := by
  rw [commitBuild_codeRead, CodeEntry.len_ofCode _ (length_builtCode_le _ h)]

theorem commitBuild_len_ne_zero (k : Symbol) : (s.commitBuild.codeRead k).len ≠ 0 ↔ s.freqRead k ≠ 0 := by
  rw [← not_iff_not, not_not, not_not, ← builtCode_eq_nil_iff s.freqRead h, ← List.length_eq_zero_iff,
    ← commitBuild_len s h k, ← BitVec.toNat_inj]
  rfl

/-- A path in the committed tree is a path in the node table. -/
theorem commitBuild_pathEnd {n : Nat} (p : List Bool) (hn : n < (builtNodes s.freqRead).length) :
    s.commitBuild.pathEnd n p = pathEndIn (builtNodes s.freqRead) n p := by
  induction p generalizing n with
  | nil => rfl
  | cons b bs ih =>
    rw [State.pathEnd, pathEndIn, commitBuild_nodeRead s hn]
    split
    · rfl
    · rename_i hl
      have := (builtForest_ok _ h).1.childNat_lt hn (by simpa using hl) b
      simp only [childNat] at this
      exact ih (by omega)

/-- The tree BUILD commits meets R46. -/
theorem commitBuild_treeInv : s.commitBuild.TreeInv := by
  have hb := (builtForest_ok _ h).1
  have hL := length_seedSymbols_le s.freqRead
  have hpos : 0 < (seedSymbols s.freqRead).length := List.length_pos_iff.2 (seedSymbols_ne_nil _ h)
  have hlen := length_builtNodes _ h
  have hroot := commitBuild_root s h
  have hnl := commitBuild_nleaves s
  have hnn := commitBuild_nnodes s h
  have hcur : s.commitBuild.dec.cursor = s.commitBuild.tree.root := rfl
  have htimes : ∀ x < (builtNodes s.freqRead).length,
      s.commitBuild.timesChild x = timesIn (builtNodes s.freqRead) x := by
    intro x _
    rw [State.timesChild, timesIn, hnn]
    congr 1
    apply List.map_congr_left
    intro m hm
    rw [commitBuild_nodeRead s (List.mem_range.1 hm)]
    rfl
  have hunused : ∀ n < (builtNodes s.freqRead).length,
      if (nodeAt (builtNodes s.freqRead) n).isLeaf then
        (nodeAt (builtNodes s.freqRead) n).left = 0 ∧ (nodeAt (builtNodes s.freqRead) n).right = 0
      else (nodeAt (builtNodes s.freqRead) n).sym = 0 := by
    intro n hn
    by_cases hl : n < (seedSymbols s.freqRead).length
    · rw [hb.leaves n (by simpa using hl), nodeAt_seedNodes _ hl]
      simp [leafNode]
    · rw [(hb.internal n (by simpa using hl) hn).isLeaf]
      simpa using (hb.internal n (by simpa using hl) hn).sym
  refine ⟨fun hv => by simp at hv, fun _ => ⟨by omega, by omega, by omega⟩, fun _ h2 => ?_, fun _ h1 => ?_, ?_, ?_, ?_,
    ?_, fun _ => ?_⟩
  · rw [hcur]; omega
  · rw [hcur]
    have : s.commitBuild.tree.root = 0 := by
      apply BitVec.eq_of_toNat_eq
      change _ = 0
      omega
    exact ⟨this, this⟩
  · intro n hn
    rw [hnn] at hn
    rw [commitBuild_nodeRead s hn, hb.isLeaf hn, hnl, length_seedNodes]
  · intro n hn
    rw [hnn] at hn
    rw [commitBuild_nodeRead s hn]
    exact hunused n hn
  · intro n hn hl
    rw [hnn] at hn
    rw [commitBuild_nodeRead s hn] at hl ⊢
    have hl' := hb.isLeaf hn
    rw [hl] at hl'
    have hi := hb.internal n (by simpa using hl'.symm) hn
    have h₁ := hi.left_lt
    have h₂ := hi.right_lt
    simp only [leftNat, rightNat] at h₁ h₂
    rw [commitBuild_nodeRead s (by omega), commitBuild_nodeRead s (by omega)]
    exact ⟨h₁, h₂, hi.weight⟩
  · intro n hn hr
    rw [hnn] at hn
    rw [htimes n hn, hb.once n hn, if_neg (by omega)]
  · rw [hroot, htimes _ (by omega), hb.once _ (by omega), if_pos rfl]

/-- The code table BUILD commits belongs to its tree. -/
theorem commitBuild_codeInv : s.commitBuild.CodeInv := by
  have hb := (builtForest_ok _ h).1
  have hlen := length_builtNodes _ h
  have hroot := commitBuild_root s h
  have hnl := commitBuild_nleaves s
  have hpos : 0 < (seedSymbols s.freqRead).length := List.length_pos_iff.2 (seedSymbols_ne_nil _ h)
  refine ⟨fun _ h2 k hk => ?_, fun _ h1 k hk => ?_, fun _ n hn => ?_⟩
  · rw [commitBuild_len_ne_zero s h] at hk
    obtain ⟨n, hn, rfl⟩ := exists_leaf _ hk
    refine ⟨n, by omega, ?_, by rw [commitBuild_nodeRead s (by omega)]⟩
    rw [commitBuild_code s h, hroot, commitBuild_pathEnd s h _ (by omega)]
    exact path_builtCode _ (by omega) hn
  · rw [commitBuild_len_ne_zero s h] at hk
    refine ⟨by rw [commitBuild_code s h, builtCode_single _ (by omega) hk], ?_⟩
    obtain ⟨n, hn, rfl⟩ := exists_leaf _ hk
    obtain rfl : n = 0 := by omega
    rw [commitBuild_nodeRead s (by omega)]
  · rw [commitBuild_len_ne_zero s h, commitBuild_nodeRead s (by omega)]
    exact freq_leaf_ne_zero _ h (by omega)

end Commit

end Sys2Proof.Machine
end

