-- ==== Sys2Proof/Laws/Bus.lean ====
section
/-! SUPPORT. What a bus access answers and leaves, each said once (20_memory.md R48 to R64), and the bits of the words
the registers read. -/

namespace Sys2Proof.Machine

variable {s : State} {a : Offset} {t : Target}

/-- The seventeen registers are at their offsets (R51). -/
theorem locate_reg (p : Params) (r : Reg) : locate p (BitVec.ofNat 16 r.offset) = some (.reg r) := by cases r <;> rfl

/-- What an offset can name, with the range it lies in (R51). -/
inductive Located (p : Params) (a : Offset) : Target → Prop where
  | reg {r : Reg} : a.toNat < 0x0100 → regAt a.toNat = some r → Located p a (.reg r)
  | reserved : a.toNat < 0x0100 → regAt a.toNat = none → Located p a (.reserved a)
  | freq : 0x0400 ≤ a.toNat → a.toNat < 0x0800 → Located p a (.freq (BitVec.ofNat 8 ((a.toNat - 0x0400) / 4)))
  | codeLen : 0x0800 ≤ a.toNat → a.toNat < 0x0C00 → Located p a (.codeLen (BitVec.ofNat 8 ((a.toNat - 0x0800) / 4)))
  | codeBits : 0x1000 ≤ a.toNat → a.toNat < 0x3000 →
      Located p a (.codeBits (BitVec.ofNat 8 ((a.toNat - 0x1000) / 32)) ((a.toNat - 0x1000) % 32 / 4))
  | node : 0x4000 ≤ a.toNat → a.toNat < 0x6000 →
      Located p a (.node ((a.toNat - 0x4000) / 16) ((a.toNat - 0x4000) % 16 / 4))
  | bitmem : 0x8000 ≤ a.toNat → a.toNat < 0x8000 + p.bitmemBits / 8 →
      Located p a (.bitmem ((a.toNat - 0x8000) / 4))

theorem located {p : Params} (h : locate p a = some t) : a.toNat % 4 = 0 ∧ Located p a t := by
  unfold locate at h
  by_cases h₀ : a.toNat % 4 ≠ 0
  · rw [if_pos h₀] at h; simp at h
  rw [if_neg h₀] at h
  refine ⟨by omega, ?_⟩
  by_cases h₁ : a.toNat < 0x0100
  · rw [if_pos h₁] at h
    cases hr : regAt a.toNat with
    | some r => rw [hr] at h; obtain rfl := Option.some.inj h; exact .reg h₁ hr
    | none => rw [hr] at h; obtain rfl := Option.some.inj h; exact .reserved h₁ hr
  rw [if_neg h₁] at h
  by_cases h₂ : a.toNat < 0x0400
  · rw [if_pos h₂] at h; simp at h
  rw [if_neg h₂] at h
  by_cases h₃ : a.toNat < 0x0800
  · rw [if_pos h₃] at h; obtain rfl := Option.some.inj h; exact .freq (by omega) h₃
  rw [if_neg h₃] at h
  by_cases h₄ : a.toNat < 0x0C00
  · rw [if_pos h₄] at h; obtain rfl := Option.some.inj h; exact .codeLen (by omega) h₄
  rw [if_neg h₄] at h
  by_cases h₅ : a.toNat < 0x1000
  · rw [if_pos h₅] at h; simp at h
  rw [if_neg h₅] at h
  by_cases h₆ : a.toNat < 0x3000
  · rw [if_pos h₆] at h; obtain rfl := Option.some.inj h; exact .codeBits (by omega) h₆
  rw [if_neg h₆] at h
  by_cases h₇ : a.toNat < 0x4000
  · rw [if_pos h₇] at h; simp at h
  rw [if_neg h₇] at h
  by_cases h₈ : a.toNat < 0x6000
  · rw [if_pos h₈] at h; obtain rfl := Option.some.inj h; exact .node (by omega) h₈
  rw [if_neg h₈] at h
  by_cases h₉ : a.toNat < 0x8000
  · rw [if_pos h₉] at h; simp at h
  rw [if_neg h₉] at h
  by_cases h₁₀ : a.toNat < 0x8000 + p.bitmemBits / 8
  · rw [if_pos h₁₀] at h; obtain rfl := Option.some.inj h; exact .bitmem (by omega) h₁₀
  · rw [if_neg h₁₀] at h; simp at h

/-- The busy-class registers (R55) by their offsets. -/
theorem locate_busyReg {p : Params}
    (h : a.toNat ∈ [0x018, 0x01C, 0x030, 0x034, 0x038, 0x03C, 0x040, 0x044, 0x048, 0x04C]) :
    ∃ t, locate p a = some t ∧ t.always = false := by
  have e : a = BitVec.ofNat 16 a.toNat := by simp
  simp only [List.mem_cons, List.not_mem_nil, or_false] at h
  rcases h with h | h | h | h | h | h | h | h | h | h <;> rw [h] at e <;> subst e
  · exact ⟨_, locate_reg _ .errCode, rfl⟩
  · exact ⟨_, locate_reg _ .errInfo, rfl⟩
  · exact ⟨_, locate_reg _ .encPtr, rfl⟩
  · exact ⟨_, locate_reg _ .decPtr, rfl⟩
  · exact ⟨_, locate_reg _ .decEnd, rfl⟩
  · exact ⟨_, locate_reg _ .result, rfl⟩
  · exact ⟨_, locate_reg _ .root, rfl⟩
  · exact ⟨_, locate_reg _ .nleaves, rfl⟩
  · exact ⟨_, locate_reg _ .cursor, rfl⟩
  · exact ⟨_, locate_reg _ .lastLen, rfl⟩

/-- An aligned offset of a window names a busy-class target (R55). -/
theorem locate_window {p : Params} (h₄ : a.toNat % 4 = 0)
    (h : (0x0400 ≤ a.toNat ∧ a.toNat < 0x0800) ∨ (0x0800 ≤ a.toNat ∧ a.toNat < 0x0C00) ∨
      (0x1000 ≤ a.toNat ∧ a.toNat < 0x3000) ∨ (0x4000 ≤ a.toNat ∧ a.toNat < 0x6000) ∨
      (0x8000 ≤ a.toNat ∧ a.toNat < 0x8000 + p.bitmemBits / 8)) :
    ∃ t, locate p a = some t ∧ t.always = false := by
  unfold locate
  rw [if_neg (by omega), if_neg (by omega), if_neg (by omega)]
  rcases h with h | h | h | h | h
  · rw [if_pos (by omega)]; exact ⟨_, rfl, rfl⟩
  · rw [if_neg (by omega), if_pos (by omega)]; exact ⟨_, rfl, rfl⟩
  · rw [if_neg (by omega), if_neg (by omega), if_neg (by omega), if_pos (by omega)]; exact ⟨_, rfl, rfl⟩
  · rw [if_neg (by omega), if_neg (by omega), if_neg (by omega), if_neg (by omega), if_neg (by omega),
      if_pos (by omega)]
    exact ⟨_, rfl, rfl⟩
  · rw [if_neg (by omega), if_neg (by omega), if_neg (by omega), if_neg (by omega), if_neg (by omega),
      if_neg (by omega), if_neg (by omega), if_pos h.2]
    exact ⟨_, rfl, rfl⟩

/-- The other aligned offsets below 0x100 are accessible at any time (R54). -/
theorem locate_always {p : Params} (h₄ : a.toNat % 4 = 0) (h : a.toNat < 0x0100)
    (hn : a.toNat ∉ [0x018, 0x01C, 0x030, 0x034, 0x038, 0x03C, 0x040, 0x044, 0x048, 0x04C]) :
    ∃ t, locate p a = some t ∧ t.always = true ∧ (t = .reg .status → a = 0x014) ∧ (t = .reg .cmd → a = 0x010) := by
  have key : ∀ n : Fin 0x100, n.val ∉ [0x018, 0x01C, 0x030, 0x034, 0x038, 0x03C, 0x040, 0x044, 0x048, 0x04C] →
      (regAt n).all fun r => (Target.reg r).always && (r == .status) == (n.val == 0x014) &&
        (r == .cmd) == (n.val == 0x010) := by decide +kernel
  have hk := key ⟨a.toNat, h⟩ hn
  unfold locate
  rw [if_neg (by omega), if_pos h]
  cases hr : regAt a.toNat with
  | none => exact ⟨_, rfl, rfl, by simp, by simp⟩
  | some r =>
    simp only [hr, Option.all_some, Bool.and_eq_true, beq_iff_eq] at hk
    refine ⟨_, rfl, hk.1.1, fun e => ?_, fun e => ?_⟩
    · have := hk.1.2; simp only [Target.reg.inj e, beq_self_eq_true, Eq.comm (a := true), beq_iff_eq] at this
      exact BitVec.eq_of_toNat_eq this
    · have := hk.2; simp only [Target.reg.inj e, beq_self_eq_true, Eq.comm (a := true), beq_iff_eq] at this
      exact BitVec.eq_of_toNat_eq this

/-- R49, R50: an offset that names nothing is a bus error. -/
theorem busRead_unmapped (h : locate s.params a = none) : s.busRead a = (.read true 0, s) := by
  unfold State.busRead; rw [h]

theorem busWrite_unmapped (h : locate s.params a = none) (v : Word) : s.busWrite a v = (.write true, s) := by
  unfold State.busWrite; rw [h]

/-- R54: an access at any time, or with BUSY = 0. -/
theorem busRead_at (h : locate s.params a = some t) (hb : t.always = true ∨ s.cmd.busy = false) :
    s.busRead a = (.read false (s.readTarget t), s) := by
  unfold State.busRead; rw [h]
  rcases hb with hb | hb <;> simp only [hb, Bool.not_true, Bool.and_false, Bool.false_and] <;> rfl

theorem busWrite_at (h : locate s.params a = some t) (hb : t.always = true ∨ s.cmd.busy = false) (v : Word) :
    s.busWrite a v = (.write false, s.writeTarget v t) := by
  unfold State.busWrite; rw [h]
  rcases hb with hb | hb <;> simp only [hb, Bool.not_true, Bool.and_false, Bool.false_and] <;> rfl

/-- R55: a busy-class access with BUSY = 1. -/
theorem busRead_busy (h : locate s.params a = some t) (ha : t.always = false) (hb : s.cmd.busy = true) :
    s.busRead a = (.read false (Config.busyRead s.env.draws), s.drawn) := by
  unfold State.busRead; rw [h]; simp only [hb, ha]; rfl

theorem busWrite_busy (h : locate s.params a = some t) (ha : t.always = false) (hb : s.cmd.busy = true) (v : Word) :
    s.busWrite a v = (.write false, s.drop) := by
  unfold State.busWrite; rw [h]; simp only [hb, ha]; rfl

/-- Bit `j` of a word with one bit set. -/
theorem getLsbD_bitAt {i : Nat} (hi : i < 32) (b : Bool) (j : Nat) : (bitAt i b).getLsbD j = (b && decide (j = i)) := by
  unfold bitAt
  rw [BitVec.getLsbD_shiftLeft, BitVec.getLsbD_setWidth, BitVec.getLsbD_ofBool]
  by_cases h : j = i
  · subst h; simp [hi]
  · by_cases h' : j < i
    · simp [h, h']
    · simp [h, show j - i ≠ 0 by omega]

/-- A register's field read zero-extended. -/
theorem toNat_setWidth_of_le {n : Nat} (h : n ≤ 32) (x : BitVec n) : (x.setWidth 32).toNat = x.toNat := by
  have : 2 ^ n ≤ 2 ^ 32 := Nat.pow_le_pow_right (by omega) h
  rw [BitVec.toNat_setWidth]
  exact Nat.mod_eq_of_lt (by have := x.isLt; omega)

end Sys2Proof.Machine
end

