-- ==== Sys2Proof/Laws/Decode.lean ====
section
/-! SUPPORT. What a row of the opcode map matches, said by the fields of the word (30_encoding.md R73 to R76, R79). -/

namespace Sys2Proof

theorem getLsbD_maskN (i : Nat) (h : i < 32) : (0xFFFFFFFF : Word).getLsbD i = true := by
  have : ∀ i : Fin 32, (0xFFFFFFFF : Word).getLsbD i = true := by decide +kernel
  exact this ⟨i, h⟩

theorem getLsbD_maskS (i : Nat) (h : i < 32) :
    (0xFFFF00FF : Word).getLsbD i = (decide (i < 8) || decide (16 ≤ i)) := by
  have : ∀ i : Fin 32, (0xFFFF00FF : Word).getLsbD i = (decide (i.1 < 8) || decide (16 ≤ i.1)) := by decide +kernel
  exact this ⟨i, h⟩

theorem getLsbD_maskB (i : Nat) (h : i < 32) :
    (0xFFFFFEFF : Word).getLsbD i = (decide (i < 8) || decide (9 ≤ i)) := by
  have : ∀ i : Fin 32, (0xFFFFFEFF : Word).getLsbD i = (decide (i.1 < 8) || decide (9 ≤ i.1)) := by decide +kernel
  exact this ⟨i, h⟩

/-- A word under a mask that keeps bits below 8 and bits from `a` on equals an OP exactly when bits 7..0 are the OP and
bits 31..a are 0. -/
theorem and_mask_eq_iff {m : Word} {a : Nat} (ha : a ≤ 32) (h8 : 8 ≤ a)
    (hm : ∀ i < 32, m.getLsbD i = (decide (i < 8) || decide (a ≤ i))) (w : Word) (op : BitVec 8) :
    w &&& m = op.setWidth 32 ↔ w.extractLsb' 0 8 = op ∧ w.extractLsb' a (32 - a) = 0 := by
  constructor
  · intro h
    have hb : ∀ i, i < 32 → (w.getLsbD i && (decide (i < 8) || decide (a ≤ i))) = op.getLsbD i := fun i hi => by
      have := congrArg (BitVec.getLsbD · i) h
      simp only [BitVec.getLsbD_and, BitVec.getLsbD_setWidth, hi, decide_true, Bool.true_and] at this
      rwa [hm i hi] at this
    constructor
    · refine BitVec.eq_of_getLsbD_eq fun i hi => ?_
      have := hb i (by omega)
      simpa [BitVec.getLsbD_extractLsb', hi] using this
    · refine BitVec.eq_of_getLsbD_eq fun i hi => ?_
      have := hb (a + i) (by omega)
      have h0 : op.getLsbD (a + i) = false := BitVec.getLsbD_of_ge _ _ (by omega)
      rw [h0] at this
      simpa [BitVec.getLsbD_extractLsb', hi] using this
  · rintro ⟨h₁, h₂⟩
    refine BitVec.eq_of_getLsbD_eq fun i hi => ?_
    rw [BitVec.getLsbD_and, hm i hi, BitVec.getLsbD_setWidth, ← h₁, BitVec.getLsbD_extractLsb']
    by_cases h8' : i < 8
    · simp [h8', hi]
    · by_cases ha' : a ≤ i
      · have := congrArg (BitVec.getLsbD · (i - a)) h₂
        have hi' : i - a < 32 - a := by omega
        simp only [BitVec.getLsbD_extractLsb', hi', decide_true, Bool.true_and] at this
        rw [Nat.add_sub_cancel' ha'] at this
        simp [this]
      · simp [h8', ha']

theorem and_maskN_eq_iff (w : Word) (op : BitVec 8) :
    w &&& 0xFFFFFFFF = op.setWidth 32 ↔ w.extractLsb' 0 8 = op ∧ w.extractLsb' 8 24 = 0 :=
  and_mask_eq_iff (a := 8) (by omega) (by omega)
    (fun i h => by rw [getLsbD_maskN i h]; by_cases h' : i < 8 <;> simp [h']; omega) w op

theorem and_maskS_eq_iff (w : Word) (op : BitVec 8) :
    w &&& 0xFFFF00FF = op.setWidth 32 ↔ w.extractLsb' 0 8 = op ∧ w.extractLsb' 16 16 = 0 :=
  and_mask_eq_iff (a := 16) (by omega) (by omega) getLsbD_maskS w op

theorem and_maskB_eq_iff (w : Word) (op : BitVec 8) :
    w &&& 0xFFFFFEFF = op.setWidth 32 ↔ w.extractLsb' 0 8 = op ∧ w.extractLsb' 9 23 = 0 :=
  and_mask_eq_iff (a := 9) (by omega) (by omega) getLsbD_maskB w op

/-- The row of the opcode map that a word matches, by its fields (R74, R75, R76, R78). -/
theorem opcodeMap_hit_iff (w : Word) (r : Row) (hr : r ∈ opcodeMap) :
    w &&& r.mask = r.pattern ↔ w.extractLsb' 0 8 = r.op ∧
      (match r.format with
        | .n => w.extractLsb' 8 24 = 0
        | .s => w.extractLsb' 16 16 = 0
        | .b => w.extractLsb' 9 23 = 0) := by
  simp only [opcodeMap, List.mem_cons, List.not_mem_nil, or_false] at hr
  rcases hr with rfl | rfl | rfl | rfl | rfl | rfl | rfl | rfl | rfl | rfl | rfl
  · exact and_maskN_eq_iff w 0x00
  · exact and_maskN_eq_iff w 0x01
  · exact and_maskN_eq_iff w 0x02
  · exact and_maskN_eq_iff w 0x03
  · exact and_maskS_eq_iff w 0x04
  · exact and_maskN_eq_iff w 0x10
  · exact and_maskS_eq_iff w 0x20
  · exact and_maskN_eq_iff w 0x30
  · exact and_maskB_eq_iff w 0x31
  · exact and_maskN_eq_iff w 0x32
  · exact and_maskN_eq_iff w 0x33

end Sys2Proof
end

