-- ==== Sys2Proof/Laws/Decoder.lean ====
section
/-! SUPPORT. The one-bit step of the decoder and the loop of DEC_SYM along a path (43_decoder.md R111 to R113, R116). -/

namespace Sys2Proof.Machine

variable (s : State)

theorem State.walkBit_single (h : s.tree.nleaves = 1) (cur : NodeIdx) (b : Bool) :
    s.walkBit cur b = .emitted (s.nodeRead 0).sym := by simp [State.walkBit, h]

theorem State.walkBit_fromLeaf (h : s.tree.nleaves ≠ 1) {cur : NodeIdx} (hl : (s.nodeRead cur.toNat).isLeaf = true)
    (b : Bool) : s.walkBit cur b = .fromLeaf := by
  unfold State.walkBit
  rw [if_neg h, if_pos hl]

theorem State.walkBit_emitted (h : s.tree.nleaves ≠ 1) {cur : NodeIdx} {b : Bool}
    (hl : (s.nodeRead cur.toNat).isLeaf = false)
    (hc : (s.nodeRead (childOf (s.nodeRead cur.toNat) b).toNat).isLeaf = true) :
    s.walkBit cur b = .emitted (s.nodeRead (childOf (s.nodeRead cur.toNat) b).toNat).sym := by
  unfold State.walkBit
  rw [if_neg h, if_neg (by simp [hl]), if_pos hc]

theorem State.walkBit_moved (h : s.tree.nleaves ≠ 1) {cur : NodeIdx} {b : Bool}
    (hl : (s.nodeRead cur.toNat).isLeaf = false)
    (hc : (s.nodeRead (childOf (s.nodeRead cur.toNat) b).toNat).isLeaf = false) :
    s.walkBit cur b = .moved (childOf (s.nodeRead cur.toNat) b) := by
  unfold State.walkBit
  rw [if_neg h, if_neg (by simp [hl]), if_neg (by simp [hc])]

theorem State.pathEnd_cons (n : Nat) (b : Bool) (bs : List Bool) : s.pathEnd n (b :: bs) =
    if (s.nodeRead n).isLeaf then none else s.pathEnd (childOf (s.nodeRead n) b).toNat bs := rfl

theorem State.pathEnd_append (n : Nat) (p q : List Bool) :
    s.pathEnd n (p ++ q) = (s.pathEnd n p).bind fun m => s.pathEnd m q := by
  induction p generalizing n with
  | nil => rfl
  | cons b bs ih =>
    rw [List.cons_append, pathEnd_cons, pathEnd_cons]
    split
    · rfl
    · exact ih _

/-- Only the empty path starts at a leaf. -/
theorem State.pathEnd_leaf {n m : Nat} {p : List Bool} (hl : (s.nodeRead n).isLeaf = true)
    (h : s.pathEnd n p = some m) : p = [] := by
  cases p with
  | nil => rfl
  | cons b bs => simp [pathEnd_cons, hl] at h

theorem State.holdsAt_cons {p : Nat} {b : Bool} {bs : List Bool} :
    s.holdsAt p (b :: bs) ↔ s.bitRead p = b ∧ s.holdsAt (p + 1) bs := by
  constructor
  · intro h
    refine ⟨h 0 (Nat.succ_pos _), fun i hi => ?_⟩
    rw [show p + 1 + i = p + (i + 1) by omega]
    exact h (i + 1) (Nat.succ_lt_succ hi)
  · rintro ⟨h₁, h₂⟩ i hi
    cases i with
    | zero => exact h₁
    | succ i =>
      rw [show p + (i + 1) = p + 1 + i by omega]
      exact h₂ i (Nat.lt_of_succ_lt_succ hi)

theorem State.holdsAt_append {p : Nat} {bs cs : List Bool} :
    s.holdsAt p (bs ++ cs) ↔ s.holdsAt p bs ∧ s.holdsAt (p + bs.length) cs := by
  induction bs generalizing p with
  | nil => simp [State.holdsAt]
  | cons b bs ih =>
    rw [List.cons_append, holdsAt_cons, ih, holdsAt_cons, and_assoc, List.length_cons]
    rw [show p + 1 + bs.length = p + (bs.length + 1) by omega]

/-- R116: the loop follows the bits to the first leaf. -/
theorem State.scan_found (h : s.tree.nleaves ≠ 1) {p : List Bool} {left pos n : Nat} {cur : NodeIdx} (hp : p ≠ [])
    (hleft : p.length ≤ left) (hbits : s.holdsAt pos p) (hpath : s.pathEnd cur.toNat p = some n)
    (hn : (s.nodeRead n).isLeaf = true) : s.scan left pos cur = .found (s.nodeRead n).sym (pos + p.length) := by
  induction p generalizing left pos cur with
  | nil => exact absurd rfl hp
  | cons b bs ih =>
    obtain ⟨hb, hbs⟩ := (s.holdsAt_cons).1 hbits
    cases left with
    | zero => simp at hleft
    | succ left =>
      rw [pathEnd_cons] at hpath
      split at hpath
      · simp at hpath
      · rename_i hl
        have hl : (s.nodeRead cur.toNat).isLeaf = false := by simpa using hl
        rw [State.scan, hb]
        by_cases hc : (s.nodeRead (childOf (s.nodeRead cur.toNat) b).toNat).isLeaf = true
        · obtain rfl := s.pathEnd_leaf hc hpath
          simp only [State.pathEnd, Option.some.injEq] at hpath
          rw [s.walkBit_emitted h hl hc, hpath]
          rfl
        · rw [s.walkBit_moved h hl (by simpa using hc)]
          have hne : bs ≠ [] := by
            rintro rfl
            simp only [State.pathEnd, Option.some.injEq] at hpath
            exact hc (hpath ▸ hn)
          change s.scan left (pos + 1) _ = _
          rw [ih hne (by simpa using hleft) hbs hpath, List.length_cons,
            show pos + 1 + bs.length = pos + (bs.length + 1) by omega]

/-- R118: the loop runs out of bits at an internal node. -/
theorem State.scan_truncated (h : s.tree.nleaves ≠ 1) {p : List Bool} {pos n : Nat} {cur : NodeIdx}
    (hbits : s.holdsAt pos p) (hpath : s.pathEnd cur.toNat p = some n) (hn : (s.nodeRead n).isLeaf = false) :
    s.scan p.length pos cur = .truncated := by
  induction p generalizing pos cur with
  | nil => rfl
  | cons b bs ih =>
    obtain ⟨hb, hbs⟩ := (s.holdsAt_cons).1 hbits
    rw [pathEnd_cons] at hpath
    split at hpath
    · simp at hpath
    · rename_i hl
      have hl : (s.nodeRead cur.toNat).isLeaf = false := by simpa using hl
      have hc : (s.nodeRead (childOf (s.nodeRead cur.toNat) b).toNat).isLeaf = false := by
        by_contra hc
        obtain rfl := s.pathEnd_leaf (by simpa using hc) hpath
        simp only [State.pathEnd, Option.some.injEq] at hpath
        rw [hpath, hn] at hc
        exact hc rfl
      rw [List.length_cons, State.scan, hb, s.walkBit_moved h hl hc]
      exact ih hbs hpath

theorem State.scan_single (h : s.tree.nleaves = 1) {left pos : Nat} (hleft : left ≠ 0) (cur : NodeIdx) :
    s.scan left pos cur = .found (s.nodeRead 0).sym (pos + 1) := by
  cases left with
  | zero => exact absurd rfl hleft
  | succ left => rw [State.scan, s.walkBit_single h]

/-- The node the one-bit step looks at is inside the tree and internal (R46(c)). -/
def State.atInternal (cur : NodeIdx) : Prop := s.tree.nleaves.toNat ≤ cur.toNat ∧ cur.toNat < s.nnodes

theorem State.atInternal_cursor (hi : s.TreeInv) (hv : s.tree.valid = true) (h2 : 2 ≤ s.tree.nleaves.toNat) :
    s.atInternal s.dec.cursor := by
  have h₁ := hi.leaves hv
  have h₂ := hi.cursorInternal hv h2
  refine ⟨h₂.1, ?_⟩
  rw [State.nnodes, if_pos hv]
  omega

theorem State.atInternal_isLeaf (hi : s.TreeInv) {cur : NodeIdx} (h : s.atInternal cur) :
    (s.nodeRead cur.toNat).isLeaf = false := by
  rw [hi.shape _ h.2]
  have := h.1
  simp; omega

/-- R111, R113: from an internal node the step emits a leaf or moves to an internal node. -/
theorem State.walkBit_cases (hi : s.TreeInv) (h : s.tree.nleaves ≠ 1) {cur : NodeIdx} (hc : s.atInternal cur) (b : Bool) :
    (∃ k, s.walkBit cur b = .emitted k) ∨
      ∃ cur', s.walkBit cur b = .moved cur' ∧ s.atInternal cur' ∧ cur'.toNat < cur.toNat := by
  have hl := s.atInternal_isLeaf hi hc
  have hch := hi.children _ hc.2 hl
  have hlt : (childOf (s.nodeRead cur.toNat) b).toNat < cur.toNat := by
    cases b
    · exact hch.1
    · exact hch.2.1
  have hn := hc.2
  by_cases hcl : (s.nodeRead (childOf (s.nodeRead cur.toNat) b).toNat).isLeaf = true
  · exact .inl ⟨_, s.walkBit_emitted h hl hcl⟩
  · have hcl : (s.nodeRead (childOf (s.nodeRead cur.toNat) b).toNat).isLeaf = false := by simpa using hcl
    refine .inr ⟨_, s.walkBit_moved h hl hcl, ⟨?_, by omega⟩, hlt⟩
    rw [hi.shape _ (by omega)] at hcl
    simpa using hcl

/-- R113: the loop never moves from a leaf. -/
theorem State.scan_ne_fromLeaf (hi : s.TreeInv) (h : s.tree.nleaves ≠ 1) {left pos : Nat} {cur : NodeIdx}
    (hc : s.atInternal cur) : s.scan left pos cur ≠ .fromLeaf := by
  induction left generalizing pos cur with
  | zero => simp [State.scan]
  | succ left ih =>
    rw [State.scan]
    rcases s.walkBit_cases hi h hc (s.bitRead pos) with ⟨k, e⟩ | ⟨cur', e, hc', -⟩
    · simp [e]
    · simp only [e]
      exact ih hc'

/-- Where the loop of DEC_SYM stops (R116): never past the bits it may read. -/
theorem State.scan_next_le {left pos : Nat} {cur : NodeIdx} {k : Symbol} {next : Nat}
    (h : s.scan left pos cur = .found k next) : pos < next ∧ next ≤ pos + left := by
  induction left generalizing pos cur with
  | zero => simp [State.scan] at h
  | succ left ih =>
    rw [State.scan] at h
    split at h
    · simp only [Scan.found.injEq] at h; omega
    · have := ih h; omega
    · simp at h

end Sys2Proof.Machine
end

