-- ==== Sys2Proof/Laws/Step.lean ====
section
/-! SUPPORT. What a command, a bus access and a step can do, each said once. -/

namespace Sys2Proof.Machine

variable {s t : State}

@[simp] theorem answer_ok (u : State) : answer (.ok u) s = .next u := rfl
@[simp] theorem answer_fail (c : ErrCode) (i : Word) : answer (.fail c i) s = .next (s.raise c i) := rfl
@[simp] theorem settle_ok (u : State) : (CmdResult.ok u).settle s = u := rfl
@[simp] theorem settle_fail (c : ErrCode) (i : Word) : (CmdResult.fail c i).settle s = s.raise c i := rfl

theorem withTree_valid {op : Word} {r : CmdResult} (h : s.tree.valid = true) : withTree s op r = r := by
  simp [withTree, h]

theorem withTree_none {op : Word} {r : CmdResult} (h : s.tree.valid = false) :
    withTree s op r = .fail .noTree op := by simp [withTree, h]

/-- A command that does not fail leaves one of these states. -/
inductive Committed (s : State) : Instr → State → Prop where
  | nop : Committed s .nop s
  | softReset : Committed s .softReset s.softReset
  | clrErr : Committed s .clrErr s.clearError
  | freqClear : Committed s .freqClear s.freqClear
  | freqInc {k : Symbol} : s.freqRead k ≠ 0xFFFFFFFF → Committed s (.freqInc k) (s.freqWrite k (s.freqRead k + 1))
  | build : (∃ k, s.freqRead k ≠ 0) → Committed s .build s.commitBuild
  | encSym {k : Symbol} : s.tree.valid = true → (s.codeRead k).len ≠ 0 →
      s.ptr.encPtr.toNat + (s.codeRead k).len.toNat ≤ s.bitmemBits → Committed s (.encSym k) (s.emit (s.codeRead k))
  | decReset : Committed s .decReset (s.moveCursor s.tree.root)
  | decBitMoved {b : Bool} {cur : NodeIdx} : s.tree.valid = true → s.walkBit s.dec.cursor b = .moved cur →
      Committed s (.decBit b) (s.moveCursor cur)
  | decBitEmitted {b : Bool} {k : Symbol} : s.tree.valid = true → s.walkBit s.dec.cursor b = .emitted k →
      Committed s (.decBit b) (s.emitSymbol k)
  | decSym {k : Symbol} {next : Nat} : s.tree.valid = true → s.ptr.decPtr.toNat < s.decLimit →
      s.scan (s.decLimit - s.ptr.decPtr.toNat) s.ptr.decPtr.toNat s.dec.cursor = .found k next →
      Committed s .decSym (s.commitSymbol k next)
  | decFinish : s.tree.valid = true → s.dec.cursor = s.tree.root → Committed s .decFinish s

/-- A command that fails raises one of these errors, for these reasons (R129, R130, R133). -/
inductive Failed (s : State) : Instr → ErrCode → Word → Prop where
  | freqOverflow {k : Symbol} : s.freqRead k = 0xFFFFFFFF → Failed s (.freqInc k) .freqOverflow (k.setWidth 32)
  | emptyInput : (∀ k, s.freqRead k = 0) → Failed s .build .emptyInput 0
  | noTreeEnc {k : Symbol} : s.tree.valid = false → Failed s (.encSym k) .noTree 0x20
  | noTreeBit {b : Bool} : s.tree.valid = false → Failed s (.decBit b) .noTree 0x31
  | noTreeSym : s.tree.valid = false → Failed s .decSym .noTree 0x32
  | noTreeFinish : s.tree.valid = false → Failed s .decFinish .noTree 0x33
  | unknownSymbol {k : Symbol} : s.tree.valid = true → (s.codeRead k).len = 0 →
      Failed s (.encSym k) .unknownSymbol (k.setWidth 32)
  | bitmemOverflow {k : Symbol} : s.tree.valid = true → (s.codeRead k).len ≠ 0 →
      s.bitmemBits < s.ptr.encPtr.toNat + (s.codeRead k).len.toNat →
      Failed s (.encSym k) .bitmemOverflow (k.setWidth 32)
  | bitFromLeaf {b : Bool} : s.tree.valid = true → s.walkBit s.dec.cursor b = .fromLeaf →
      Failed s (.decBit b) .malformedBitstream 1
  | noInput : s.tree.valid = true → s.decLimit ≤ s.ptr.decPtr.toNat → Failed s .decSym .malformedBitstream 3
  | truncated : s.tree.valid = true → s.ptr.decPtr.toNat < s.decLimit →
      s.scan (s.decLimit - s.ptr.decPtr.toNat) s.ptr.decPtr.toNat s.dec.cursor = .truncated →
      Failed s .decSym .malformedBitstream 2
  | symFromLeaf : s.tree.valid = true → s.ptr.decPtr.toNat < s.decLimit →
      s.scan (s.decLimit - s.ptr.decPtr.toNat) s.ptr.decPtr.toNat s.dec.cursor = .fromLeaf →
      Failed s .decSym .malformedBitstream 1
  | unfinished : s.tree.valid = true → s.dec.cursor ≠ s.tree.root → Failed s .decFinish .malformedBitstream 2

/-- What a command can do (R123): it commits, or it fails and only records the failure (R132). -/
theorem exec_cases (i : Instr) (s : State) :
    (∃ t, exec i s = .next t ∧ Committed s i t) ∨ ∃ c w, exec i s = .next (s.raise c w) ∧ Failed s i c w := by
  cases i with
  | nop => exact .inl ⟨_, rfl, .nop⟩
  | softReset => exact .inl ⟨_, rfl, .softReset⟩
  | clrErr => exact .inl ⟨_, rfl, .clrErr⟩
  | freqClear => exact .inl ⟨_, rfl, .freqClear⟩
  | freqInc k =>
    by_cases h : s.freqRead k = 0xFFFFFFFF
    · exact .inr ⟨_, _, by simp [exec, execFreqInc, freqIncRule, h], .freqOverflow h⟩
    · exact .inl ⟨_, by simp only [exec, execFreqInc, freqIncRule, if_neg h, answer_ok], .freqInc h⟩
  | build =>
    by_cases h : (seedSymbols s.freqRead).isEmpty = true
    · refine .inr ⟨_, _, by simp [exec, execBuild, buildRule, h], .emptyInput fun k => ?_⟩
      rw [List.isEmpty_iff, seedSymbols, List.filter_eq_nil_iff] at h
      have := h k (List.mem_map.2 ⟨k.toNat, List.mem_range.2 k.isLt, by simp⟩)
      simpa using this
    · refine .inl ⟨_, by simp only [exec, execBuild, buildRule, if_neg h, answer_ok], .build ?_⟩
      rw [List.isEmpty_iff] at h
      obtain ⟨k, hk⟩ := List.exists_mem_of_ne_nil _ h
      rw [seedSymbols, List.mem_filter] at hk
      exact ⟨k, by simpa using hk.2⟩
  | encSym k =>
    simp only [exec, execEncSym, encSymRule]
    by_cases hv : s.tree.valid = true
    · rw [withTree_valid hv]
      by_cases h : (s.codeRead k).len = 0
      · exact .inr ⟨_, _, by simp [h], .unknownSymbol hv h⟩
      · rw [if_neg h]
        by_cases h' : s.ptr.encPtr.toNat + (s.codeRead k).len.toNat > s.bitmemBits
        · exact .inr ⟨_, _, by simp [h'], .bitmemOverflow hv h h'⟩
        · exact .inl ⟨_, by rw [if_neg h', answer_ok], .encSym hv h (by omega)⟩
    · have hv : s.tree.valid = false := by simpa using hv
      exact .inr ⟨_, _, by rw [withTree_none hv, answer_fail], .noTreeEnc hv⟩
  | decReset => exact .inl ⟨_, rfl, .decReset⟩
  | decBit b =>
    simp only [exec, execDecBit, decBitRule]
    by_cases hv : s.tree.valid = true
    · rw [withTree_valid hv]
      cases h : s.walkBit s.dec.cursor b with
      | moved cur => exact .inl ⟨_, rfl, .decBitMoved hv h⟩
      | emitted k => exact .inl ⟨_, rfl, .decBitEmitted hv h⟩
      | fromLeaf => exact .inr ⟨_, _, rfl, .bitFromLeaf hv h⟩
    · have hv : s.tree.valid = false := by simpa using hv
      exact .inr ⟨_, _, by rw [withTree_none hv, answer_fail], .noTreeBit hv⟩
  | decSym =>
    simp only [exec, execDecSym, decSymRule]
    by_cases hv : s.tree.valid = true
    · rw [withTree_valid hv]
      by_cases hp : s.ptr.decPtr.toNat ≥ s.decLimit
      · exact .inr ⟨_, _, by rw [if_pos hp, answer_fail]; rfl, .noInput hv hp⟩
      · rw [if_neg hp]
        have hp : s.ptr.decPtr.toNat < s.decLimit := by omega
        cases h : s.scan (s.decLimit - s.ptr.decPtr.toNat) s.ptr.decPtr.toNat s.dec.cursor with
        | found k next => exact .inl ⟨_, rfl, .decSym hv hp h⟩
        | truncated => exact .inr ⟨_, _, rfl, .truncated hv hp h⟩
        | fromLeaf => exact .inr ⟨_, _, rfl, .symFromLeaf hv hp h⟩
    · have hv : s.tree.valid = false := by simpa using hv
      exact .inr ⟨_, _, by rw [withTree_none hv, answer_fail], .noTreeSym hv⟩
  | decFinish =>
    simp only [exec, execDecFinish, decFinishRule]
    by_cases hv : s.tree.valid = true
    · rw [withTree_valid hv]
      by_cases h : s.dec.cursor = s.tree.root
      · exact .inl ⟨_, by simp [h], .decFinish hv h⟩
      · exact .inr ⟨_, _, by rw [if_pos h, answer_fail]; rfl, .unfinished hv h⟩
    · have hv : s.tree.valid = false := by simpa using hv
      exact .inr ⟨_, _, by rw [withTree_none hv, answer_fail], .noTreeFinish hv⟩

/-- A command that answers `t`: it committed `t`, or failed. -/
theorem exec_next {i : Instr} (h : exec i s = .next t) :
    Committed s i t ∨ ∃ c w, t = s.raise c w ∧ Failed s i c w := by
  rcases exec_cases i s with ⟨u, e, hc⟩ | ⟨c, w, e, hf⟩
  · rw [h] at e
    exact .inl ((Host.Outcome.next.inj e) ▸ hc)
  · rw [h] at e
    exact .inr ⟨c, w, Host.Outcome.next.inj e, hf⟩

theorem exec_answers (i : Instr) (s : State) : ∃ t, exec i s = .next t := by
  rcases exec_cases i s with ⟨t, e, -⟩ | ⟨c, w, e, -⟩
  · exact ⟨t, e⟩
  · exact ⟨_, e⟩

theorem Failed.code_ne_none {i : Instr} {c : ErrCode} {w : Word} (h : Failed s i c w) : c ≠ .none := by
  cases h <;> simp

theorem Committed.params {i : Instr} (h : Committed s i t) : t.params = s.params := by cases h <;> simp

/-- A command that does not fail leaves the error state, or clears it. -/
theorem Committed.error {i : Instr} (h : Committed s i t) : t.error = s.error ∨ t.error = .reset := by
  cases h <;> simp

@[simp] theorem onNext_next (f : State → State) (s : State) : onNext f (.next s) = .next (f s) := rfl

/-- What the pending word does (R123). -/
theorem outcome_cases (s : State) :
    (∃ i t, decode s.cmd.pending = .ok i ∧ s.outcome = .next t ∧ Committed s i t) ∨
    (∃ i c w, decode s.cmd.pending = .ok i ∧ s.outcome = .next (s.raise c w) ∧ Failed s i c w) ∨
    ∃ why, decode s.cmd.pending = .error why ∧ s.outcome = .next (s.raise .illegalCommand s.cmd.pending) := by
  unfold State.outcome
  cases h : decode s.cmd.pending with
  | error why => exact .inr (.inr ⟨why, rfl, rfl⟩)
  | ok i =>
    rcases exec_cases i s with ⟨t, e, hc⟩ | ⟨c, w, e, hf⟩
    · exact .inl ⟨i, t, rfl, e, hc⟩
    · exact .inr (.inl ⟨i, c, w, rfl, e, hf⟩)

/-- What a step can do. -/
theorem step_cases (s : State) :
    (s.mover = some .sequencer ∧ ∃ u, s.outcome = .next u ∧ step s = .next u.complete.turnTaken) ∨
    (s.mover = some .host ∧ step s = .next s.hostStep.turnTaken) ∨ (s.mover = none ∧ step s = .next s) := by
  unfold step
  cases h : s.mover with
  | none => exact .inr (.inr ⟨rfl, rfl⟩)
  | some a =>
    cases a with
    | host => exact .inr (.inl ⟨rfl, rfl⟩)
    | sequencer =>
      refine .inl ⟨rfl, ?_⟩
      rcases outcome_cases s with ⟨i, t, -, e, -⟩ | ⟨i, c, w, -, e, -⟩ | ⟨why, -, e⟩
      all_goals exact ⟨_, e, by simp [State.execute, e]⟩

theorem mover_sequencer (h : s.mover = some .sequencer) : s.cmd.busy = true := by
  unfold State.mover at h
  split at h
  · assumption
  · split at h <;> simp at h

theorem mover_host (h : s.mover = some .host) : s.env.host ≠ [] := by
  unfold State.mover at h
  intro e
  simp [e] at h

/-- What a bus read leaves (R64): the state, or the state with one more free value drawn. -/
theorem busRead_state (s : State) (a : Offset) : (s.busRead a).2 = s ∨ (s.busRead a).2 = s.drawn := by
  unfold State.busRead
  split
  · exact .inl rfl
  · split
    · exact .inr rfl
    · exact .inl rfl

/-- What a bus write leaves (R48 to R61, R122). -/
inductive Written (s : State) (a : Offset) (v : Word) : State → Prop where
  | nothing : Written s a v s
  | dropped : Written s a v s.drop
  | accepted : s.cmd.busy = false → (s.error.err = false ∨ exemptOp v = true) →
      Written s a v { s with cmd := { busy := true, pending := v, lastCmd := v } }
  | irq (q : IrqState) : Written s a v { s with irq := q }
  | ptr (p : StreamState) : s.cmd.busy = false → Written s a v { s with ptr := p }
  | freq (k : Symbol) : s.cmd.busy = false → locate s.params a = some (.freq k) → Written s a v (s.freqWrite k v)
  | bitmem (j : Nat) : s.cmd.busy = false → locate s.params a = some (.bitmem j) →
      Written s a v (s.bitWriteFrom (32 * j) (bitsOfWord v))

theorem busWrite_written (s : State) (a : Offset) (v : Word) : Written s a v (s.busWrite a v).2 := by
  unfold State.busWrite
  split
  · exact .nothing
  · rename_i t hl
    split
    · exact .dropped
    · rename_i hb
      simp only [Bool.and_eq_true, Bool.not_eq_true', not_and, Bool.not_eq_false] at hb
      have busy : t.always = false → s.cmd.busy = false := by
        intro ha; by_contra hc; simp at hc; simp [hb hc] at ha
      cases t with
      | reg r =>
        cases r with
        | cmd =>
          simp only [State.writeTarget, State.writeReg, State.accept]
          split
          · exact .dropped
          · split
            · exact .dropped
            · rename_i h₁ h₂
              refine .accepted (by simpa using h₁) ?_
              simp only [Bool.and_eq_true, Bool.not_eq_true', not_and, Bool.not_eq_false] at h₂
              cases he : s.error.err
              · exact .inl rfl
              · exact .inr (h₂ he)
        | intPend =>
          simp only [State.writeTarget, State.writeReg]
          split
          · exact .irq _
          · exact .nothing
        | irqEn => exact .irq _
        | encPtr => exact .ptr _ (busy rfl)
        | decPtr => exact .ptr _ (busy rfl)
        | decEnd => exact .ptr _ (busy rfl)
        | _ => exact .nothing
      | freq k => exact .freq k (busy rfl) hl
      | bitmem j => exact .bitmem j (busy rfl) hl
      | _ => exact .nothing

/-- What one input leaves, but for the model's own fields (R48, R49, R85, R145). -/
inductive Received (s : State) : Input → State → Prop where
  | read (i : Input) (e : Env) : e.epoch = s.env.epoch → Received s i { s with env := e }
  | write {a : Offset} {v : Word} {u : State} (e : Env) : Written s a v u → e.epoch = s.env.epoch →
      Received s (.write a v) { u with env := e }
  | strobedWrite {a : Offset} {v : Word} {u : State} (e : Env) : Written s a v u → e.epoch = s.env.epoch →
      Received s (.strobedWrite 0xF a v) { u with env := e }
  | hardReset (e : Env) : Received s .hardReset { s.hardReset with env := e }
  | hardResetDuring (b : Bool) (e : Env) : Received s (.hardResetDuring b) { s.hardReset with env := e }

theorem Written.env {a : Offset} {v : Word} {u : State} (h : Written s a v u) : u.env = s.env := by
  cases h <;> simp

theorem answered_withEnv (r : BusResponse × State) (e : Env) :
    ({ State.answered r with env := e } : State) = { r.2 with env := e } := rfl

theorem answered_epoch (r : BusResponse × State) : (State.answered r).env.epoch = r.2.env.epoch := rfl

theorem read_received {u : State} (h : u = s ∨ u = s.drawn) (i : Input) (e : Env) (he : e.epoch = u.env.epoch) :
    Received s i { u with env := e } := by
  rcases h with rfl | rfl
  · exact .read i e he
  · exact .read i e he

theorem input_received (s : State) (i : Input) (e : Env) (he : e.epoch = (s.input i).env.epoch) :
    Received s i { s.input i with env := e } := by
  cases i with
  | read a =>
    simp only [State.input, answered_withEnv, answered_epoch] at he ⊢
    exact read_received (busRead_state s a) _ e he
  | wait =>
    simp only [State.input, answered_withEnv, answered_epoch] at he ⊢
    exact read_received (busRead_state s _) _ e he
  | strobedRead st a =>
    simp only [State.input, answered_withEnv, answered_epoch] at he ⊢
    refine read_received ?_ _ e he
    unfold State.strobedRead
    split
    · exact busRead_state s a
    · exact .inl rfl
  | write a v =>
    simp only [State.input, answered_withEnv, answered_epoch] at he ⊢
    have hw := busWrite_written s a v
    exact .write e hw (he.trans (congrArg Env.epoch hw.env))
  | strobedWrite st a v =>
    simp only [State.input, answered_withEnv, answered_epoch] at he ⊢
    by_cases h : st = 0xF
    · subst h
      have hw := busWrite_written s a v
      exact .strobedWrite e hw (he.trans (congrArg Env.epoch hw.env))
    · simp only [State.strobedWrite, if_neg h] at he ⊢
      exact .read _ e he
  | hardReset => exact .hardReset e
  | hardResetDuring b => exact .hardResetDuring b e

/-- What a host step leaves: the oldest input's effect. -/
theorem hostStep_received {s : State} {i : Input} {rest : List Input} (h : s.env.host = i :: rest) :
    Received s i s.hostStep.turnTaken := by
  unfold State.hostStep
  rw [h]
  simp only
  split
  · exact input_received s i _ rfl
  · exact input_received s i _ rfl

/-- A sequencer step completes (R123, R124). -/
theorem step_sequencer (h : s.mover = some .sequencer) :
    ∃ t, step s = .next t ∧ t.cmd.busy = false ∧ t.irq.done = true := by
  rcases step_cases s with ⟨-, u, -, e⟩ | ⟨e, -⟩ | ⟨e, -⟩
  · exact ⟨_, e, rfl, rfl⟩
  · rw [h] at e; cases e
  · rw [h] at e; cases e

/-- A run's first step. -/
theorem run_succ (k : Nat) (s : State) : Host.Core.run Sys2Proof.core (k + 1) s =
    (match step s with
      | .next t => Host.Core.run Sys2Proof.core k t
      | .fault f => .fault f
      | .refused r => .refused r) := by
  rw [Host.Core.run.eq_2 Sys2Proof.core s k, show Sys2Proof.core.step s = step s from rfl]
  cases step s <;> rfl

/-! ### The model's own fields under a host step -/

theorem busRead_env (s : State) (a : Offset) :
    (s.busRead a).2.env.host = s.env.host ∧ (s.busRead a).2.env.turns = s.env.turns := by
  rcases busRead_state s a with h | h <;> rw [h] <;> exact ⟨rfl, rfl⟩

theorem busWrite_env (s : State) (a : Offset) (v : Word) :
    (s.busWrite a v).2.env.host = s.env.host ∧ (s.busWrite a v).2.env.turns = s.env.turns := by
  rw [(busWrite_written s a v).env]; exact ⟨rfl, rfl⟩

theorem strobedRead_all (s : State) (a : Offset) : s.strobedRead 0xF a = s.busRead a := rfl
theorem strobedWrite_all (s : State) (a : Offset) (v : Word) : s.strobedWrite 0xF a v = s.busWrite a v := rfl

theorem strobedRead_missing {strobes : BitVec 4} (h : strobes ≠ 0xF) (a : Offset) :
    s.strobedRead strobes a = (.read true 0, s) := if_neg h

theorem strobedWrite_missing {strobes : BitVec 4} (h : strobes ≠ 0xF) (a : Offset) (v : Word) :
    s.strobedWrite strobes a v = (.write true, s) := if_neg h

/-- An input changes neither the host's list nor the tape. -/
theorem input_env (s : State) (i : Input) : (s.input i).env.host = s.env.host ∧ (s.input i).env.turns = s.env.turns := by
  cases i with
  | read a => exact busRead_env s a
  | write a v => exact busWrite_env s a v
  | strobedRead st a =>
    by_cases h : st = 0xF
    · subst h; exact busRead_env s a
    · simp only [State.input, strobedRead_missing h]; exact ⟨rfl, rfl⟩
  | strobedWrite st a v =>
    by_cases h : st = 0xF
    · subst h; exact busWrite_env s a v
    · simp only [State.input, strobedWrite_missing h]; exact ⟨rfl, rfl⟩
  | wait => exact busRead_env s _
  | hardReset => exact ⟨rfl, rfl⟩
  | hardResetDuring b => exact ⟨rfl, rfl⟩

/-- A host step takes one turn off the tape and adds no input. -/
theorem hostStep_env (s : State) : s.hostStep.turnTaken.env.turns = s.env.turns.tail ∧
    ∀ i ∈ s.hostStep.turnTaken.env.host, i ∈ s.env.host := by
  unfold State.hostStep
  cases h : s.env.host with
  | nil => exact ⟨rfl, fun i hi => by rw [← h]; exact hi⟩
  | cons i rest =>
    obtain ⟨h₁, h₂⟩ := input_env s i
    simp only
    split
    · refine ⟨congrArg List.tail h₂, fun j hj => ?_⟩
      rw [show (s.input i).nextInput.turnTaken.env.host = (s.input i).env.host.tail from rfl, h₁, h] at hj
      exact List.mem_cons_of_mem _ hj
    · refine ⟨congrArg List.tail h₂, fun j hj => ?_⟩
      rwa [show (s.input i).turnTaken.env.host = (s.input i).env.host from rfl, h₁, h] at hj

end Sys2Proof.Machine
end

