-- ==== Sys2Proof/Laws/Invariant.lean ====
section
/-! SUPPORT. What the parts of the invariant rest on, and what keeps each part. -/

namespace Sys2Proof.Machine

variable {s t : State}

/-- A path depends on the node table only. -/
theorem State.pathEnd_congr (h : t.nodeRead = s.nodeRead) (n : Nat) (p : List Bool) : t.pathEnd n p = s.pathEnd n p := by
  induction p generalizing n with
  | nil => rfl
  | cons b bs ih => rw [State.pathEnd_cons, State.pathEnd_cons, h, ih]

/-- The tree invariants rest on the tree registers, the cursor and the node table. -/
theorem State.TreeInv.congr (hi : s.TreeInv) (ht : t.tree = s.tree) (hc : t.dec.cursor = s.dec.cursor)
    (hn : t.nodeRead = s.nodeRead) : t.TreeInv := by
  have hnn : t.nnodes = s.nnodes := by rw [State.nnodes, State.nnodes, ht]
  have htc : t.timesChild = s.timesChild := by funext n; rw [State.timesChild, State.timesChild, hnn, hn]
  obtain ⟨h₁, h₂, h₃, h₄, h₅, h₆, h₇, h₈, h₉⟩ := hi
  constructor <;> simp only [ht, hc, hn, hnn, htc] <;> assumption

/-- A machine without a tree meets them when the tree registers and the cursor are 0. -/
theorem State.TreeInv.ofNoTree (hv : t.tree = .reset) (hc : t.dec.cursor = 0) : t.TreeInv := by
  have hnn : t.nnodes = 0 := by rw [State.nnodes, hv]; rfl
  constructor <;> simp [hv, hc, hnn, TreeState.reset]

/-- Moving the cursor keeps them when it goes to the root or to an internal node. -/
theorem State.TreeInv.ofCursor (hi : s.TreeInv) (ht : t.tree = s.tree) (hn : t.nodeRead = s.nodeRead)
    (hc : t.dec.cursor = s.tree.root ∨
      (s.tree.valid = true ∧ s.tree.nleaves ≠ 1 ∧ s.atInternal t.dec.cursor)) : t.TreeInv := by
  have hnn : t.nnodes = s.nnodes := by rw [State.nnodes, State.nnodes, ht]
  have htc : t.timesChild = s.timesChild := by funext n; rw [State.timesChild, State.timesChild, hnn, hn]
  obtain ⟨h₁, h₂, h₃, h₄, h₅, h₆, h₇, h₈, h₉⟩ := hi
  constructor
  · intro hv
    rw [ht] at hv ⊢
    rcases hc with hc | ⟨hc, -⟩
    · exact ⟨(h₁ hv).1, (h₁ hv).2.1, hc.trans (h₁ hv).2.1⟩
    · simp [hv] at hc
  · rwa [ht]
  · intro hv hl
    rw [ht] at hv hl ⊢
    have := h₂ hv
    rcases hc with hc | ⟨-, -, hc⟩
    · rw [hc]; omega
    · have h₁ := hc.1
      have h₂ := hc.2
      rw [State.nnodes, if_pos hv] at h₂
      omega
  · intro hv hl
    rw [ht] at hv hl ⊢
    rcases hc with hc | ⟨-, hc, -⟩
    · exact ⟨hc.trans (h₄ hv hl).2, (h₄ hv hl).2⟩
    · exact absurd (BitVec.eq_of_toNat_eq hl) hc
  all_goals simp only [ht, hn, hnn, htc]; assumption

/-- The code table's invariants rest on the tree registers and the two tables. -/
theorem State.CodeInv.congr (hi : s.CodeInv) (ht : t.tree = s.tree) (hn : t.nodeRead = s.nodeRead)
    (hc : t.codeRead = s.codeRead) : t.CodeInv := by
  have hp : t.pathEnd = s.pathEnd := by funext n p; exact State.pathEnd_congr hn n p
  obtain ⟨h₁, h₂, h₃⟩ := hi
  constructor <;> simp only [ht, hn, hc, hp] <;> assumption

theorem State.CodeInv.ofNoTree (hv : t.tree = .reset) : t.CodeInv := by
  constructor <;> simp [hv, TreeState.reset]

theorem State.nodeRead_congr (hm : t.mem.node = s.mem.node) (he : t.env.epoch = s.env.epoch) :
    t.nodeRead = s.nodeRead := by funext n; rw [State.nodeRead, State.nodeRead, hm, he]

theorem State.codeRead_congr (hm : t.mem.code = s.mem.code) (he : t.env.epoch = s.env.epoch) :
    t.codeRead = s.codeRead := by funext k; rw [State.codeRead, State.codeRead, hm, he]

/-- The tree part of the invariant rests on these parts of the state. -/
theorem State.tree_congr (hi : s.TreeInv) (hk : s.CodeInv) (ht : t.tree = s.tree) (hd : t.dec.cursor = s.dec.cursor)
    (hn : t.mem.node = s.mem.node) (hc : t.mem.code = s.mem.code) (he : t.env.epoch = s.env.epoch) :
    t.TreeInv ∧ t.CodeInv :=
  ⟨hi.congr ht hd (State.nodeRead_congr hn he),
    hk.congr ht (State.nodeRead_congr hn he) (State.codeRead_congr hc he)⟩

/-- What a command commits keeps the tree part (R46). -/
theorem Committed.tree {i : Instr} (h : Committed s i t) (hi : s.TreeInv) (hk : s.CodeInv) : t.TreeInv ∧ t.CodeInv := by
  cases h with
  | softReset => exact ⟨.ofNoTree rfl rfl, .ofNoTree rfl⟩
  | build hb => exact ⟨commitBuild_treeInv s hb, commitBuild_codeInv s hb⟩
  | decReset => exact ⟨hi.ofCursor rfl rfl (.inl rfl), hk.congr rfl rfl rfl⟩
  | @decBitMoved b cur hv hw =>
    refine ⟨hi.ofCursor rfl rfl (.inr ⟨hv, ?_, ?_⟩), hk.congr rfl rfl rfl⟩
    · intro h1
      rw [s.walkBit_single h1] at hw
      simp at hw
    · have h1 : s.tree.nleaves ≠ 1 := by
        intro h1
        rw [s.walkBit_single h1] at hw
        simp at hw
      have h2 : 2 ≤ s.tree.nleaves.toNat := by
        have := (hi.leaves hv).1
        have : s.tree.nleaves.toNat ≠ 1 := fun e => h1 (BitVec.eq_of_toNat_eq e)
        omega
      rcases s.walkBit_cases hi h1 (s.atInternal_cursor hi hv h2) b with ⟨k, e⟩ | ⟨cur', e, hc, -⟩
      · simp [e] at hw
      · rw [hw] at e
        obtain rfl := Walked.moved.inj e
        exact hc
  | decBitEmitted => exact ⟨hi.ofCursor rfl rfl (.inl rfl), hk.congr rfl rfl rfl⟩
  | decSym => exact ⟨hi.ofCursor rfl rfl (.inl rfl), hk.congr rfl rfl rfl⟩
  | _ => exact State.tree_congr hi hk (by simp) (by simp) (by simp) (by simp) (by simp)

theorem length_zeroCounts : zeroCounts.length = 256 := by simp [zeroCounts]

/-- What a command commits keeps every memory in its canonical form. -/
theorem Committed.mem {i : Instr} (h : Committed s i t) (hi : s.MemInv) : t.MemInv := by
  obtain ⟨h₁, h₂, h₃, h₄⟩ := hi
  cases h with
  | freqClear => exact ⟨Memory.wf_writeFrom _ (by simp [length_zeroCounts]) h₁, h₂, h₃, h₄⟩
  | @freqInc k => exact ⟨Memory.wf_write _ k.isLt h₁, h₂, h₃, h₄⟩
  | build hb =>
    have := length_builtNodes _ hb
    have := length_seedSymbols_le s.freqRead
    have hn := Memory.wf_writeFrom (k := 0) (builtNodes s.freqRead) (by unfold maxNodes; omega) h₂
    have hc := Memory.wf_writeFrom (k := 0) (builtTable s.freqRead)
      (by have := length_builtTable s.freqRead; unfold nSym; omega) h₃
    constructor
    · exact h₁
    · simp only [State.commitBuild_mem]; exact hn
    · simp only [State.commitBuild_mem]; exact hc
    · exact h₄
  | encSym hv hc hf => exact ⟨h₁, h₂, h₃, Memory.wf_writeFrom _ (by rw [CodeEntry.length_code]; exact hf) h₄⟩
  | _ => exact ⟨h₁, h₂, h₃, h₄⟩

/-- The offset of a BITMEM word has its 32 bits inside BITMEM (R7, R51, R61). -/
theorem locate_bitmem {p : Params} {a : Offset} {j : Nat} (hp : p.wellFormed = true)
    (h : locate p a = some (.bitmem j)) : 32 * j + 32 ≤ p.bitmemBits := by
  have hk : p.bitmemBits = 32 * 2 ^ (p.bitmemLog2 - 5) := by
    simp only [Params.wellFormed, Bool.and_eq_true, decide_eq_true_eq] at hp
    rw [Params.bitmemBits, show (32 : Nat) = 2 ^ 5 by rfl, ← Nat.pow_add]
    congr 1
    omega
  obtain ⟨h4, hl⟩ := located h
  cases hl with
  | bitmem h₁ h₂ => omega

/-- What a bus write leaves keeps the tree part of the invariant. -/
theorem Written.tree {a : Offset} {v : Word} (h : Written s a v t) (hi : s.TreeInv) (hk : s.CodeInv) :
    t.TreeInv ∧ t.CodeInv := by
  cases h <;> exact State.tree_congr hi hk (by simp) (by simp) (by simp) (by simp) (by simp)

theorem State.MemInv.congr (hi : s.MemInv) (hm : t.mem = s.mem) (hp : t.params = s.params) : t.MemInv := by
  obtain ⟨h₁, h₂, h₃, h₄⟩ := hi
  have hb : t.bitmemBits = s.bitmemBits := by rw [State.bitmemBits, State.bitmemBits, hp]
  constructor <;> simp only [hm, hb] <;> assumption

theorem State.ControlInv.congr (hi : s.ControlInv) (hc : t.cmd = s.cmd) (hp : t.params = s.params)
    (he : t.error.err = s.error.err ∧ t.error.code = s.error.code ∧ t.error.info = s.error.info) :
    t.ControlInv := by
  obtain ⟨h₁, h₂, h₃, h₄, h₅, h₆⟩ := hi
  constructor <;> simp only [hc, hp, he] <;> assumption

theorem State.MemInv.bitWriteFrom (hi : s.MemInv) {k : Nat} {bs : List Bool} (h : k + bs.length ≤ s.bitmemBits) :
    (s.bitWriteFrom k bs).MemInv :=
  ⟨hi.freq, hi.node, hi.code, Memory.wf_writeFrom bs h hi.bitmem⟩

/-- What a bus write leaves keeps every memory in its canonical form. -/
theorem Written.mem {a : Offset} {v : Word} (h : Written s a v t) (hp : s.params.wellFormed = true)
    (hi : s.MemInv) : t.MemInv := by
  cases h with
  | freq k =>
    obtain ⟨h₁, h₂, h₃, h₄⟩ := hi
    have := Memory.wf_write v k.isLt h₁
    constructor <;> simp only [State.freqWrite_mem, State.freqWrite_bitmemBits] <;> assumption
  | bitmem j hb hl =>
    exact hi.bitWriteFrom (by rw [length_bitsOfWord]; exact locate_bitmem hp hl)
  | _ => exact hi.congr (by simp) (by simp)

/-- What a bus write leaves keeps the error and command state in agreement. -/
theorem Written.control {a : Offset} {v : Word} (h : Written s a v t) (hi : s.ControlInv) : t.ControlInv := by
  cases h with
  | accepted hb he =>
    refine ⟨hi.quiet, hi.named, by simp, by simp, fun _ h => ?_, hi.params⟩
    rcases he with he | he
    · simp only at h; simp [he] at h
    · exact he
  | _ => exact hi.congr (by simp) (by simp) (by simp)

theorem Written.params {a : Offset} {v : Word} (h : Written s a v t) : t.params = s.params := by cases h <;> simp

end Sys2Proof.Machine
end

