-- ==== Sys2Proof/Laws/Optimal.lean ====
section
/-! SUPPORT. Why the code of a BUILD is optimal (41_tree_builder.md R106): the lengths of a prefix code meet Kraft's
inequality, and every merge of the two least weights can be undone in the comparison with any other lengths. -/

namespace Sys2Proof.Machine

/-! ### Kraft's inequality -/

/-- What Kraft's inequality sums: 2^-length for every code word. -/
def kraft (l : List (List Bool)) : ℚ := (l.map fun c => (1 / 2 : ℚ) ^ c.length).sum

/-- The code words that start with `b`, without it. -/
def tailsOf (b : Bool) (l : List (List Bool)) : List (List Bool) :=
  l.filterMap fun c => match c with
    | [] => none
    | x :: xs => if x = b then some xs else none

theorem mem_tailsOf {b : Bool} {l : List (List Bool)} {c : List Bool} : c ∈ tailsOf b l ↔ b :: c ∈ l := by
  simp only [tailsOf, List.mem_filterMap]
  constructor
  · rintro ⟨x, hx, h⟩
    cases x with
    | nil => simp at h
    | cons y ys =>
      simp only at h
      split at h
      · simp only [Option.some.injEq] at h; subst h; rename_i e; subst e; exact hx
      · simp at h
  · intro h
    exact ⟨_, h, by simp⟩

theorem kraft_split {l : List (List Bool)} (h : [] ∉ l) :
    kraft l = 1 / 2 * kraft (tailsOf false l) + 1 / 2 * kraft (tailsOf true l) := by
  induction l with
  | nil => simp [kraft, tailsOf]
  | cons c l ih =>
    have ih := ih fun h' => h (List.mem_cons_of_mem _ h')
    simp only [kraft, List.map_cons, List.sum_cons] at ih ⊢
    rw [ih]
    cases c with
    | nil => exact absurd (List.mem_cons_self ..) h
    | cons b bs =>
      cases b <;> simp [tailsOf, pow_succ] <;> ring

theorem kraft_le_one (n : Nat) {l : List (List Bool)} (hn : ∀ c ∈ l, c.length ≤ n)
    (hp : l.Pairwise fun x y => ¬ x <+: y ∧ ¬ y <+: x) : kraft l ≤ 1 := by
  induction n generalizing l with
  | zero =>
    match l, hn, hp with
    | [], _, _ => simp [kraft]
    | [c], hn, _ => simp [kraft, List.length_eq_zero_iff.1 (Nat.le_zero.1 (hn c (by simp)))]
    | c :: d :: l, hn, hp =>
      have hc := List.length_eq_zero_iff.1 (Nat.le_zero.1 (hn c (by simp)))
      subst hc
      exact absurd List.nil_prefix ((List.pairwise_cons.1 hp).1 d (by simp)).1
  | succ n ih =>
    by_cases h : [] ∈ l
    · obtain ⟨p, q, rfl⟩ := List.append_of_mem h
      have hq : q = [] := by
        cases q with
        | nil => rfl
        | cons d q =>
          have := (List.pairwise_append.1 hp).2.1
          exact absurd List.nil_prefix ((List.pairwise_cons.1 this).1 d (by simp)).1
      have hp' : p = [] := by
        cases p with
        | nil => rfl
        | cons d p =>
          have := (List.pairwise_append.1 hp).2.2 d (by simp) [] (by simp)
          exact absurd List.nil_prefix this.2
      subst hq; subst hp'
      simp [kraft]
    · rw [kraft_split h]
      have key : ∀ b, kraft (tailsOf b l) ≤ 1 := by
        intro b
        apply ih
        · intro c hc
          have := hn _ (mem_tailsOf.1 hc)
          simpa using this
        · rw [tailsOf, List.pairwise_filterMap]
          refine hp.imp ?_
          intro x y hxy u hu v hv
          cases x with
          | nil => simp at hu
          | cons x xs =>
            cases y with
            | nil => simp at hv
            | cons y ys =>
              simp only [Option.ite_none_right_eq_some, Option.some.injEq] at hu hv
              obtain ⟨rfl, rfl⟩ := hu
              obtain ⟨rfl, rfl⟩ := hv
              simpa using hxy
      have h₁ := key false
      have h₂ := key true
      linarith

/-! ### The exchange -/

/-- 2^-l summed over some items. -/
def kraftSum (l : Nat → Nat) (S : Finset Nat) : ℚ := ∑ x ∈ S, (1 / 2 : ℚ) ^ l x

/-- The weighted length of some items. -/
def cost (w l : Nat → Nat) (S : Finset Nat) : Nat := ∑ x ∈ S, w x * l x

/-- The lengths with those of two items exchanged. -/
def exchange (l : Nat → Nat) (a b : Nat) : Nat → Nat := fun x => l (Equiv.swap a b x)

theorem swap_mem {S : Finset Nat} {a b x : Nat} (ha : a ∈ S) (hb : b ∈ S) (hx : x ∈ S) : Equiv.swap a b x ∈ S := by
  rw [Equiv.swap_apply_def]; split_ifs <;> assumption

theorem kraftSum_exchange (l : Nat → Nat) {S : Finset Nat} {a b : Nat} (ha : a ∈ S) (hb : b ∈ S) :
    kraftSum (exchange l a b) S = kraftSum l S := by
  unfold kraftSum exchange
  refine Finset.sum_nbij' (Equiv.swap a b) (Equiv.swap a b) ?_ ?_ ?_ ?_ ?_
  · exact fun x hx => swap_mem ha hb hx
  · exact fun x hx => swap_mem ha hb hx
  · intro x _; simp
  · intro x _; simp
  · intro x _; rfl

theorem cost_exchange (w l : Nat → Nat) {S : Finset Nat} {a b : Nat} (ha : a ∈ S) (hb : b ∈ S)
    (hw : w a ≤ w b) (hl : l a ≤ l b) : cost w (exchange l a b) S ≤ cost w l S := by
  by_cases hab : a = b
  · subst hab
    have : exchange l a a = l := by funext x; unfold exchange; rw [Equiv.swap_self]; rfl
    rw [this]
  · have hb' : b ∈ S.erase a := Finset.mem_erase.2 ⟨fun e => hab e.symm, hb⟩
    simp only [cost]
    rw [← Finset.add_sum_erase S _ ha, ← Finset.add_sum_erase S _ ha, ← Finset.add_sum_erase _ _ hb',
      ← Finset.add_sum_erase _ _ hb']
    have hrest : ∀ x ∈ (S.erase a).erase b, w x * exchange l a b x = w x * l x := by
      intro x hx
      simp only [Finset.mem_erase] at hx
      rw [exchange, Equiv.swap_apply_of_ne_of_ne hx.2.1 hx.1]
    rw [Finset.sum_congr rfl hrest]
    simp only [exchange, Equiv.swap_apply_left, Equiv.swap_apply_right]
    have : w a * l b + w b * l a ≤ w a * l a + w b * l b := by nlinarith
    omega

/-- The two items `a` and `b` of least weight can be taken as siblings at length `m + 1`: no more weighted length, and
still within Kraft's inequality. -/
theorem exists_siblings (w : Nat → Nat) {S : Finset Nat} {a b : Nat} (ha : a ∈ S) (hb : b ∈ S) (hab : a ≠ b)
    (hwab : w a ≤ w b) (hw : ∀ x ∈ S, x ≠ a → w b ≤ w x) (l : Nat → Nat) (hk : kraftSum l S ≤ 1) :
    ∃ (l' : Nat → Nat) (m : Nat), l' a = m + 1 ∧ l' b = m + 1 ∧ kraftSum l' S ≤ 1 ∧ cost w l' S ≤ cost w l S := by
  induction hn : ∑ x ∈ S, l x using Nat.strong_induction_on generalizing l with
  | _ n ih =>
    obtain ⟨x, hx, hmax⟩ := Finset.exists_max_image S l ⟨a, ha⟩
    have hwa : ∀ y ∈ S, w a ≤ w y := by
      intro y hy
      by_cases e : y = a
      · rw [e]
      · exact hwab.trans (hw y hy e)
    -- the greatest length is not 0, for two items of length 0 break Kraft's inequality
    have hpos : 0 < l x := by
      by_contra h0
      have hz : ∀ y ∈ S, l y = 0 := fun y hy => by have := hmax y hy; omega
      have hsub : ({a, b} : Finset Nat) ⊆ S := by
        intro y hy; simp only [Finset.mem_insert, Finset.mem_singleton] at hy; rcases hy with rfl | rfl <;> assumption
      have : kraftSum l {a, b} ≤ kraftSum l S := by
        apply Finset.sum_le_sum_of_subset_of_nonneg hsub
        intro y _ _; positivity
      rw [kraftSum, Finset.sum_pair hab, hz a ha, hz b hb] at this
      norm_num at this
      linarith
    by_cases hy : ∃ y ∈ S, y ≠ x ∧ l y = l x
    · obtain ⟨y, hy, hyx, hly⟩ := hy
      -- a to x's place, then b to the place of y, where y is now
      set l₁ := exchange l a x with hl₁
      have hy' : Equiv.swap a x y ∈ S := swap_mem ha hx hy
      set y' := Equiv.swap a x y with hy'def
      have hya : y' ≠ a := by
        intro e
        have := congrArg (Equiv.swap a x) e
        rw [hy'def, Equiv.swap_apply_self, Equiv.swap_apply_left] at this
        exact hyx this
      have hl₁a : l₁ a = l x := by rw [hl₁, exchange, Equiv.swap_apply_left]
      have hl₁y : l₁ y' = l x := by rw [hl₁, exchange, hy'def, Equiv.swap_apply_self, hly]
      have hl₁max : ∀ z ∈ S, l₁ z ≤ l x := by
        intro z hz
        rw [hl₁, exchange]
        exact hmax _ (swap_mem ha hx hz)
      refine ⟨exchange l₁ b y', l x - 1, ?_, ?_, ?_, ?_⟩
      · rw [exchange, Equiv.swap_apply_of_ne_of_ne hab hya.symm, hl₁a]; omega
      · rw [exchange, Equiv.swap_apply_left, hl₁y]; omega
      · rw [kraftSum_exchange _ hb hy', hl₁, kraftSum_exchange _ ha hx]; exact hk
      · refine (cost_exchange w l₁ hb hy' (hw y' hy' hya) (by rw [hl₁y]; exact hl₁max b hb)).trans ?_
        exact cost_exchange w l ha hx (hwa x hx) (hmax a ha)
    · -- x alone has the greatest length: the sum is below 1 by at least 2^-l x, so x can be one shorter
      push Not at hy
      set l₁ := Function.update l x (l x - 1) with hl₁
      have hrest : ∀ z ∈ S.erase x, l₁ z = l z := by
        intro z hz
        rw [hl₁, Function.update_of_ne (Finset.ne_of_mem_erase hz)]
      have hl₁x : l₁ x = l x - 1 := by rw [hl₁, Function.update_self]
      have hlt : ∀ z ∈ S.erase x, l z ≤ l x - 1 := by
        intro z hz
        rw [Finset.mem_erase] at hz
        have h₁ := hmax z hz.2
        have h₂ := hy z hz.2 hz.1
        omega
      -- in units of 2^-(l x - 1) the other items are a whole number
      have hint : ∃ N : Nat, kraftSum l (S.erase x) = N * (1 / 2 : ℚ) ^ (l x - 1) := by
        refine ⟨∑ z ∈ S.erase x, 2 ^ (l x - 1 - l z), ?_⟩
        rw [kraftSum, Nat.cast_sum, Finset.sum_mul]
        refine Finset.sum_congr rfl fun z hz => ?_
        have := hlt z hz
        rw [show (1 / 2 : ℚ) ^ (l x - 1) = (1 / 2) ^ (l x - 1 - l z) * (1 / 2) ^ l z by
          rw [← pow_add]; congr 1; omega]
        rw [← mul_assoc]
        have : ((2 ^ (l x - 1 - l z) : Nat) : ℚ) * (1 / 2) ^ (l x - 1 - l z) = 1 := by
          push_cast; rw [← mul_pow]; norm_num
        rw [this, one_mul]
      have hk₁ : kraftSum l₁ S ≤ 1 := by
        obtain ⟨N, hN⟩ := hint
        have e : kraftSum l S = (1 / 2 : ℚ) ^ l x + kraftSum l (S.erase x) := (Finset.add_sum_erase S _ hx).symm
        have e₁ : kraftSum l₁ S = (1 / 2 : ℚ) ^ l₁ x + kraftSum l₁ (S.erase x) := (Finset.add_sum_erase S _ hx).symm
        have e₂ : kraftSum l₁ (S.erase x) = kraftSum l (S.erase x) :=
          Finset.sum_congr rfl fun z hz => by rw [hrest z hz]
        rw [e₁, e₂, hl₁x, hN]
        rw [e, hN] at hk
        obtain ⟨M, hM⟩ : ∃ M, l x = M + 1 := ⟨l x - 1, by omega⟩
        rw [hM] at hk ⊢
        simp only [Nat.add_sub_cancel] at hk ⊢
        rw [pow_succ] at hk
        have hp : (0 : ℚ) < (1 / 2) ^ M := by positivity
        have h2 : (2 : ℚ) ^ M * (1 / 2) ^ M = 1 := by rw [← mul_pow]; norm_num
        -- N + 1/2 ≤ 2^M, so N + 1 ≤ 2^M
        have hNlt : (N : ℚ) < 2 ^ M := by
          by_contra hc
          push Not at hc
          have := mul_le_mul_of_nonneg_right hc hp.le
          rw [h2] at this
          nlinarith
        have hNle : N + 1 ≤ 2 ^ M := by exact_mod_cast hNlt
        have hNle' : (N : ℚ) + 1 ≤ 2 ^ M := by exact_mod_cast hNle
        have := mul_le_mul_of_nonneg_right hNle' hp.le
        rw [h2] at this
        linarith
      have hsum : ∑ z ∈ S, l₁ z < n := by
        have e₀ : ∑ z ∈ S.erase x, l₁ z = ∑ z ∈ S.erase x, l z := Finset.sum_congr rfl hrest
        have e₁ : l x + ∑ z ∈ S.erase x, l z = ∑ z ∈ S, l z := Finset.add_sum_erase S l hx
        have e₂ : l₁ x + ∑ z ∈ S.erase x, l₁ z = ∑ z ∈ S, l₁ z := Finset.add_sum_erase S l₁ hx
        omega
      have hcost : cost w l₁ S ≤ cost w l S := by
        refine Finset.sum_le_sum fun z hz => ?_
        by_cases e : z = x
        · subst e; rw [hl₁x]; exact Nat.mul_le_mul_left _ (Nat.sub_le _ _)
        · rw [hrest z (Finset.mem_erase.2 ⟨e, hz⟩)]
      obtain ⟨l', m, h₁, h₂, h₃, h₄⟩ := ih _ hsum l₁ hk₁ rfl
      exact ⟨l', m, h₁, h₂, h₃, h₄.trans hcost⟩

/-! ### The merges -/

theorem mergeUpTo_prefix (k : Nat) (f : Forest) (hn : ∀ g g' : Forest, g.merge = some g' → g.nodes <+: g'.nodes) :
    f.nodes <+: (f.mergeUpTo k).nodes := by
  induction k generalizing f with
  | zero => exact List.prefix_refl _
  | succ k ih =>
    rw [Forest.mergeUpTo]
    split
    · exact List.prefix_refl _
    · rename_i f' h
      exact (hn f f' h).trans (ih f')

theorem merge_prefix {f f' : Forest} (h : f.merge = some f') : f.nodes <+: f'.nodes := by
  simp only [Forest.merge] at h
  split at h
  · simp at h
  · split at h
    · simp at h
    · simp only [Option.some.injEq] at h; subst h; exact List.prefix_append _ _

theorem nodeAt_prefix {l l' : List NodeRec} (h : l <+: l') {n : Nat} (hn : n < l.length) : nodeAt l' n = nodeAt l n := by
  obtain ⟨r, rfl⟩ := h
  simp [nodeAt, List.getElem?_append_left hn]

/-- The last node is the one left when the collection has one element. -/
theorem ForestInv.last {seed : List NodeRec} {f : Forest} (hf : ForestInv seed f) (hpos : 0 < seed.length)
    (h1 : f.pq.length ≤ 1) : f.pq = [f.nodes.length - 1] := by
  have hne := List.length_pos_iff.2 hf.nonempty
  obtain ⟨x, hx⟩ := List.length_eq_one_iff.1 (show f.pq.length = 1 by omega)
  have hlast : f.nodes.length - 1 ∈ f.pq := by
    rw [hf.unmerged _ (by have := hf.long; omega)]
    intro j h₁ h₂
    have h₃ := hf.internal j h₁ h₂
    have := h₃.left_lt
    have := h₃.right_lt
    omega
  rw [hx] at hlast ⊢
  simp only [List.mem_singleton] at hlast
  rw [hlast]

/-- R106: however the lengths `l` of the nodes in the collection are chosen within Kraft's inequality, the depths `d`
the merges give them cost no more. -/
theorem ForestInv.depths_le {seed : List NodeRec} (hs : SeedOk seed) (k : Nat) {f : Forest} (hf : ForestInv seed f)
    (hk : f.pq.length ≤ k + 1) (d : Nat → Nat)
    (hd : ∀ j, seed.length ≤ j → j < (f.mergeUpTo k).nodes.length →
      d (leftNat (f.mergeUpTo k).nodes j) = d j + 1 ∧ d (rightNat (f.mergeUpTo k).nodes j) = d j + 1)
    (hroot : d ((f.mergeUpTo k).nodes.length - 1) = 0) (l : Nat → Nat) (hl : kraftSum l f.pq.toFinset ≤ 1) :
    cost (weightNat (f.mergeUpTo k).nodes) d f.pq.toFinset ≤ cost (weightNat (f.mergeUpTo k).nodes) l f.pq.toFinset := by
  have hpos : 0 < seed.length := List.length_pos_iff.2 hs.nonempty
  have base : ∀ g : Forest, ForestInv seed g → g.pq.length ≤ 1 → d (g.nodes.length - 1) = 0 →
      ∀ w l : Nat → Nat, cost w d g.pq.toFinset ≤ cost w l g.pq.toFinset := by
    intro g hg h1 h0 w l
    rw [hg.last hpos h1]
    simp [cost, h0]
  induction k generalizing f l with
  | zero => exact base f hf hk hroot _ l
  | succ k ih =>
    rw [Forest.mergeUpTo] at hd hroot ⊢
    cases h : f.merge with
    | none =>
      rw [h] at hroot
      exact base f hf (merge_eq_none h) hroot _ l
    | some f' =>
      simp only [h] at hd hroot ⊢
      obtain ⟨hf', hlen⟩ := hf.merge hs h
      obtain ⟨a, b, rest, hp, hnodes, hpq, hab, hrest⟩ := merge_spec hf.nodup h
      have hpre : f'.nodes <+: (f'.mergeUpTo k).nodes := mergeUpTo_prefix k f' fun g g' => merge_prefix
      set N := (f'.mergeUpTo k).nodes with hNdef
      set c := f.nodes.length with hc
      have hcl : c < f'.nodes.length := by rw [hnodes]; simp [hc]
      have hcN : c < N.length := lt_of_lt_of_le hcl hpre.length_le
      have hbound := hf.bound
      have hlong := hf.long
      have memp : ∀ x, x ∈ f.pq ↔ x = a ∨ x = b ∨ x ∈ rest := by
        intro x; rw [hp.mem_iff]; simp
      have ha : a < c := hbound a ((memp a).2 (.inl rfl))
      have hb : b < c := hbound b ((memp b).2 (.inr (.inl rfl)))
      have hsize := hf.size
      have hsl := hs.length_le
      have hnd := hp.nodup_iff.1 hf.nodup
      simp only [List.nodup_cons, List.mem_cons, not_or] at hnd
      have hcrest : c ∉ rest := fun hm => by have := hbound c ((memp c).2 (.inr (.inr hm))); omega
      -- the new node in the final table
      have hNc : nodeAt N c = joinNode f.nodes a b := by
        rw [nodeAt_prefix hpre hcl, hnodes]
        exact nodeAt_append_last _ _
      have hlt2 : c < 2 ^ 9 := by
        have := List.length_pos_iff.2 hf.nonempty
        omega
      have hleft : leftNat N c = a := by
        simp only [leftNat, hNc, joinNode, BitVec.toNat_ofNat]; exact Nat.mod_eq_of_lt (by omega)
      have hright : rightNat N c = b := by
        simp only [rightNat, hNc, joinNode, BitVec.toNat_ofNat]; exact Nat.mod_eq_of_lt (by omega)
      have hwN : ∀ x, x < c → weightNat N x = weightNat f.nodes x := by
        intro x hx
        have hpre' : f.nodes <+: N := (merge_prefix h).trans hpre
        simp only [weightNat, nodeAt_prefix hpre' hx]
      have hwc : weightNat N c = weightNat N a + weightNat N b := by
        have hi := hf'.internal c (by omega) hcl
        have hNf : ∀ x, x < f'.nodes.length → nodeAt N x = nodeAt f'.nodes x := fun x hx => nodeAt_prefix hpre hx
        have e₁ : leftNat f'.nodes c = a := by rw [← hleft]; simp only [leftNat, hNf c hcl]
        have e₂ : rightNat f'.nodes c = b := by rw [← hright]; simp only [rightNat, hNf c hcl]
        have := hi.weight
        rw [e₁, e₂] at this
        simp only [weightNat, hNf c hcl, hNf a (by omega), hNf b (by omega)]
        exact this
      have hdc := hd c (by omega) hcN
      rw [hleft, hright] at hdc
      -- the collection before and after
      have hS : f.pq.toFinset = insert a (insert b rest.toFinset) := by
        ext x; simp [memp]
      have hS' : f'.pq.toFinset = insert c rest.toFinset := by
        rw [hpq]; ext x; simp
      have haS : a ∉ insert b rest.toFinset := by simp [hnd.1.1, hnd.1.2]
      have hbS : b ∉ rest.toFinset := by simp [hnd.2.1]
      have hcS : c ∉ rest.toFinset := by simpa using hcrest
      have hle : ∀ {x y : Nat}, x < c → y < c → beforeIn f.nodes x y → weightNat N x ≤ weightNat N y := by
        intro x y hx hy h
        rw [hwN x hx, hwN y hy]
        rcases h with h | h
        · exact h.le
        · exact h.1.le
      obtain ⟨l', m, h₁, h₂, h₃, h₄⟩ := exists_siblings (weightNat N) (S := f.pq.toFinset) (a := a) (b := b)
        (by simp [memp]) (by simp [memp]) hnd.1.1 (hle ha hb hab)
        (by
          intro x hx hxa
          rw [List.mem_toFinset, memp] at hx
          rcases hx with rfl | rfl | hx
          · exact absurd rfl hxa
          · exact le_rfl
          · exact hle hb (hbound x ((memp x).2 (.inr (.inr hx)))) (hrest x hx)) l hl
      have hrestl : ∀ x ∈ rest.toFinset, Function.update l' c m x = l' x := by
        intro x hx
        rw [Function.update_of_ne]
        rintro rfl
        exact hcS hx
      have hk' : kraftSum (Function.update l' c m) f'.pq.toFinset ≤ 1 := by
        refine le_of_eq_of_le ?_ h₃
        rw [kraftSum, kraftSum, hS, hS', Finset.sum_insert haS, Finset.sum_insert hbS, Finset.sum_insert hcS,
          Function.update_self, h₁, h₂, Finset.sum_congr rfl fun x hx => by rw [hrestl x hx]]
        rw [pow_succ]; ring
      have := ih hf' (by omega) hd hroot _ hk'
      have eu : ∑ x ∈ rest.toFinset, weightNat N x * Function.update l' c m x =
          ∑ x ∈ rest.toFinset, weightNat N x * l' x := Finset.sum_congr rfl fun x hx => by rw [hrestl x hx]
      refine le_trans ?_ h₄
      rw [cost, cost, hS, Finset.sum_insert haS, Finset.sum_insert hbS, Finset.sum_insert haS, Finset.sum_insert hbS]
      rw [cost, cost, hS', Finset.sum_insert hcS, Finset.sum_insert hcS, Function.update_self,
        ← hNdef, eu, hwc] at this
      rw [hdc.1, hdc.2, h₁, h₂]
      nlinarith

end Sys2Proof.Machine
end

