-- ==== Sys2Proof/Laws/PerInstr.lean ====
section
/-! SUPPORT. Facts about every command as syntax, one lemma per constructor: its encoding is the word of its fields, and
it is well-formed (30_encoding.md R73 to R78). -/

namespace Sys2Proof.Laws.EncodingFields

/-- The encoding of a command is `(operand << 8) | OP` with RSV = 0, the word of its fields; taking the word apart gives
the fields back; and the fields are legal. -/
def Statement (i : Instr) : Prop :=
  encode i = i.fields.word ∧ fieldsOf (encode i) = i.fields ∧ i.wellFormed = true

theorem nop : Statement .nop := ⟨by decide +kernel, by decide +kernel, by decide +kernel⟩
theorem softReset : Statement .softReset := ⟨by decide +kernel, by decide +kernel, by decide +kernel⟩
theorem clrErr : Statement .clrErr := ⟨by decide +kernel, by decide +kernel, by decide +kernel⟩
theorem freqClear : Statement .freqClear := ⟨by decide +kernel, by decide +kernel, by decide +kernel⟩
theorem freqInc (sym : Symbol) : Statement (.freqInc sym) := by
  unfold Statement; revert sym; decide +kernel
theorem build : Statement .build := ⟨by decide +kernel, by decide +kernel, by decide +kernel⟩
theorem encSym (sym : Symbol) : Statement (.encSym sym) := by
  unfold Statement; revert sym; decide +kernel
theorem decReset : Statement .decReset := ⟨by decide +kernel, by decide +kernel, by decide +kernel⟩
theorem decBit (bit : Bool) : Statement (.decBit bit) := by
  unfold Statement; revert bit; decide +kernel
theorem decSym : Statement .decSym := ⟨by decide +kernel, by decide +kernel, by decide +kernel⟩
theorem decFinish : Statement .decFinish := ⟨by decide +kernel, by decide +kernel, by decide +kernel⟩

end Sys2Proof.Laws.EncodingFields

namespace Sys2Proof.Laws

/-- The operands' types carry their bounds, so every command is well-formed. -/
theorem instr_wellFormed (i : Instr) : i.wellFormed = true := by
  cases i with
  | nop => exact EncodingFields.nop.2.2
  | softReset => exact EncodingFields.softReset.2.2
  | clrErr => exact EncodingFields.clrErr.2.2
  | freqClear => exact EncodingFields.freqClear.2.2
  | freqInc s => exact (EncodingFields.freqInc s).2.2
  | build => exact EncodingFields.build.2.2
  | encSym s => exact (EncodingFields.encSym s).2.2
  | decReset => exact EncodingFields.decReset.2.2
  | decBit b => exact (EncodingFields.decBit b).2.2
  | decSym => exact EncodingFields.decSym.2.2
  | decFinish => exact EncodingFields.decFinish.2.2

end Sys2Proof.Laws
end

