-- ==== Sys2Proof/Tests/Slice0.lean ====
section
/-! SUPPORT. The model's own tests: well-formedness checks that refuse an ill-formed term, words written out from the
spec's encodings, the spec's vectors (95_test_vectors.md), and for every statement with hypotheses a concrete witness
that meets them together. -/

namespace Sys2Proof.Tests

open Sys2Proof.Machine

set_option Elab.async false

/-! ### Helpers -/

/-- A machine right after reset with these counts, all other counts 0. -/
def counted (l : List (Nat × Nat)) : State :=
  { State.reset with
    mem := { State.reset.mem with
      freq := (List.range 256).map fun k => (k, BitVec.ofNat 32 ((l.lookup k).getD 0)) } }

/-- The counts of "abracadabra" (V-BLD-1). -/
def ab : State := counted [(0x61, 5), (0x62, 2), (0x63, 1), (0x64, 1), (0x72, 2)]

/-- The counts of "aaaa" (V-BLD-8). -/
def aaaa : State := counted [(0x61, 4)]

/-- The tree and the codes of "abracadabra" as V-BLD-1 lists them. -/
def abTree : State :=
  { State.reset with
    tree := ⟨true, 5, 8⟩
    dec := ⟨8, false, 0⟩
    mem := { State.reset.mem with
      node := [(0, ⟨true, 0x61, 5, 0, 0⟩), (1, ⟨true, 0x62, 2, 0, 0⟩), (2, ⟨true, 0x63, 1, 0, 0⟩),
        (3, ⟨true, 0x64, 1, 0, 0⟩), (4, ⟨true, 0x72, 2, 0, 0⟩), (5, ⟨false, 0, 2, 2, 3⟩), (6, ⟨false, 0, 4, 1, 4⟩),
        (7, ⟨false, 0, 6, 5, 6⟩), (8, ⟨false, 0, 11, 0, 7⟩)]
      code := [(0x60, CodeEntry.ofCode []), (0x61, CodeEntry.ofCode [false]),
        (0x62, CodeEntry.ofCode [true, true, false]), (0x63, CodeEntry.ofCode [true, false, false]),
        (0x64, CodeEntry.ofCode [true, false, true]), (0x72, CodeEntry.ofCode [true, true, true])] } }

/-- The single-leaf tree of "aaaa" (V-BLD-8). -/
def aaaaTree : State :=
  { State.reset with
    tree := ⟨true, 1, 0⟩
    mem := { State.reset.mem with
      node := [(0, ⟨true, 0x61, 4, 0, 0⟩)]
      code := [(0x61, CodeEntry.ofCode [false])] } }

/-- A machine whose BITMEM word 0 holds `v`, with the decoder at `p` of `e` bits. -/
def stream (s : State) (v : Word) (p e : Nat) : State :=
  { s.bitWriteFrom 0 (bitsOfWord v) with
    ptr := { s.ptr with decPtr := BitVec.ofNat 19 p, decEnd := BitVec.ofNat 19 e } }

/-- The stream of V-ENC-1 under its tree. -/
def abStream (p e : Nat) : State := stream abTree 0x6E8ADC00 p e

/-- The machine with its cursor at node `n`. -/
def atNode (s : State) (n : Nat) : State := { s with dec := { s.dec with cursor := BitVec.ofNat 9 n } }

/-- The machine with this error recorded. -/
def failed (s : State) (c : ErrCode) (i : Word) : State := s.raise c i

/-- The machine with the command word just accepted and the sequencer's turn. -/
def pending (s : State) (w : Nat) : State := s.withFetchWord 32 w

/-- The machine with these inputs for the host to perform. -/
def hosted (s : State) (l : List Input) : State := { s with env := { s.env with host := l } }

/-- What a part of the state is after an outcome that goes on. -/
def after {α : Type} (o : Host.Outcome State Fault Refusal) (f : State → α) : Option α :=
  match o with
  | .next t => some (f t)
  | .fault _ => none
  | .refused _ => none

/-- The error registers. -/
def errorOf (t : State) : Bool × ErrCode × Word := (t.error.err, t.error.code, t.error.info)

/-! ### Well-formedness refuses ill-formed terms (R7, R73, R74, R76, R81) -/

theorem test_wellFormed_unassigned_op : Fields.wellFormed ⟨0x05, 0, 0⟩ = false := by decide
theorem test_opAssigned_refuses : Fields.opAssigned ⟨0x34, 0, 0⟩ = false := by decide
theorem test_operandFits_refuses_n : Fields.operandFits ⟨0x00, 1, 0⟩ = false := by decide
theorem test_operandFits_refuses_b : Fields.operandFits ⟨0x31, 2, 0⟩ = false := by decide
theorem test_wellFormed_bad_operand : Fields.wellFormed ⟨0x10, 0xFF, 0⟩ = false := by decide
theorem test_reservedZero_refuses : Fields.reservedZero ⟨0x20, 0x61, 1⟩ = false := by decide
theorem test_wellFormed_bad_rsv : Fields.wellFormed ⟨0x20, 0x61, 0x8000⟩ = false := by decide
theorem test_wellFormed_accepts : Fields.wellFormed ⟨0x20, 0xFF, 0⟩ = true := by decide
theorem test_params_too_small : Params.wellFormed ⟨4⟩ = false := by decide
theorem test_params_too_large : Params.wellFormed ⟨19⟩ = false := by decide
theorem test_params_bounds : Params.wellFormed ⟨5⟩ = true ∧ Params.wellFormed ⟨18⟩ = true := by decide

/-! ### Words written out from R74, R75, R76 and R78 decode to their commands -/

theorem test_decode_nop : decode 0b00000000000000000000000000000000 = .ok .nop := by decide +kernel
theorem test_decode_softReset : decode 0b00000000000000000000000000000001 = .ok .softReset := by decide +kernel
theorem test_decode_clrErr : decode 0b00000000000000000000000000000010 = .ok .clrErr := by decide +kernel
theorem test_decode_freqClear : decode 0b00000000000000000000000000000011 = .ok .freqClear := by decide +kernel
theorem test_decode_freqInc : decode 0b00000000000000000110000100000100 = .ok (.freqInc 0x61) := by decide +kernel
theorem test_decode_build : decode 0b00000000000000000000000000010000 = .ok .build := by decide +kernel
theorem test_decode_encSym : decode 0b00000000000000001111111100100000 = .ok (.encSym 0xFF) := by decide +kernel
theorem test_decode_decReset : decode 0b00000000000000000000000000110000 = .ok .decReset := by decide +kernel
theorem test_decode_decBit_0 : decode 0b00000000000000000000000000110001 = .ok (.decBit false) := by decide +kernel
theorem test_decode_decBit_1 : decode 0b00000000000000000000000100110001 = .ok (.decBit true) := by decide +kernel
theorem test_decode_decSym : decode 0b00000000000000000000000000110010 = .ok .decSym := by decide +kernel
theorem test_decode_decFinish : decode 0b00000000000000000000000000110011 = .ok .decFinish := by decide +kernel
theorem test_decode_illegal_freqInc : decode 0x00016104 = .error .reservedBits := by decide +kernel
theorem test_decode_illegal_op : decode 0x000000FF = .error .unassignedOp := by decide +kernel
theorem test_decodeTableWord : decodeTableWord 32 0x7120 = some (.encSym 0x71) ∧ decodeTableWord 32 5 = none := by
  decide +kernel

/-! ### A step runs the word that withFetchWord places -/

theorem test_step_runs_the_word :
    after (step (State.reset.withFetchWord 32 0x00000002)) (fun t => (t.cmd, t.irq.done)) =
      some (⟨false, 0, 2⟩, true) := by decide +kernel

/-- V-CTL-3: the lock-out lets the OP through, the word is illegal, and the later error overwrites. -/
theorem test_step_illegal_word : after (step (pending (failed State.reset .unknownSymbol 0x7A) 0x00000102)) errorOf =
    some (true, .illegalCommand, 0x00000102) := by decide +kernel

/-! ### Commands, one step each (the vectors named) -/

/-- V-CTL-1. -/
theorem test_nop_keeps_the_error : after (step (pending (failed State.reset .emptyInput 0) 0))
    (fun t => (errorOf t, t.irq.done)) = some ((true, .emptyInput, 0), true) := by decide +kernel

/-- V-CTL-10. -/
theorem test_softReset : after (step (pending
      { failed (stream abTree 0x6E8ADC00 1 2) .noTree 1 with irq := ⟨false, true, true⟩ } 1))
    (fun t => (t.statusWord, t.ptr, t.tree, t.cmd.lastCmd, t.irq, t.bitmemWord 0)) =
      some (0, ⟨0, 0, 0, 0⟩, ⟨false, 0, 0⟩, 0, ⟨true, true, true⟩, 0x6E8ADC00) := by decide +kernel

/-- V-CTL-8. -/
theorem test_clrErr : after (exec .clrErr { State.reset with error := ⟨true, .unknownSymbol, 0x7A, true⟩ })
    (fun t => t.error) = some ⟨false, .none, 0, false⟩ := by decide +kernel

/-- V-FRQ-1, at the first and the last symbol. -/
theorem test_freqClear : after (exec .freqClear ab) (fun t => (t.freqRead 0x00, t.freqRead 0x61, t.freqRead 0xFF)) =
    some (0, 0, 0) := by decide +kernel

/-- V-FRQ-3. -/
theorem test_freqInc_to_the_top : after (exec (.freqInc 0x61) (counted [(0x61, 0xFFFFFFFE)]))
    (fun t => (t.freqRead 0x61, t.error.err)) = some (0xFFFFFFFF, false) := by decide +kernel

/-- V-FRQ-4. -/
theorem test_freqInc_overflow : after (exec (.freqInc 0x61) (counted [(0x61, 0xFFFFFFFF)]))
    (fun t => (t.freqRead 0x61, errorOf t)) = some (0xFFFFFFFF, (true, .freqOverflow, 0x61)) := by decide +kernel

/-- V-BLD-1: the root, words 1 and 3 of nodes 5 to 8 in the NODE window, and the codes. -/
theorem test_build_abracadabra : after (exec .build ab) (fun t =>
      (t.tree, [5, 6, 7, 8].map fun n => (nodeWord (t.nodeRead n) 1, nodeWord (t.nodeRead n) 3))) =
    some (⟨true, 5, 8⟩, [(2, 0x00030002), (4, 0x00040001), (6, 0x00060005), (11, 0x00070000)]) := by decide +kernel

/-- V-BLD-1: the codes, from the node table of the vector. -/
theorem test_codes_abracadabra : codesOf (abTree.mem.node.map (·.2)) 8 =
    [(0x61, [false]), (0x63, [true, false, false]), (0x64, [true, false, true]), (0x62, [true, true, false]),
     (0x72, [true, true, true])] := by decide +kernel

/-- V-ENC-1, row 2. -/
theorem test_encSym : after (exec (.encSym 0x62) { stream abTree 0 0 0 with ptr := ⟨1, 0, 0, 0⟩ })
    (fun t => (t.ptr.encPtr, t.ptr.lastLen, t.bitmemWord 0)) = some (4, 3, 0x60000000) := by decide +kernel

/-- R107: a code that ends exactly at BITMEM_BITS fits; one bit later it does not (R109). -/
theorem test_encSym_at_the_end :
    after (exec (.encSym 0x62) { abTree with ptr := ⟨65533, 0, 0, 0⟩ }) (fun t => (t.ptr.encPtr, errorOf t)) =
      some (65536, (false, .none, 0)) ∧
    after (exec (.encSym 0x62) { abTree with ptr := ⟨65534, 0, 0, 0⟩ }) (fun t => (t.ptr.encPtr, errorOf t)) =
      some (65534, (true, .bitmemOverflow, 0x62)) := by decide +kernel

/-- V-DEC-13. -/
theorem test_decReset : after (exec .decReset (atNode abTree 7)) (fun t => (t.dec.cursor, t.atRoot)) =
    some (8, true) := by decide +kernel

/-- V-DEC-2: to an internal node, and to a leaf. -/
theorem test_decBit : after (exec (.decBit true) abTree) (fun t => (t.dec.cursor, t.dec.symValid)) = some (7, false) ∧
    after (exec (.decBit false) (atNode abTree 5)) (fun t => t.dec) = some ⟨8, true, 0x63⟩ := by decide +kernel

/-- V-DEC-10. -/
theorem test_decBit_single_leaf : after (exec (.decBit true) aaaaTree) (fun t => (t.dec, t.statusWord)) =
    some (⟨0, true, 0x61⟩, 0x0000001E) := by decide +kernel

/-- V-DEC-7: from node 7, bits 9 and 10. -/
theorem test_decSym_from_the_cursor : after (exec .decSym (atNode (abStream 9 23) 7))
    (fun t => (t.dec, t.ptr.decPtr)) = some (⟨8, true, 0x63⟩, 11) := by decide +kernel

/-- V-DEC-4 and V-DEC-5. -/
theorem test_decSym_fails :
    after (exec .decSym (abStream 19 21)) (fun t => (errorOf t, t.ptr.decPtr, t.dec.cursor)) =
      some ((true, .malformedBitstream, 2), 19, 8) ∧
    after (exec .decSym (abStream 23 23)) errorOf = some (true, .malformedBitstream, 3) := by decide +kernel

/-- V-DEC-3. -/
theorem test_decFinish : after (exec .decFinish (atNode abTree 6)) (fun t => (errorOf t, t.dec.cursor)) =
    some ((true, .malformedBitstream, 2), 6) := by decide +kernel

/-! ### The port -/

/-- V-BUS-2, V-BUS-5, at the default parameter. -/
theorem test_bus_errors : [0x0002, 0x0100, 0x0C00, 0x3000, 0x6000, 0xA000].map
      (fun a => (State.reset.busRead (BitVec.ofNat 16 a)).1) = List.replicate 6 (.read true 0) := by decide +kernel

/-- V-BUS-6. -/
theorem test_bitmem_last_word : locate ⟨18⟩ 0xFFFC = some (.bitmem 8191) := by decide +kernel

/-- V-BUS-14: a busy-class write is discarded. -/
theorem test_busy_write : ((pending State.reset 0x10).busWrite 0x030 5).1 = .write false ∧
    ((pending State.reset 0x10).busWrite 0x030 5).2.ptr.encPtr = 0 ∧
    ((pending State.reset 0x10).busWrite 0x030 5).2.error.dropped = true := by decide +kernel

/-- R49: an access with a strobe not set is refused, one with all four set is the plain access. -/
theorem test_strobes : (State.reset.strobedWrite 0x7 0x024 3).1 = .write true ∧
    (State.reset.strobedWrite 0x7 0x024 3).2.irq.doneIe = false ∧
    (State.reset.strobedWrite 0xF 0x024 3).2.irq.doneIe = true := by decide +kernel

/-- R62, R65: byte lanes and offsets from the base address. -/
theorem test_lanes_and_base : byteLane 0x48544200 1 = 0x42 ∧ offsetOf 0x40000000 0x40000014 = some 0x014 ∧
    offsetOf 0x40000000 0x40010000 = none := by decide +kernel

/-- V-CTL-13: two CMD writes; the tape decides whether the second finds BUSY = 1. -/
theorem test_race_sequencer_first : after (Host.Core.run Sys2Proof.core 4
      { hosted State.reset [issueInput .nop, issueInput .clrErr] with env := ⟨[issueInput .nop, issueInput .clrErr],
        [.host, .sequencer], none, 0, 0⟩ })
    (fun t => (t.cmd.lastCmd, t.error.dropped)) = some (2, false) := by decide +kernel

theorem test_race_host_first : after (Host.Core.run Sys2Proof.core 3
      { State.reset with env := ⟨[issueInput .nop, issueInput .clrErr], [.host, .host], none, 0, 0⟩ })
    (fun t => (t.cmd.lastCmd, t.error.dropped)) = some (0, true) := by decide +kernel

/-- R84, R85: a command line's two host operations, and LOADFREQ's 256 writes. -/
theorem test_script : Line.inputs (.command (.freqInc 0x61)) = [.write 0x010 0x00006104, .wait] ∧
    (Line.inputs (.loadFreq [(0x61, 5)])).length = 256 := by decide +kernel

/-! ### Witnesses: for every statement with hypotheses, a concrete state and operands that meet them together -/

theorem find_range' (f : Nat → Word) (k : Nat) : ∀ n lo, lo ≤ k → k < lo + n →
    Memory.find ((List.range' lo n).map fun j => (j, f j)) k = some (f k) := by
  intro n
  induction n with
  | zero => omega
  | succ n ih =>
    intro lo h₁ h₂
    rw [List.range'_succ, List.map_cons, Memory.find]
    by_cases h : k = lo
    · rw [if_pos h, h]
    · rw [if_neg h, if_neg (by omega), ih (lo + 1) (by omega) (by omega)]

/-- The counts of `counted`, without a search. -/
theorem counted_freqRead (l : List (Nat × Nat)) (k : Symbol) :
    (counted l).freqRead k = BitVec.ofNat 32 ((l.lookup k.toNat).getD 0) := by
  unfold State.freqRead counted
  simp only [List.range_eq_range']
  rw [find_range' (fun k => BitVec.ofNat 32 ((l.lookup k).getD 0)) _ _ _ (Nat.zero_le _) (by have := k.isLt; omega),
    Option.getD_some]

theorem counted_leafCount (l : List (Nat × Nat)) : (counted l).leafCount =
    (allSymbols.filter fun k => BitVec.ofNat 32 ((l.lookup k.toNat).getD 0) ≠ 0).length := by
  simp only [State.leafCount, counted_freqRead]

theorem ab_counted : ∃ k, ab.freqRead k ≠ 0 := ⟨0x61, by decide +kernel⟩

theorem ab_leafCount : ab.leafCount = 5 := by
  rw [ab, counted_leafCount]
  decide +kernel

/-- The machine BUILD leaves from the counts of "abracadabra". -/
def abBuilt : State := ab.commitBuild

/-- A machine with these bits in BITMEM and the decoder at their start. -/
def recorded (s : State) (bs : List Bool) : State :=
  { s.bitWriteFrom 0 bs with ptr := ⟨0, 0, BitVec.ofNat 19 bs.length, 0⟩ }

/-- That machine with a text's code in BITMEM and the decoder at its start. -/
def abRecorded (text : List Symbol) : State := recorded abBuilt (abBuilt.codeOfText text)

/-- The control part of the invariant, right after reset. -/
theorem reset_controlInv : State.reset.ControlInv := by
  refine ⟨?_, ?_, ?_, ?_, ?_, rfl⟩ <;> simp [State.reset, ErrorState.reset, CommandState.reset]

/-- A machine with a tree of five leaves meets the invariant. -/
theorem witness_built_inv : abBuilt.Inv where
  tree := commitBuild_treeInv ab ab_counted
  code := commitBuild_codeInv ab ab_counted
  mem := (Committed.build ab_counted).mem ⟨by decide +kernel, rfl, rfl, rfl⟩
  control := reset_controlInv.congr rfl rfl ⟨rfl, rfl, rfl⟩

theorem abBuilt_codes (k : Symbol) (h : ab.freqRead k ≠ 0) : (abBuilt.codeRead k).len ≠ 0 :=
  (commitBuild_len_ne_zero ab ab_counted k).2 h

theorem length_code_two (s : State) (k k' : Symbol) : (s.codeOfText [k, k']).length ≤ 510 := by
  have h₁ := (s.codeRead k).len.isLt
  have h₂ := (s.codeRead k').len.isLt
  simp only [State.codeOfText, List.flatMap_cons, List.flatMap_nil, List.length_append, CodeEntry.length_code,
    List.length_nil]
  omega

theorem length_ab_code : (abBuilt.codeOfText [0x61, 0x62]).length ≤ 510 := length_code_two abBuilt 0x61 0x62

/-- Recording bits leaves the tree and the codes; the decoder finds the bits and their end. -/
theorem recorded_node (s : State) (bs : List Bool) : (recorded s bs).mem.node = s.mem.node := rfl
theorem recorded_code (s : State) (bs : List Bool) : (recorded s bs).mem.code = s.mem.code := rfl

theorem recorded_codeRead (s : State) (bs : List Bool) (k : Symbol) :
    (recorded s bs).codeRead k = s.codeRead k := rfl

theorem recorded_codeOfText (s : State) (bs : List Bool) (text : List Symbol) :
    (recorded s bs).codeOfText text = s.codeOfText text := rfl

theorem recorded_decPtr (s : State) (bs : List Bool) : (recorded s bs).ptr.decPtr.toNat = 0 := rfl

theorem recorded_decEnd (s : State) (bs : List Bool) (h : bs.length ≤ 510) :
    (recorded s bs).ptr.decEnd.toNat = bs.length := by
  change (BitVec.ofNat 19 _).toNat = _
  rw [BitVec.toNat_ofNat]
  exact Nat.mod_eq_of_lt (by omega)

theorem recorded_holds (s : State) (bs : List Bool) : (recorded s bs).holdsAt 0 bs := by
  intro i h
  change (s.bitWriteFrom 0 bs).bitRead (0 + i) = _
  rw [State.bitRead, State.bitWriteFrom_mem]
  simp only
  rw [Memory.find_writeFrom_inside _ _ _ _ h, Option.getD_some]

theorem abRecorded_inv : (abRecorded [0x61, 0x62]).Inv := by
  obtain ⟨h₁, h₂⟩ := State.tree_congr (t := abRecorded [0x61, 0x62]) witness_built_inv.tree witness_built_inv.code
    rfl rfl (recorded_node _ _) (recorded_code _ _) rfl
  refine ⟨h₁, h₂, ?_, witness_built_inv.control.congr rfl rfl ⟨rfl, rfl, rfl⟩⟩
  have hb : (0 : Nat) + (abBuilt.codeOfText [0x61, 0x62]).length ≤ abBuilt.bitmemBits := by
    have := length_ab_code
    have : abBuilt.bitmemBits = 65536 := rfl
    omega
  exact (witness_built_inv.mem.bitWriteFrom hb).congr rfl rfl

/-! Encoding -/

theorem witness_DecodeAndEncodeAreInverse : (Instr.encSym 0xFF).wellFormed = true ∧
    decode 0x0000FF20 = .ok (.encSym 0xFF) := by decide +kernel

theorem witness_DecodingIsUnambiguousAndStrict :
    (⟨"NOP", 0x00, .n, 0x00000000, 0xFFFFFFFF⟩ : Row) ∈ opcodeMap ∧ (0 : Word) &&& 0xFFFFFFFF = 0x00000000 := by
  decide +kernel

/-! Reset and the life of a command -/

/-- A DEC_BIT is pending and the tape lets the host reset first: alone, and with a read and a write on the port. -/
def resetting (i : Input) : State :=
  { pending abTree 0x0131 with env := ⟨[i], [.host, .sequencer], none, 0, 0⟩ }

theorem witness_HardwareResetAtAnyMoment : [.hardReset, .hardResetDuring false, .hardResetDuring true].all (fun i =>
    (resetting i).cmd.busy && (resetting i).mover == some .host && (resetting i).env.host == [i]) = true := by
  decide +kernel

/-- R122: busy; locked out by the least OP it discards; free; exempt with the greatest OP it lets through. -/
theorem witness_CommandWordIsAcceptedOrDropped :
    (pending State.reset 0x10).cmd.busy = true ∧
    ((failed State.reset .noTree 0).cmd.busy = false ∧ (failed State.reset .noTree 0).error.err = true ∧
      (3 : Word).extractLsb' 0 8 ≠ 0 ∧ (3 : Word).extractLsb' 0 8 ≠ 1 ∧ (3 : Word).extractLsb' 0 8 ≠ 2) ∧
    (State.reset.cmd.busy = false ∧ State.reset.error.err = false) ∧
    ((failed State.reset .noTree 0).cmd.busy = false ∧ (0x102 : Word).extractLsb' 0 8 = 2) ∧
    (0x102 : Word).extractLsb' 8 24 ≠ 0 := by decide +kernel

/-- Also for CompletionEndsEveryCommand. -/
theorem witness_StepRunsThePendingCommand : (pending abTree 0x0131).mover = some .sequencer ∧
    (pending abTree 0x0131).cmd.busy = true ∧ decode (pending abTree 0x0131).cmd.pending = .ok (.decBit true) := by
  decide +kernel

/-- A command is pending and the host has an input, not a reset, and the first turn; and the same with a reset. -/
theorem witness_PendingCommandIsNotLeftPending :
    ((resetting (.read 0x014)).cmd.busy = true ∧
      ∀ i ∈ (resetting (.read 0x014)).env.host, i ≠ .hardReset ∧ ∀ isWrite, i ≠ .hardResetDuring isWrite) ∧
    (resetting .hardReset).cmd.busy = true := by decide +kernel

theorem witness_IllegalWordFailsWithItself : (pending abTree 0x0231).mover = some .sequencer ∧
    decode (pending abTree 0x0231).cmd.pending = .error .reservedBits := by decide +kernel

/-- Each agent, none, and each kind of input; strobes all set and one missing; a WAIT with BUSY = 1 and with BUSY = 0. -/
theorem witness_StepIsOneAgentsMove : (pending State.reset 0).mover = some .sequencer ∧ State.reset.mover = none ∧
    [.read 0x400, .write 0x400 1, .strobedRead 0xF 0x400, .strobedRead 0xE 0x400, .strobedWrite 0xF 0x400 1,
      .strobedWrite 0x7 0x400 1, .wait, .hardReset, .hardResetDuring true, .hardResetDuring false].all (fun i =>
        (hosted State.reset [i]).mover == some .host && (hosted State.reset [i]).env.host == [i]) = true ∧
    (resetting .wait).mover = some .host ∧ (resetting .wait).cmd.busy = true ∧
    (hosted State.reset [.wait]).cmd.busy = false := by decide +kernel

theorem witness_FailureChangesOnlyTheErrorState :
    exec .build (counted []) = .next ((counted []).raise .emptyInput 0) ∧
    ((counted []).raise .emptyInput 0).error ≠ (counted []).error := by
  constructor
  · exact exec_build_empty _ fun k => by rw [counted_freqRead]; rfl
  · decide +kernel

/-- Every row of the error table is reached: the errors of the other commands. -/
theorem witness_ErrorsAreThoseOfTheTable :
    after (exec (.encSym 0x60) abTree) errorOf = some (true, .unknownSymbol, 0x60) ∧
    after (exec (.decBit true) (atNode abTree 4)) errorOf = some (true, .malformedBitstream, 1) ∧
    after (exec .decSym (atNode (abStream 0 23) 4)) errorOf = some (true, .malformedBitstream, 1) ∧
    after (exec (.encSym 0x60) State.reset) errorOf = some (true, .noTree, 0x20) ∧
    after (exec (.decBit false) State.reset) errorOf = some (true, .noTree, 0x31) ∧
    after (exec .decSym State.reset) errorOf = some (true, .noTree, 0x32) ∧
    after (exec .decFinish State.reset) errorOf = some (true, .noTree, 0x33) := by decide +kernel

theorem witness_SecondFailureCanOnlyBeIllegalCommand :
    (pending (failed State.reset .noTree 0x20) 0x102).Inv ∧
    (pending (failed State.reset .noTree 0x20) 0x102).error.err = true ∧
    (pending (failed State.reset .noTree 0x20) 0x102).mover = some .sequencer ∧
    ∃ t, step (pending (failed State.reset .noTree 0x20) 0x102) = .next t := by
  refine ⟨⟨.ofNoTree rfl rfl, .ofNoTree rfl, ⟨rfl, rfl, rfl, rfl⟩, ?_⟩, rfl, rfl, ?_⟩
  · constructor <;> decide +kernel
  · rcases step_cases (pending (failed State.reset .noTree 0x20) 0x102) with ⟨-, u, -, h⟩ | ⟨-, h⟩ | ⟨-, h⟩ <;>
      exact ⟨_, h⟩

/-! Invariants -/

/-- A sequencer step from a built tree, whose successor the invariant is about. -/
theorem witness_EveryStepKeepsTheInvariant : (pending abBuilt 0x0131).Inv ∧ ∃ t, step (pending abBuilt 0x0131) = .next t := by
  obtain ⟨h₁, h₂⟩ := State.tree_congr (t := pending abBuilt 0x0131) witness_built_inv.tree witness_built_inv.code
    rfl rfl rfl rfl rfl
  refine ⟨⟨h₁, h₂, witness_built_inv.mem.congr rfl rfl, ?_⟩, ?_⟩
  · refine ⟨fun _ => ⟨rfl, rfl⟩, fun h => ?_, fun h => ?_, fun _ => rfl, fun _ h => ?_, rfl⟩
    · exact absurd h (by rw [show (pending abBuilt 0x0131).error.err = false from rfl]; simp)
    · exact absurd h (by rw [show (pending abBuilt 0x0131).cmd.busy = true from rfl]; simp)
    · exact absurd h (by rw [show (pending abBuilt 0x0131).error.err = false from rfl]; simp)
  · rcases step_cases (pending abBuilt 0x0131) with ⟨-, u, -, h⟩ | ⟨-, h⟩ | ⟨-, h⟩ <;> exact ⟨_, h⟩

/-- The counts of "abracadabra" over a code table that has no code for 'a'. -/
def uncoded : State := { ab with mem := { ab.mem with code := [(0x61, CodeEntry.ofCode [])] } }

theorem witness_OnlyBuildWritesNodesAndCodes : ∃ t, step (pending uncoded 0x10) = .next t ∧
    t.codeRead 0x61 ≠ (pending uncoded 0x10).codeRead 0x61 := by
  have h : ∃ k, (pending uncoded 0x10).freqRead k ≠ 0 := ab_counted
  have hd : decode (pending uncoded 0x10).cmd.pending = .ok .build := by decide +kernel
  refine ⟨(pending uncoded 0x10).commitBuild.complete.turnTaken, ?_, fun e => ?_⟩
  · rw [step, show (pending uncoded 0x10).mover = some .sequencer from rfl]
    simp only [State.execute, State.outcome, hd, exec_build_eq _ h, onNext_next]
  · refine (commitBuild_len_ne_zero (pending uncoded 0x10) h 0x61).2 (by decide +kernel) ?_
    exact (congrArg CodeEntry.len e).trans (by decide +kernel)

theorem witness_OnlyTheseWriteCountsAndStreamBits :
    (∃ t, step (hosted ab [.write 0x0584 7]) = .next t ∧ t.freqRead 0x61 ≠ (hosted ab [.write 0x0584 7]).freqRead 0x61) ∧
    ∃ t, step (hosted (abStream 0 0) [.write 0x8000 0]) = .next t ∧
      t.bitRead 1 ≠ (hosted (abStream 0 0) [.write 0x8000 0]).bitRead 1 := by
  constructor
  · exact ⟨_, rfl, by decide +kernel⟩
  · exact ⟨_, rfl, by decide +kernel⟩

/-! The frequency table and BUILD -/

/-- The greatest count that still fits, and the one that does not. -/
theorem witness_FreqIncAddsOneOrOverflows : (counted [(0x61, 0xFFFFFFFE)]).freqRead 0x61 ≠ 0xFFFFFFFF ∧
    (counted [(0x61, 0xFFFFFFFF)]).freqRead 0x61 = 0xFFFFFFFF := by decide +kernel

theorem witness_CountingATextGivesItsCounts : ([0x61, 0x62, 0x61] : List Symbol).length < 2 ^ 32 := by decide

theorem witness_BuildOnEmptyTableFails : ∀ k, (counted []).freqRead k = 0 := fun k => by rw [counted_freqRead]; rfl

/-- Also for BuildSeedsLeavesInSymbolOrder, BuildMergesTheTwoLeastNodes and WeightsAreExactSums, whose bounds on a node
it meets at both ends. -/
theorem witness_BuildWritesTreeAndCodes : (∃ k, ab.freqRead k ≠ 0) ∧ exec .build ab = .next abBuilt ∧
    0 < ab.leafCount ∧ 4 < ab.leafCount ∧ ab.leafCount ≤ 5 ∧ 8 < 2 * ab.leafCount - 1 := by
  rw [ab_leafCount]
  exact ⟨ab_counted, exec_build_eq ab ab_counted, by omega⟩

/-- Also for CodeLengthsAreBounded and BuiltCodeIsCompletePrefixCode: a counted symbol and one with no count. -/
theorem witness_CodesAreRootToLeafPaths : 2 ≤ ab.leafCount ∧ exec .build ab = .next abBuilt ∧
    ab.freqRead 0x72 ≠ 0 ∧ ab.freqRead 0x7A = 0 ∧ (abBuilt.codeRead 0x61).len ≠ 0 ∧ (abBuilt.codeRead 0x62).len ≠ 0 := by
  refine ⟨by rw [ab_leafCount]; omega, exec_build_eq ab ab_counted, by decide +kernel, by decide +kernel, ?_, ?_⟩
  · exact abBuilt_codes 0x61 (by decide +kernel)
  · exact abBuilt_codes 0x62 (by decide +kernel)

theorem witness_SingleSymbolGetsTheCodeZero : aaaa.freqRead 0x61 ≠ 0 ∧ ∀ k', k' ≠ 0x61 → aaaa.freqRead k' = 0 := by
  simp only [aaaa, counted_freqRead]
  decide +kernel

theorem witness_BuildDependsOnlyOnTheCounts : (∀ k, ab.freqRead k = (stream ab 0 1 2).freqRead k) ∧
    (∃ k, ab.freqRead k ≠ 0) ∧ exec .build ab = .next abBuilt ∧ ∃ t', exec .build (stream ab 0 1 2) = .next t' :=
  ⟨fun _ => rfl, ab_counted, exec_build_eq ab ab_counted, _, exec_build_eq (stream ab 0 1 2) ab_counted⟩

/-- Two counted symbols and the code of one bit each, the other way round than BUILD's. -/
theorem witness_BuiltCodeIsOptimal : 2 ≤ (counted [(0x61, 1), (0x62, 2)]).leafCount ∧
    (∃ t, exec .build (counted [(0x61, 1), (0x62, 2)]) = .next t) ∧
    ∀ k k' : Symbol, k ≠ k' → (counted [(0x61, 1), (0x62, 2)]).freqRead k ≠ 0 →
      (counted [(0x61, 1), (0x62, 2)]).freqRead k' ≠ 0 → ¬ [decide (k = 0x61)] <+: [decide (k' = 0x61)] := by
  refine ⟨by rw [counted_leafCount]; decide +kernel, exec_answers _ _, fun k k' hne hk hk' => ?_⟩
  have h : ∀ k : Symbol, (counted [(0x61, 1), (0x62, 2)]).freqRead k ≠ 0 → k = 0x61 ∨ k = 0x62 := by
    simp only [counted_freqRead]
    decide +kernel
  rcases h k hk with rfl | rfl <;> rcases h k' hk' with rfl | rfl
  · exact absurd rfl hne
  · decide
  · decide
  · exact absurd rfl hne

/-! The encoder -/

/-- The last code that fits. -/
theorem witness_EncSymAppendsTheCode : abTree.params.wellFormed = true ∧ abTree.tree.valid = true ∧
    (abTree.codeRead 0x62).len ≠ 0 ∧ 65533 + (abTree.codeRead 0x62).len.toNat ≤ abTree.bitmemBits := by decide +kernel

theorem witness_EncSymFailsInOrder : State.reset.tree.valid = false ∧
    (abTree.tree.valid = true ∧ (abTree.codeRead 0x60).len = 0) ∧
    (abTree.codeRead 0x62).len ≠ 0 ∧ abTree.bitmemBits < 65534 + (abTree.codeRead 0x62).len.toNat := by decide +kernel

theorem witness_EncodingATextConcatenatesItsCodes : abTree.params.wellFormed = true ∧ abTree.tree.valid = true ∧
    (∀ k ∈ ([0x61, 0x62] : List Symbol), (abTree.codeRead k).len ≠ 0) ∧
    abTree.ptr.encPtr.toNat + (abTree.codeOfText [0x61, 0x62]).length ≤ abTree.bitmemBits := by decide +kernel

/-! The decoder -/

/-- A single leaf; an internal node with a leaf child on 0 and an internal child on 1. -/
theorem witness_DecBitFollowsOneEdge : (aaaaTree.tree.valid = true ∧ aaaaTree.tree.nleaves = 1) ∧
    abTree.tree.valid = true ∧ abTree.tree.nleaves ≠ 1 ∧ (abTree.nodeRead abTree.dec.cursor.toNat).isLeaf = false ∧
    (abTree.nodeRead (abTree.nodeRead abTree.dec.cursor.toNat).left.toNat).isLeaf = true ∧
    (abTree.nodeRead (abTree.nodeRead abTree.dec.cursor.toNat).right.toNat).isLeaf = false := by decide +kernel

theorem witness_MoveFromALeafNeverHappens : ((atNode abTree 4).tree.valid = true ∧ (atNode abTree 4).tree.nleaves ≠ 1 ∧
      ((atNode abTree 4).nodeRead (atNode abTree 4).dec.cursor.toNat).isLeaf = true) ∧
    abBuilt.Inv ∧ ∃ t, exec (.decBit true) abBuilt = .next t :=
  ⟨by decide +kernel, witness_built_inv, exec_answers _ _⟩

theorem witness_NoTreeComesFirst : State.reset.tree.valid = false := rfl

/-- 'a' in one bit and 'b' in three; and the last bit before the limit in a single-leaf tree. -/
theorem witness_DecSymEmitsTheLeafTheBitsLeadTo : abTree.params.wellFormed = true ∧ abTree.tree.valid = true ∧
    abTree.tree.nleaves ≠ 1 ∧ abTree.pathEnd abTree.dec.cursor.toNat [true, true, false] = some 1 ∧
    (abTree.nodeRead 1).isLeaf = true ∧ ((abStream 1 4).ptr.decPtr.toNat + 3 ≤ (abStream 1 4).decLimit) ∧
    (abStream 1 4).holdsAt 1 [true, true, false] ∧
    (stream aaaaTree 0 1 2).tree.nleaves = 1 ∧ (stream aaaaTree 0 1 2).ptr.decPtr.toNat < (stream aaaaTree 0 1 2).decLimit := by
  refine ⟨by decide +kernel, by decide +kernel, by decide +kernel, by decide +kernel, by decide +kernel,
    by decide +kernel, ?_, by decide +kernel, by decide +kernel⟩
  have h : ∀ i : Fin 3, (abStream 1 4).bitRead (1 + i.1) = [true, true, false][i.1] := by decide +kernel
  exact fun i hi => h ⟨i, hi⟩

/-- No bit left; and two bits that lead to node 6. -/
theorem witness_DecSymFailsWithoutEnoughBits : (abStream 23 23).decLimit ≤ (abStream 23 23).ptr.decPtr.toNat ∧
    (abStream 19 21).tree.valid = true ∧ (abStream 19 21).tree.nleaves ≠ 1 ∧
    (abStream 19 21).ptr.decPtr.toNat + [true, true].length = (abStream 19 21).decLimit ∧
    (abStream 19 21).pathEnd (abStream 19 21).dec.cursor.toNat [true, true] = some 6 ∧
    ((abStream 19 21).nodeRead 6).isLeaf = false ∧ (abStream 19 21).bitRead 19 = true ∧
    (abStream 19 21).bitRead 20 = true := by decide +kernel

theorem witness_DecFinishChecksTheCursor : abTree.tree.valid = true ∧ abTree.dec.cursor = abTree.tree.root ∧
    (atNode abTree 6).tree.valid = true ∧ (atNode abTree 6).dec.cursor ≠ (atNode abTree 6).tree.root := by decide +kernel

/-- The text "ab" under BUILD's own tree and codes. -/
theorem witness_DecodingRecoversTheText : (abRecorded [0x61, 0x62]).Inv ∧
    (abRecorded [0x61, 0x62]).tree.valid = true ∧
    (abRecorded [0x61, 0x62]).dec.cursor = (abRecorded [0x61, 0x62]).tree.root ∧
    (∀ k ∈ ([0x61, 0x62] : List Symbol), ((abRecorded [0x61, 0x62]).codeRead k).len ≠ 0) ∧
    (abRecorded [0x61, 0x62]).holdsAt (abRecorded [0x61, 0x62]).ptr.decPtr.toNat
      ((abRecorded [0x61, 0x62]).codeOfText [0x61, 0x62]) ∧
    (abRecorded [0x61, 0x62]).ptr.decEnd.toNat = (abRecorded [0x61, 0x62]).ptr.decPtr.toNat +
      ((abRecorded [0x61, 0x62]).codeOfText [0x61, 0x62]).length ∧
    (abRecorded [0x61, 0x62]).ptr.decEnd.toNat ≤ (abRecorded [0x61, 0x62]).bitmemBits := by
  have hend := recorded_decEnd abBuilt _ length_ab_code
  have hc : (abRecorded [0x61, 0x62]).codeOfText [0x61, 0x62] = abBuilt.codeOfText [0x61, 0x62] :=
    recorded_codeOfText _ _ _
  have hp : (abRecorded [0x61, 0x62]).ptr.decPtr.toNat = 0 := recorded_decPtr _ _
  have he : (abRecorded [0x61, 0x62]).ptr.decEnd.toNat = (abBuilt.codeOfText [0x61, 0x62]).length := hend
  rw [hc, hp, he, Nat.zero_add]
  refine ⟨abRecorded_inv, rfl, rfl, ?_, recorded_holds _ _, rfl, ?_⟩
  · intro k hk
    rw [show (abRecorded [0x61, 0x62]).codeRead k = abBuilt.codeRead k from recorded_codeRead _ _ _]
    refine abBuilt_codes k ?_
    simp only [List.mem_cons, List.not_mem_nil, or_false] at hk
    rcases hk with rfl | rfl <;> decide +kernel
  · exact length_ab_code.trans (by decide)

theorem witness_RoundTripGivesTheTextBack : ([0x61, 0x62] : List Symbol) ≠ [] ∧
    ([0x61, 0x62] : List Symbol).length < 2 ^ 32 ∧ State.reset.params.wellFormed = true ∧
    (abBuilt.codeOfText [0x61, 0x62]).length ≤ State.reset.bitmemBits := by
  refine ⟨by simp, by decide, rfl, ?_⟩
  have := length_ab_code
  have : State.reset.bitmemBits = 65536 := rfl
  omega

/-! The bus port -/

/-- The first and the last offset of each hole of the map, at the default parameter. -/
theorem witness_BusErrorChangesNothing : (0x0001 : Offset).toNat % 4 ≠ 0 ∧ (0xFFFF : Offset).toNat % 4 ≠ 0 ∧
    0x0100 ≤ (0x0100 : Offset).toNat ∧ (0x03FC : Offset).toNat < 0x0400 ∧
    0x0C00 ≤ (0x0C00 : Offset).toNat ∧ (0x0FFC : Offset).toNat < 0x1000 ∧
    0x3000 ≤ (0x3000 : Offset).toNat ∧ (0x3FFC : Offset).toNat < 0x4000 ∧
    0x6000 ≤ (0x6000 : Offset).toNat ∧ (0x7FFC : Offset).toNat < 0x8000 ∧
    0x8000 + State.reset.bitmemBits / 8 ≤ (0xA000 : Offset).toNat := by decide +kernel

theorem witness_AddressMapIsExact : Params.default16.wellFormed = true ∧
    (Target.codeBits 0xFF 7).exists? Params.default16 = true ∧ locate Params.default16 0x2FFC = some (.codeBits 0xFF 7) := by
  decide +kernel

/-- BUSY = 1 and the first and the last offset of each range of the busy class, and of the other class. -/
theorem witness_BusyClassAccessIsHarmless : (pending abTree 0x10).cmd.busy = true ∧
    [0x0018, 0x001C, 0x0030, 0x004C, 0x0400, 0x07FC, 0x0800, 0x0BFC, 0x1000, 0x2FFC, 0x4000, 0x5FFC, 0x8000,
      0x9FFC].all (fun n => (BitVec.ofNat 16 n).toNat % 4 == 0 && (BitVec.ofNat 16 n).toNat == n) = true ∧
    0x9FFC < 0x8000 + (pending abTree 0x10).bitmemBits / 8 ∧
    [0x0000, 0x0010, 0x0014, 0x0020, 0x0024, 0x00FC].all (fun n => (BitVec.ofNat 16 n).toNat % 4 == 0 &&
      !([0x018, 0x01C, 0x030, 0x034, 0x038, 0x03C, 0x040, 0x044, 0x048, 0x04C].contains n)) = true := by
  decide +kernel

theorem witness_ReadOnlyTargetsIgnoreWrites : locate State.reset.params 0x000C = some (.reserved 0x000C) ∧
    locate State.reset.params 0x0014 = some (.reg .status) ∧ State.reset.cmd.busy = false ∧
    locate State.reset.params 0x4000 = some (.node 0 0) ∧ locate State.reset.params 0x5FFC = some (.node 511 3) := by
  decide +kernel

theorem witness_InterruptLineAndItsSources : (1 : Word).getLsbD 0 = true ∧ (2 : Word).getLsbD 0 = false := by decide

/-- Also for FreqWindowIsTheTable and PointerRegistersHoldNineteenBits. -/
theorem witness_BitmemWindowIsMsbFirst : State.reset.params.wellFormed = true ∧
    2047 < State.reset.bitmemBits / 32 ∧ State.reset.cmd.busy = false := by decide +kernel

/-- BUSY = 0 with each of the eight codes. -/
theorem witness_RegistersReadTheirFields : State.reset.params.wellFormed = true ∧
    [.none, .emptyInput, .unknownSymbol, .malformedBitstream, .illegalCommand, .noTree, .bitmemOverflow,
      .freqOverflow].all (fun c => (failed State.reset c 0).error.code == c && !(failed State.reset c 0).cmd.busy) = true := by
  decide +kernel

theorem witness_CodeWindowsShowTheCodes : (State.reset.cmd.busy = false ∧ State.reset.tree.valid = false) ∧
    (abTree.cmd.busy = false ∧ abTree.tree.valid = true) ∧ 0 < 8 ∧ 7 < 8 := by decide +kernel

theorem witness_NodeWindowShowsTheTree : abTree.cmd.busy = false ∧ abTree.nnodes = 9 ∧ 8 < abTree.nnodes ∧
    abTree.nnodes ≤ 9 ∧ 511 < 512 ∧ 3 < 4 := by decide +kernel

end Sys2Proof.Tests
end

/-! The state and its invariant (10_state.md): the proofs. -/

/-! ### What a step leaves -/

namespace Sys2Proof.Machine

variable {s t : State}

/-- What a step leaves: the sequencer's command committed or failed, one host input took effect, or nothing moved. -/
inductive Stepped (s : State) : State → Prop where
  | committed {i : Instr} {u : State} : s.mover = some .sequencer → decode s.cmd.pending = .ok i → Committed s i u →
      Stepped s u.complete.turnTaken
  | failed {c : ErrCode} (w : Word) : c ≠ .none → Stepped s (s.raise c w).complete.turnTaken
  | received {i : Input} {rest : List Input} {u : State} : s.mover = some .host → s.env.host = i :: rest →
      Received s i u → Stepped s u
  | idle : Stepped s s

theorem step_stepped (h : step s = .next t) : Stepped s t := by
  rcases step_cases s with ⟨hm, u, ho, e⟩ | ⟨hm, e⟩ | ⟨-, e⟩
  all_goals obtain rfl := Host.Outcome.next.inj (e.symm.trans h)
  · rcases outcome_cases s with ⟨i, v, hd, e, hc⟩ | ⟨i, c, w, -, e, hf⟩ | ⟨why, -, e⟩
    all_goals obtain rfl := Host.Outcome.next.inj (e.symm.trans ho)
    · exact .committed hm hd hc
    · exact .failed w hf.code_ne_none
    · exact .failed _ (by simp)
  · obtain ⟨i, rest, hi⟩ := List.exists_cons_of_ne_nil (mover_host hm)
    exact .received hm hi (hostStep_received hi)
  · exact .idle

/-! ### The invariant -/

/-- Only the epoch among the model's own fields matters to the invariant: it says what unwritten entries read as. -/
theorem State.Inv.withEnv (hi : s.Inv) {e : Env} (he : e.epoch = s.env.epoch) : ({ s with env := e } : State).Inv :=
  have ⟨htree, hcode⟩ := State.tree_congr (t := { s with env := e }) hi.tree hi.code rfl rfl rfl rfl he
  ⟨htree, hcode, hi.mem.congr rfl rfl, hi.control.congr rfl rfl ⟨rfl, rfl, rfl⟩⟩

theorem Written.inv {a : Offset} {v : Word} (h : Written s a v t) (hi : s.Inv) : t.Inv :=
  have ⟨htree, hcode⟩ := h.tree hi.tree hi.code
  ⟨htree, hcode, h.mem hi.control.params hi.mem, h.control hi.control⟩

/-- R47, R145: hardware reset leaves no tree, no written memory, no error and nothing pending. -/
theorem hardReset_inv (hp : s.params.wellFormed = true) (e : Env) : ({ s.hardReset with env := e } : State).Inv where
  tree := .ofNoTree rfl rfl
  code := .ofNoTree rfl
  mem := ⟨rfl, rfl, rfl, rfl⟩
  control := ⟨fun _ => ⟨rfl, rfl⟩, nofun, fun _ => rfl, nofun, nofun, hp⟩

theorem Received.inv {i : Input} (h : Received s i t) (hi : s.Inv) : t.Inv := by
  cases h with
  | read i e he => exact hi.withEnv he
  | write e hw he | strobedWrite e hw he => exact (hw.inv hi).withEnv (by rw [hw.env, he])
  | hardReset e | hardResetDuring b e => exact hardReset_inv hi.control.params e

/-- R124: after a completion nothing is pending, so the command state agrees with any error state; the error state
itself must be in order. -/
theorem State.ControlInv.complete (hq : s.error.err = false → s.error.code = .none ∧ s.error.info = 0)
    (hn : s.error.err = true → s.error.code ≠ .none) (hp : s.params.wellFormed = true) : s.complete.ControlInv :=
  ⟨hq, hn, fun _ => rfl, nofun, nofun, hp⟩

/-- A completion and the turn it takes touch neither the tree, the tables nor the memories. -/
theorem inv_complete_turnTaken (ht : s.TreeInv) (hk : s.CodeInv) (hm : s.MemInv) (hc : s.complete.ControlInv) :
    s.complete.turnTaken.Inv :=
  have ⟨htree, hcode⟩ := State.tree_congr (t := s.complete.turnTaken) ht hk rfl rfl rfl rfl rfl
  ⟨htree, hcode, hm.congr rfl rfl, hc.congr rfl rfl ⟨rfl, rfl, rfl⟩⟩

theorem Committed.inv {i : Instr} (h : Committed s i t) (hi : s.Inv) : t.complete.turnTaken.Inv := by
  obtain ⟨htree, hcode⟩ := h.tree hi.tree hi.code
  have hp : t.params.wellFormed = true := h.params ▸ hi.control.params
  refine inv_complete_turnTaken htree hcode (h.mem hi.mem) ?_
  rcases h.error with he | he
  · exact .complete (he ▸ hi.control.quiet) (he ▸ hi.control.named) hp
  · rw [ErrorState.reset] at he
    exact .complete (by simp [he]) (by simp [he]) hp

theorem raise_inv (hi : s.Inv) {c : ErrCode} (w : Word) (hc : c ≠ .none) : (s.raise c w).complete.turnTaken.Inv :=
  have ⟨htree, hcode⟩ := State.tree_congr (t := s.raise c w) hi.tree hi.code rfl rfl rfl rfl rfl
  inv_complete_turnTaken htree hcode (hi.mem.congr rfl rfl)
    (.complete nofun (fun _ => hc) hi.control.params)

theorem Stepped.inv (h : Stepped s t) (hi : s.Inv) : t.Inv := by
  cases h with
  | committed _ _ hc => exact hc.inv hi
  | failed w hc => exact raise_inv hi w hc
  | received _ _ hr => exact hr.inv hi
  | idle => exact hi

/-- Settles O17: whatever a step leaves, a committed command, a recorded failure or a host input's effect, keeps each
part of the invariant. -/
theorem everyStepKeepsTheInvariant : Obligations.EveryStepKeepsTheInvariant :=
  fun _ _ hi h => (step_stepped h).inv hi

/-- Settles O16: the reset state is a hardware reset's result. -/
theorem resetMeetsTheInvariant : Obligations.ResetMeetsTheInvariant :=
  hardReset_inv (s := State.reset) (by decide) State.reset.env

/-! ### Who changes a memory -/

/-- What changes a reading of the memories: a command that commits another reading, a host write that leaves another
one, or a hardware reset.  Completion, failures, bus reads and idle steps leave every memory alone. -/
theorem Stepped.view_cases {α : Type} {view : State → α}
    (hview : ∀ {u v : State}, u.mem = v.mem → u.env.epoch = v.env.epoch → view u = view v)
    (h : Stepped s t) (hne : view t ≠ view s) :
    (s.mover = some .sequencer ∧ ∃ i u, decode s.cmd.pending = .ok i ∧ Committed s i u ∧ view u ≠ view s) ∨
    (s.mover = some .host ∧ ∃ a v rest u,
      (s.env.host = .write a v :: rest ∨ s.env.host = .strobedWrite 0xF a v :: rest) ∧
      Written s a v u ∧ view u ≠ view s) ∨
    (s.mover = some .host ∧ ∃ rest, s.env.host = .hardReset :: rest ∨ ∃ b, s.env.host = .hardResetDuring b :: rest) := by
  cases h with
  | @committed i u hm hd hc =>
    have heff : view u.complete.turnTaken = view u := hview rfl rfl
    exact .inl ⟨hm, i, u, hd, hc, fun hu => hne (heff.trans hu)⟩
  | failed w _ => exact (hne (hview rfl rfl)).elim
  | idle => exact absurd rfl hne
  | @received i rest _ hm hi hr =>
    cases hr with
    | read _ e he => exact (hne (hview rfl he)).elim
    | @write a v u e hw he =>
      have heff : view { u with env := e } = view u := hview rfl (by rw [hw.env, he])
      exact .inr (.inl ⟨hm, a, v, rest, u, .inl hi, hw, fun hu => hne (heff.trans hu)⟩)
    | @strobedWrite a v u e hw he =>
      have heff : view { u with env := e } = view u := hview rfl (by rw [hw.env, he])
      exact .inr (.inl ⟨hm, a, v, rest, u, .inr hi, hw, fun hu => hne (heff.trans hu)⟩)
    | hardReset e => exact .inr (.inr ⟨hm, rest, .inl hi⟩)
    | hardResetDuring b e => exact .inr (.inr ⟨hm, rest, .inr ⟨b, hi⟩⟩)

/-- R42, R43: BUILD alone among the commands commits to NODE or CODE. -/
theorem Committed.node_code {i : Instr} (h : Committed s i t) :
    i = .build ∨ (t.nodeRead, t.codeRead) = (s.nodeRead, s.codeRead) := by
  cases h with
  | build => exact .inl rfl
  | _ => exact .inr rfl

/-- R53: no bus write reaches NODE or CODE. -/
theorem Written.node_code {a : Offset} {v : Word} (h : Written s a v t) :
    (t.nodeRead, t.codeRead) = (s.nodeRead, s.codeRead) := by cases h <;> rfl

/-- R41: FREQ_CLEAR and FREQ_INC alone among the commands commit to FREQ. -/
theorem Committed.freqRead {i : Instr} (h : Committed s i t) :
    (i = .freqClear ∨ ∃ k, i = .freqInc k) ∨ t.freqRead = s.freqRead := by
  cases h with
  | freqClear => exact .inl (.inl rfl)
  | freqInc => exact .inl (.inr ⟨_, rfl⟩)
  | _ => exact .inr rfl

/-- R56: a bus write reaches FREQ through its window, with BUSY = 0. -/
theorem Written.freqRead {a : Offset} {v : Word} (h : Written s a v t) :
    (s.cmd.busy = false ∧ ∃ k, locate s.params a = some (.freq k)) ∨ t.freqRead = s.freqRead := by
  cases h with
  | freq k hb hl => exact .inl ⟨hb, k, hl⟩
  | _ => exact .inr rfl

/-- R44: ENC_SYM alone among the commands commits to BITMEM. -/
theorem Committed.bitRead {i : Instr} (h : Committed s i t) : (∃ k, i = .encSym k) ∨ t.bitRead = s.bitRead := by
  cases h with
  | encSym => exact .inl ⟨_, rfl⟩
  | _ => exact .inr rfl

/-- R61: a bus write reaches BITMEM through its window, with BUSY = 0. -/
theorem Written.bitRead {a : Offset} {v : Word} (h : Written s a v t) :
    (s.cmd.busy = false ∧ ∃ j, locate s.params a = some (.bitmem j)) ∨ t.bitRead = s.bitRead := by
  cases h with
  | bitmem j hb hl => exact .inl ⟨hb, j, hl⟩
  | _ => exact .inr rfl

theorem State.freqRead_congr (hm : t.mem.freq = s.mem.freq) (he : t.env.epoch = s.env.epoch) :
    t.freqRead = s.freqRead := by funext k; rw [State.freqRead, State.freqRead, hm, he]

theorem State.bitRead_congr (hm : t.mem.bitmem = s.mem.bitmem) (he : t.env.epoch = s.env.epoch) :
    t.bitRead = s.bitRead := by funext k; rw [State.bitRead, State.bitRead, hm, he]

/-- Settles O18: of the three things that can change a memory, only a committed BUILD and a reset touch these two. -/
theorem onlyBuildWritesNodesAndCodes : Obligations.OnlyBuildWritesNodesAndCodes := by
  intro s t h hread
  have hne : (t.nodeRead, t.codeRead) ≠ (s.nodeRead, s.codeRead) := by
    intro e
    obtain ⟨hnode, hcode⟩ := Prod.mk.inj e
    rcases hread with ⟨n, hn⟩ | ⟨k, hk⟩
    · exact hn (congrFun hnode n)
    · exact hk (congrFun hcode k)
  rcases (step_stepped h).view_cases (view := fun u => (u.nodeRead, u.codeRead))
      (fun hm he => Prod.ext (State.nodeRead_congr (by rw [hm]) he) (State.codeRead_congr (by rw [hm]) he)) hne with
    ⟨hm, i, u, hd, hc, hu⟩ | ⟨-, a, v, rest, u, -, hw, hu⟩ | hreset
  · obtain rfl := hc.node_code.resolve_right hu
    exact .inl ⟨hm, hd⟩
  · exact absurd hw.node_code hu
  · exact .inr hreset

/-- Settles O19: the same for FREQ and for BITMEM, whose windows the host can also write. -/
theorem onlyTheseWriteCountsAndStreamBits : Obligations.OnlyTheseWriteCountsAndStreamBits := by
  intro s t h
  constructor
  · rintro ⟨k, hk⟩
    rcases (step_stepped h).view_cases (view := State.freqRead) (fun hm he => State.freqRead_congr (by rw [hm]) he)
        (fun e => hk (congrFun e k)) with ⟨hm, i, u, hd, hc, hu⟩ | ⟨hm, a, v, rest, u, hi, hw, hu⟩ | hreset
    · rcases hc.freqRead.resolve_right hu with rfl | ⟨j, rfl⟩
      · exact .inl ⟨hm, .inl hd⟩
      · exact .inl ⟨hm, .inr ⟨j, hd⟩⟩
    · obtain ⟨hb, j, hl⟩ := hw.freqRead.resolve_right hu
      exact .inr (.inl ⟨hm, hb, a, v, rest, j, hl, hi⟩)
    · exact .inr (.inr hreset)
  · rintro ⟨k, hk⟩
    rcases (step_stepped h).view_cases (view := State.bitRead) (fun hm he => State.bitRead_congr (by rw [hm]) he)
        (fun e => hk (congrFun e k)) with ⟨hm, i, u, hd, hc, hu⟩ | ⟨hm, a, v, rest, u, hi, hw, hu⟩ | hreset
    · obtain ⟨j, rfl⟩ := hc.bitRead.resolve_right hu
      exact .inl ⟨hm, j, hd⟩
    · obtain ⟨hb, j, hl⟩ := hw.bitRead.resolve_right hu
      exact .inr (.inl ⟨hm, hb, a, v, rest, j, hl, hi⟩)
    · exact .inr (.inr hreset)

/-! ### Reset values -/

/-- Settles O4: both resets assign constants, and SOFT_RESET leaves IRQ_EN and the memories out. -/
theorem resetAndSoftResetValues : Obligations.ResetAndSoftResetValues :=
  ⟨⟨rfl, rfl, rfl, rfl, rfl, rfl, rfl, fun _ => rfl, fun _ => rfl⟩,
    fun s => ⟨s.softReset, rfl, rfl, rfl, rfl, rfl, rfl, rfl, rfl, rfl⟩⟩

/-! ### The registers -/

/-- A read of a register that is accessible (R54, R55). -/
theorem busRead_reg (r : Reg) (hb : (Target.reg r).always = true ∨ s.cmd.busy = false) :
    s.busRead (BitVec.ofNat 16 r.offset) = (.read false (s.readReg r), s) := busRead_at (locate_reg s.params r) hb

/-- A write of a register that is accessible (R54, R55). -/
theorem busWrite_reg (r : Reg) (hb : (Target.reg r).always = true ∨ s.cmd.busy = false) (v : Word) :
    s.busWrite (BitVec.ofNat 16 r.offset) v = (.write false, s.writeReg v r) := busWrite_at (locate_reg s.params r) hb v

/-- Bit `i` of STATUS (R28). -/
theorem getLsbD_statusWord (s : State) (i : Nat) : s.statusWord.getLsbD i =
    ((s.cmd.busy && decide (i = 0)) || (s.tree.valid && decide (i = 1)) || (s.singleLeaf && decide (i = 2)) ||
      (s.atRoot && decide (i = 3)) || (s.dec.symValid && decide (i = 4)) || (s.error.err && decide (i = 5)) ||
      (s.error.dropped && decide (i = 6))) := by
  simp only [State.statusWord, BitVec.getLsbD_or, getLsbD_bitAt (show 0 < 32 by omega),
    getLsbD_bitAt (show 1 < 32 by omega), getLsbD_bitAt (show 2 < 32 by omega), getLsbD_bitAt (show 3 < 32 by omega),
    getLsbD_bitAt (show 4 < 32 by omega), getLsbD_bitAt (show 5 < 32 by omega), getLsbD_bitAt (show 6 < 32 by omega)]

/-- Settles O53: the read answers STATUS, whose bits `getLsbD_statusWord` gives. -/
theorem statusBitsShowTheState : Obligations.StatusBitsShowTheState := by
  intro s
  refine ⟨s.statusWord, busRead_reg .status (.inl rfl), ?_⟩
  simp only [getLsbD_statusWord]
  refine ⟨by simp, by simp, by simp [State.singleLeaf], by simp [State.atRoot], by simp, by simp, by simp,
    fun i hi => ?_⟩
  simp [show i ≠ 0 by omega, show i ≠ 1 by omega, show i ≠ 2 by omega, show i ≠ 3 by omega, show i ≠ 4 by omega,
    show i ≠ 5 by omega, show i ≠ 6 by omega]

/-- Settles O55: the three pointers are busy-class registers, read zero-extended. -/
theorem pointerRegistersHoldNineteenBits : Obligations.PointerRegistersHoldNineteenBits := by
  intro s v hb
  exact ⟨busWrite_reg .encPtr (.inr hb) v, busWrite_reg .decPtr (.inr hb) v, busWrite_reg .decEnd (.inr hb) v,
    ⟨_, busRead_reg .encPtr (.inr hb), toNat_setWidth_of_le (by omega) _⟩,
    ⟨_, busRead_reg .decPtr (.inr hb), toNat_setWidth_of_le (by omega) _⟩,
    ⟨_, busRead_reg .decEnd (.inr hb), toNat_setWidth_of_le (by omega) _⟩⟩

/-- R26: the three fields of PARAM, for a legal parameter (R7). -/
theorem toNat_paramWord {p : Params} (hp : p.wellFormed = true) :
    (paramWord p).toNat = p.bitmemLog2 + 8 * 2 ^ 8 + 511 * 2 ^ 16 := by
  have fields : ∀ n ≤ 18, (paramWord ⟨n⟩).toNat = n + 8 * 2 ^ 8 + 511 * 2 ^ 16 := by decide
  simp only [Params.wellFormed, Bool.and_eq_true, decide_eq_true_eq] at hp
  exact fields p.bitmemLog2 hp.2

/-- Settles O60: every register is read through `busRead_reg`; PARAM's fields and the error numbers are evaluated. -/
theorem registersReadTheirFields : Obligations.RegistersReadTheirFields := by
  intro s
  refine ⟨busRead_reg .id (.inl rfl), busRead_reg .version (.inl rfl),
    fun hp => ⟨_, busRead_reg .param (.inl rfl), toNat_paramWord hp⟩, busRead_reg .cmd (.inl rfl), fun hb => ?_⟩
  refine ⟨?_, busRead_reg .errInfo (.inr hb), busRead_reg .result (.inr hb), busRead_reg .root (.inr hb),
    busRead_reg .nleaves (.inr hb), busRead_reg .cursor (.inr hb), busRead_reg .lastLen (.inr hb)⟩
  refine (busRead_reg .errCode (.inr hb)).trans ?_
  rw [State.readReg]
  cases s.error.code <;> rfl

end Sys2Proof.Machine

/-! The host bus port (20_memory.md): the proofs. -/

/-! ### The address map -/

namespace Sys2Proof.Machine

variable {s : State} {p : Params} {a : Offset} {t : Target}

/-- R51: what lies in the range of a target is found at its offset; with `located`, the map in both directions. -/
theorem locate_of_located (h₄ : a.toNat % 4 = 0) (h : Located p a t) : locate p a = some t := by
  unfold locate
  rw [if_neg (not_not.2 h₄)]
  cases h with
  | reg hlt hr => rw [if_pos hlt, hr]
  | reserved hlt hr => rw [if_pos hlt, hr]
  | freq hge hlt => rw [if_neg (by omega), if_neg (by omega), if_pos hlt]
  | codeLen hge hlt => rw [if_neg (by omega), if_neg (by omega), if_neg (by omega), if_pos hlt]
  | codeBits hge hlt =>
    rw [if_neg (by omega), if_neg (by omega), if_neg (by omega), if_neg (by omega), if_neg (by omega), if_pos hlt]
  | node hge hlt =>
    rw [if_neg (by omega), if_neg (by omega), if_neg (by omega), if_neg (by omega), if_neg (by omega),
      if_neg (by omega), if_neg (by omega), if_pos hlt]
  | bitmem hge hlt =>
    rw [if_neg (by omega), if_neg (by omega), if_neg (by omega), if_neg (by omega), if_neg (by omega),
      if_neg (by omega), if_neg (by omega), if_neg (by omega), if_neg (by omega), if_pos hlt]

/-- R49, R50: a misaligned offset, or one in a hole of the map, names nothing. -/
theorem locate_hole (h : a.toNat % 4 ≠ 0 ∨ (0x0100 ≤ a.toNat ∧ a.toNat < 0x0400) ∨
      (0x0C00 ≤ a.toNat ∧ a.toNat < 0x1000) ∨ (0x3000 ≤ a.toNat ∧ a.toNat < 0x4000) ∨
      (0x6000 ≤ a.toNat ∧ a.toNat < 0x8000) ∨ 0x8000 + p.bitmemBits / 8 ≤ a.toNat) : locate p a = none := by
  rw [Option.eq_none_iff_forall_ne_some]
  intro t ht
  obtain ⟨h₄, hl⟩ := located ht
  cases hl <;> omega

/-- A number below 2^16 is the offset it is written as. -/
theorem toNat_offset {n : Nat} (h : n < 0x10000) : (BitVec.ofNat 16 n).toNat = n := by
  rw [BitVec.toNat_ofNat, Nat.mod_eq_of_lt h]

/-- A symbol from the number its window's offset is decoded to. -/
theorem ofNat_eq_symbol {k : Symbol} {n : Nat} (h : n = k.toNat) : BitVec.ofNat 8 n = k := by simp [h]

/-- The FREQ window (R56). -/
theorem locate_freq_offset (p : Params) (k : Symbol) :
    locate p (BitVec.ofNat 16 (0x0400 + 4 * k.toNat)) = some (.freq k) := by
  have ha := toNat_offset (n := 0x0400 + 4 * k.toNat) (by omega)
  rw [locate_of_located (by omega) (.freq (by omega) (by omega)), ofNat_eq_symbol (k := k) (by omega)]

/-- The CODE_LEN window (R57). -/
theorem locate_codeLen_offset (p : Params) (k : Symbol) :
    locate p (BitVec.ofNat 16 (0x0800 + 4 * k.toNat)) = some (.codeLen k) := by
  have ha := toNat_offset (n := 0x0800 + 4 * k.toNat) (by omega)
  rw [locate_of_located (by omega) (.codeLen (by omega) (by omega)), ofNat_eq_symbol (k := k) (by omega)]

/-- The CODE_BITS window (R58). -/
theorem locate_codeBits_offset (p : Params) (k : Symbol) {j : Nat} (hj : j < 8) :
    locate p (BitVec.ofNat 16 (0x1000 + 32 * k.toNat + 4 * j)) = some (.codeBits k j) := by
  have ha := toNat_offset (n := 0x1000 + 32 * k.toNat + 4 * j) (by omega)
  rw [locate_of_located (by omega) (.codeBits (by omega) (by omega)), ofNat_eq_symbol (k := k) (by omega), ha]
  congr 2
  omega

/-- The NODE window (R59). -/
theorem locate_node_offset (p : Params) {n i : Nat} (hn : n < 512) (hi : i < 4) :
    locate p (BitVec.ofNat 16 (0x4000 + 16 * n + 4 * i)) = some (.node n i) := by
  have ha := toNat_offset (n := 0x4000 + 16 * n + 4 * i) (by omega)
  rw [locate_of_located (by omega) (.node (by omega) (by omega)), ha]
  congr 2 <;> omega

/-- R7: the BITMEM window has room for the whole bit memory. -/
theorem bitmemBits_le (hp : p.wellFormed = true) : p.bitmemBits ≤ 2 ^ 18 := by
  simp only [Params.wellFormed, Bool.and_eq_true, decide_eq_true_eq] at hp
  exact Nat.pow_le_pow_right (by omega) hp.2

/-- The BITMEM window (R61). -/
theorem locate_bitmem_offset (hp : p.wellFormed = true) {j : Nat} (hj : j < p.bitmemBits / 32) :
    locate p (BitVec.ofNat 16 (0x8000 + 4 * j)) = some (.bitmem j) := by
  have hp := bitmemBits_le hp
  have ha := toNat_offset (n := 0x8000 + 4 * j) (by omega)
  rw [locate_of_located (by omega) (.bitmem (by omega) (by omega)), ha]
  congr 2
  omega

/-- R51: `regAt` finds a register at its own offset only. -/
theorem offset_of_regAt {n : Nat} {r : Reg} (h : regAt n = some r) : r.offset = n := by
  unfold regAt at h
  split at h <;> cases h <;> rfl

/-- R51: every target that exists is found at its offset. -/
theorem locate_offset (hp : p.wellFormed = true) (h : t.exists? p = true) : locate p t.offset = some t := by
  cases t with
  | reg r => exact locate_reg p r
  | reserved a =>
    simp only [Target.exists?, Bool.and_eq_true, beq_iff_eq, decide_eq_true_eq, Option.isNone_iff_eq_none] at h
    obtain ⟨⟨h₄, hlt⟩, hr⟩ := h
    exact locate_of_located h₄ (.reserved hlt hr)
  | freq k => exact locate_freq_offset p k
  | codeLen k => exact locate_codeLen_offset p k
  | codeBits k j => exact locate_codeBits_offset p k (of_decide_eq_true h)
  | node n i =>
    simp only [Target.exists?, Bool.and_eq_true, decide_eq_true_eq] at h
    exact locate_node_offset p h.1 h.2
  | bitmem j => exact locate_bitmem_offset hp (of_decide_eq_true h)

/-- R51: what is found at an offset has that offset. -/
theorem offset_of_locate (h : locate p a = some t) : t.offset = a := by
  obtain ⟨h₄, hl⟩ := located h
  apply BitVec.eq_of_toNat_eq
  cases hl with
  | reg _ hr => rw [Target.offset, offset_of_regAt hr, toNat_offset a.isLt]
  | reserved => rfl
  | _ => simp only [Target.offset, BitVec.toNat_ofNat]; omega

/-- R51: what is found at an offset exists. -/
theorem exists_of_locate (hp : p.wellFormed = true) (h : locate p a = some t) : t.exists? p = true := by
  obtain ⟨h₄, hl⟩ := located h
  cases hl with
  | reg | freq | codeLen => rfl
  | reserved hlt hr => simp [Target.exists?, h₄, hlt, hr]
  | codeBits => simp only [Target.exists?, decide_eq_true_eq]; omega
  | node => simp only [Target.exists?, Bool.and_eq_true, decide_eq_true_eq]; omega
  | bitmem =>
    have := locate_bitmem hp h
    simp only [Target.exists?, decide_eq_true_eq]; omega

/-- Settles O49: each window's offset is decoded by division, which undoes the multiplication. -/
theorem addressMapIsExact : Obligations.AddressMapIsExact :=
  fun _ hp => ⟨fun _ ht => locate_offset hp ht, fun _ _ ha => ⟨offset_of_locate ha, exists_of_locate hp ha⟩⟩

/-- Settles O48: nothing is located there, so the port refuses the access. -/
theorem busErrorChangesNothing : Obligations.BusErrorChangesNothing := by
  intro s a v h
  have hl : locate s.params a = none := locate_hole h
  exact ⟨busRead_unmapped hl, busWrite_unmapped hl v⟩

/-! ### The windows -/

/-- R56: a write of one count, and no other. -/
theorem State.freqRead_freqWrite (s : State) (k k' : Symbol) (v : Word) :
    (s.freqWrite k v).freqRead k' = if k' = k then v else s.freqRead k' := by
  simp only [State.freqRead, State.freqWrite_mem, State.freqWrite_env, Memory.find_write, BitVec.toNat_inj]
  split <;> rfl

/-- R60, R107: a run of stream bits is written in stream order. -/
theorem State.bitRead_bitWriteFrom_inside (s : State) (k : Nat) (bs : List Bool) {i : Nat} (h : i < bs.length) :
    (s.bitWriteFrom k bs).bitRead (k + i) = bs[i] := by
  simp only [State.bitRead, State.bitWriteFrom_mem, Memory.find_writeFrom_inside _ _ _ _ h, Option.getD_some]

/-- R60, R107: the stream bits outside a run are kept. -/
theorem State.bitRead_bitWriteFrom_outside (s : State) {k k' : Nat} {bs : List Bool}
    (h : k' < k ∨ k + bs.length ≤ k') : (s.bitWriteFrom k bs).bitRead k' = s.bitRead k' := by
  simp only [State.bitRead, State.bitWriteFrom_mem, State.bitWriteFrom_env, Memory.find_writeFrom_outside _ _ _ _ h]

/-- Settles O56: the window's offset names the count, and `freqRead_freqWrite` says what is read after the write. -/
theorem freqWindowIsTheTable : Obligations.FreqWindowIsTheTable := by
  intro s k v hb
  have hl := locate_freq_offset s.params k
  refine ⟨busRead_at hl (.inr hb), s.freqWrite k v, busWrite_at hl (.inr hb) v, ?_, fun k' hk => ?_, rfl⟩
  · rw [State.freqRead_freqWrite, if_pos rfl]
  · rw [State.freqRead_freqWrite, if_neg hk]

/-- Settles O57: the word is packed and unpacked most significant bit first, at stream bits `32 j` to `32 j + 31`. -/
theorem bitmemWindowIsMsbFirst : Obligations.BitmemWindowIsMsbFirst := by
  intro s j v hp hj hb
  have hl : locate s.params _ = some (.bitmem j) := locate_bitmem_offset hp hj
  refine ⟨⟨_, busRead_at hl (.inr hb), fun i hi => getLsbD_wordOfBits _ i hi⟩,
    s.bitWriteFrom (32 * j) (bitsOfWord v), busWrite_at hl (.inr hb) v, fun i hi => ?_, fun k hk => ?_, rfl⟩
  · have hi : i < (bitsOfWord v).length := by rwa [length_bitsOfWord]
    rw [State.bitRead_bitWriteFrom_inside _ _ _ hi, getElem_bitsOfWord]
  · exact State.bitRead_bitWriteFrom_outside s (by rwa [length_bitsOfWord])

/-- Settles O58: both windows' offsets name the symbol, and TREE_VALID selects what is read. -/
theorem codeWindowsShowTheCodes : Obligations.CodeWindowsShowTheCodes := by
  intro s k j hb hj
  rw [busRead_at (locate_codeLen_offset s.params k) (.inr hb),
    busRead_at (locate_codeBits_offset s.params k hj) (.inr hb)]
  simp only [State.readTarget]
  constructor
  · intro hv
    simp [hv]
  · intro hv
    rw [if_pos hv, if_pos hv]
    exact ⟨rfl, _, rfl, fun i hi => getLsbD_wordOfBits _ i hi⟩

/-- The bits of word 0 of a record (R59). -/
theorem getLsbD_nodeWord_zero (r : NodeRec) {i : Nat} (h : i < 32) : (nodeWord r 0).getLsbD i =
    (decide (i = 31) || (!decide (i < 8) && r.sym.getLsbD (i - 8)) || (r.isLeaf && decide (i = 0))) := by
  have h31 : ((1 : Word) <<< 31).getLsbD i = decide (i = 31) := by
    rw [show (1 : Word) <<< 31 = bitAt 31 true from rfl, getLsbD_bitAt (by omega), Bool.true_and]
  simp only [nodeWord, BitVec.getLsbD_or, h31, getLsbD_bitAt (show 0 < 32 by omega), BitVec.getLsbD_shiftLeft,
    BitVec.getLsbD_setWidth]
  simp [h, show i - 8 < 32 by omega]

/-- The fields of word 0 of a record (R59). -/
theorem nodeWord_zero (r : NodeRec) :
    (nodeWord r 0).getLsbD 31 = true ∧ (nodeWord r 0).extractLsb' 16 15 = 0 ∧
      (nodeWord r 0).extractLsb' 8 8 = r.sym ∧ (nodeWord r 0).extractLsb' 1 7 = 0 ∧
      (nodeWord r 0).getLsbD 0 = r.isLeaf := by
  refine ⟨?_, ?_, ?_, ?_, ?_⟩
  · rw [getLsbD_nodeWord_zero r (by omega)]
    simp
  · ext i hi
    rw [BitVec.getElem_extractLsb', getLsbD_nodeWord_zero r (by omega), BitVec.getLsbD_of_ge r.sym _ (by omega)]
    simp [show 16 + i ≠ 31 by omega]
  · ext i hi
    rw [BitVec.getElem_extractLsb', getLsbD_nodeWord_zero r (by omega)]
    simp [show 8 + i ≠ 31 by omega, BitVec.getLsbD_eq_getElem hi]
  · ext i hi
    rw [BitVec.getElem_extractLsb', getLsbD_nodeWord_zero r (by omega)]
    simp [show 1 + i ≠ 31 by omega, show ¬ 8 ≤ 1 + i by omega]
  · rw [getLsbD_nodeWord_zero r (by omega)]
    simp

/-- Word 1 of a record: the low part of WEIGHT (R59). -/
theorem toNat_nodeWord_one (r : NodeRec) : (nodeWord r 1).toNat = r.weight.toNat % 2 ^ 32 := by
  simp [nodeWord]

/-- Word 2 of a record: the high part of WEIGHT (R59). -/
theorem toNat_nodeWord_two (r : NodeRec) : (nodeWord r 2).toNat = r.weight.toNat / 2 ^ 32 := by
  have := r.weight.isLt
  rw [nodeWord, toNat_setWidth_of_le (by omega), BitVec.extractLsb'_toNat, Nat.shiftRight_eq_div_pow]
  omega

/-- Word 3 of a record: RIGHT above LEFT (R59). -/
theorem toNat_nodeWord_three (r : NodeRec) : (nodeWord r 3).toNat = r.right.toNat * 2 ^ 16 + r.left.toNat := by
  have hl := r.left.isLt
  have hr := r.right.isLt
  simp only [nodeWord]
  rw [BitVec.toNat_or, BitVec.toNat_shiftLeft, toNat_setWidth_of_le (by omega),
    toNat_setWidth_of_le (by omega), Nat.mod_eq_of_lt (by rw [Nat.shiftLeft_eq]; omega),
    ← Nat.shiftLeft_add_eq_or_of_lt (by omega), Nat.shiftLeft_eq]

/-- Settles O59: the offset names word `i` of slot `n`, and NNODES selects between 0 and the record. -/
theorem nodeWindowShowsTheTree : Obligations.NodeWindowShowsTheTree := by
  intro s n i hb hn hi
  refine ⟨_, busRead_at (locate_node_offset s.params hn hi) (.inr hb), fun h => if_pos h, fun h => ?_⟩
  rw [State.readTarget, if_neg (not_le.2 h)]
  refine ⟨?_, ?_, ?_, ?_⟩ <;> rintro rfl
  · exact nodeWord_zero _
  · exact toNat_nodeWord_one _
  · exact toNat_nodeWord_two _
  · exact toNat_nodeWord_three _

/-! ### The busy rule and what ignores an access -/

/-- Settles O51: `busRead_state` names the two states a read can leave. -/
theorem readsHaveNoSideEffect : Obligations.ReadsHaveNoSideEffect := by
  intro s a
  rcases busRead_state s a with h | h
  · rw [h]
  · rw [h]; rfl

/-- R28: STATUS alone shows BUSY. -/
theorem readTarget_withBusy (s : State) (b : Bool) (h : t ≠ .reg .status) :
    ({ s with cmd := { s.cmd with busy := b } } : State).readTarget t = s.readTarget t := by
  cases t with
  | reg r =>
    cases r with
    | status => exact absurd rfl h
    | _ => rfl
  | _ => rfl

/-- R122: a write to CMD alone depends on BUSY or changes the command state. -/
theorem writeTarget_withBusy (s : State) (b : Bool) (v : Word) (h : t ≠ .reg .cmd) :
    s.writeTarget v t =
      { ({ s with cmd := { s.cmd with busy := b } } : State).writeTarget v t with cmd := s.cmd } := by
  cases t with
  | reg r =>
    cases r with
    | cmd => exact absurd rfl h
    | intPend => simp only [State.writeTarget, State.writeReg]; split <;> rfl
    | _ => rfl
  | _ => rfl

/-- R122: a CMD write with BUSY = 1 is discarded. -/
theorem accept_busy (hb : s.cmd.busy = true) (v : Word) : s.accept v = s.drop := by rw [State.accept, if_pos hb]

/-- Settles O50: the offsets of the first list name busy-class targets, the others below 0x100 targets that are
accessible at any time, of which STATUS alone shows BUSY and CMD alone depends on it. -/
theorem busyClassAccessIsHarmless : Obligations.BusyClassAccessIsHarmless := by
  intro s a v hb h₄ busyRegs idle
  refine ⟨fun h => ?_, fun hlt hn => ?_⟩
  · obtain ⟨t, hl, ht⟩ : ∃ t, locate s.params a = some t ∧ t.always = false :=
      h.elim locate_busyReg (locate_window h₄)
    exact ⟨busRead_busy hl ht hb, busWrite_busy hl ht hb v⟩
  · obtain ⟨t, hl, ht, hstatus, hcmd⟩ := locate_always (p := s.params) h₄ hlt hn
    rw [busRead_at hl (.inl ht), busWrite_at hl (.inl ht),
      busRead_at (s := idle) hl (.inl ht), busWrite_at (s := idle) hl (.inl ht)]
    refine ⟨rfl, fun ha => ?_, fun ha => ⟨rfl, ?_⟩, ?_⟩
    · rw [readTarget_withBusy s false (mt hstatus ha)]
    · exact writeTarget_withBusy s false v (mt hcmd ha)
    · rintro rfl
      obtain rfl : Target.reg .cmd = t := Option.some.inj ((locate_reg s.params .cmd).symm.trans hl)
      exact congrArg _ (accept_busy hb v)

/-- Settles O52: each of these targets' writes leaves the state, and a reserved offset reads 0. -/
theorem readOnlyTargetsIgnoreWrites : Obligations.ReadOnlyTargetsIgnoreWrites := by
  intro s a t v hl
  refine ⟨?_, ?_, fun hb => ?_⟩
  · rintro ⟨b, rfl⟩
    exact ⟨congrArg Prod.fst (busRead_at hl (.inl rfl)), busWrite_at hl (.inl rfl) v⟩
  · rintro (rfl | rfl | rfl | rfl) <;> exact busWrite_at hl (.inl rfl) v
  · rw [busWrite_at hl (.inr hb)]
    rintro (rfl | rfl | rfl | rfl | rfl | rfl | rfl | ⟨k, rfl⟩ | ⟨k, j, rfl⟩ | ⟨n, i, rfl⟩) <;> rfl

/-! ### A host step -/

/-- R10, R123: nothing moves exactly when nothing is pending and no input is left. -/
theorem mover_none_iff : s.mover = none ↔ s.cmd.busy = false ∧ s.env.host = [] := by
  unfold State.mover
  cases s.cmd.busy <;> cases s.env.host <;> simp

/-- R144: an idle machine keeps its state. -/
theorem step_idle (h : s.mover = none) : step s = .next s := by rw [step, h]

/-- R67: the host's move is its step. -/
theorem step_host (h : s.mover = some .host) : step s = .next s.hostStep.turnTaken := by rw [step, h]

/-- R67, R85: an access is answered, and gone from the host's list if it is not to be repeated. -/
theorem step_access {i : Input} {rest : List Input} {r : BusResponse × State} (hm : s.mover = some .host)
    (hi : s.env.host = i :: rest) (hr : s.input i = State.answered r) : step s =
    .next { r.2 with env := { r.2.env with
      host := if s.usesUp i then rest else i :: rest, turns := s.env.turns.tail, resp := some r.1 } } := by
  obtain ⟨hhost, hturns⟩ := input_env s i
  rw [hr] at hhost hturns
  have hhost : r.2.env.host = i :: rest := hhost.trans hi
  have hturns : r.2.env.turns = s.env.turns := hturns
  rw [step_host hm, State.hostStep, hi]
  cases hu : s.usesUp i <;>
    simp [hu, hr, State.nextInput, State.turnTaken, State.answered, hhost, hturns]

/-- R145: a hardware reset leaves the host its coming inputs. -/
theorem step_hardReset {rest : List Input} (hm : s.mover = some .host) (hi : s.env.host = .hardReset :: rest) :
    step s =
    .next { State.reset with
      params := s.params, env := ⟨rest, s.env.turns.tail, none, s.env.draws, s.env.epoch + 1⟩ } := by
  rw [step_host hm, State.hostStep, hi]
  simp [State.usesUp, State.input, State.hardReset, State.nextInput, State.turnTaken, hi]

/-- Settles O11: `step` is the mover's move, and a host step is `step_access` or a reset. -/
theorem stepIsOneAgentsMove : Obligations.StepIsOneAgentsMove := by
  intro s
  refine ⟨mover_sequencer, mover_host, mover_none_iff, step_idle, fun i rest hm hi => ?_⟩
  cases i with
  | read a => exact step_access hm hi rfl
  | write a v => exact step_access hm hi rfl
  | strobedRead strobes a =>
    refine ⟨?_, fun h => ?_⟩
    · rintro rfl
      exact step_access hm hi rfl
    · exact step_access hm hi (congrArg State.answered (strobedRead_missing h a))
  | strobedWrite strobes a v =>
    refine ⟨?_, fun h => ?_⟩
    · rintro rfl
      exact step_access hm hi rfl
    · exact step_access hm hi (congrArg State.answered (strobedWrite_missing h a v))
  | wait =>
    have hstep := step_access (r := s.busRead 0x014) hm hi rfl
    exact ⟨fun hb => by simpa [State.usesUp, hb] using hstep, fun hb => by simpa [State.usesUp, hb] using hstep⟩
  | hardReset => exact step_hardReset hm hi
  | hardResetDuring isWrite =>
    refine ⟨overlapResponse isWrite s.env.draws, step_access hm hi rfl, ?_, ?_⟩ <;> rintro rfl <;> rfl

end Sys2Proof.Machine

/-! The encoding of commands (30_encoding.md): the proofs. -/

/-! ### The fields of a word -/

namespace Sys2Proof

variable {w : Word} {r : Row} {i : Instr}

/-- R74: the bits outside OP are A and RSV. -/
theorem extract_eight_eq_zero_iff : w.extractLsb' 8 24 = 0 ↔ symField w = 0 ∧ rsvField w = 0 := by
  simp only [symField, rsvField, BitVec.toNat_eq, BitVec.extractLsb'_toNat, Nat.shiftRight_eq_div_pow,
    BitVec.ofNat_eq_ofNat, BitVec.toNat_ofNat]
  omega

/-- R76: the bits outside OP and BIT are A[7:1] and RSV. -/
theorem extract_nine_eq_zero_iff : w.extractLsb' 9 23 = 0 ↔ (symField w).toNat < 2 ∧ rsvField w = 0 := by
  simp only [symField, rsvField, BitVec.toNat_eq, BitVec.extractLsb'_toNat, Nat.shiftRight_eq_div_pow,
    BitVec.ofNat_eq_ofNat, BitVec.toNat_ofNat]
  omega

/-- R76, R77: an operand field that is a bit is the field of BIT. -/
theorem symField_of_lt_two (h : (symField w).toNat < 2) : symField w = if bitField w then 1 else 0 := by
  have hb : bitField w = (symField w).getLsbD 0 := by simp [bitField, symField]
  rw [hb]
  generalize symField w = a at h
  obtain rfl | rfl : a = 0 ∨ a = 1 := by bv_omega
  · rfl
  · rfl

/-- R73: a word is the word of its three fields. -/
theorem word_fieldsOf (w : Word) : (fieldsOf w).word = w := by
  refine BitVec.eq_of_getLsbD_eq fun i hi => ?_
  simp only [fieldsOf, Fields.word, opField, symField, rsvField, BitVec.getLsbD_or, BitVec.getLsbD_shiftLeft,
    BitVec.getLsbD_setWidth, BitVec.getLsbD_extractLsb']
  -- bit `i` is one of OP, of A or of RSV
  obtain h | ⟨h₁, h₂⟩ | h : i < 8 ∨ (8 ≤ i ∧ i < 16) ∨ 16 ≤ i := by omega
  · grind
  · grind
  · grind

/-- R73 to R78: every command's word is the word of its fields, from which the fields are read back. -/
theorem encodingFields (i : Instr) : Laws.EncodingFields.Statement i := by
  cases i with
  | nop => exact Laws.EncodingFields.nop
  | softReset => exact Laws.EncodingFields.softReset
  | clrErr => exact Laws.EncodingFields.clrErr
  | freqClear => exact Laws.EncodingFields.freqClear
  | freqInc s => exact Laws.EncodingFields.freqInc s
  | build => exact Laws.EncodingFields.build
  | encSym s => exact Laws.EncodingFields.encSym s
  | decReset => exact Laws.EncodingFields.decReset
  | decBit b => exact Laws.EncodingFields.decBit b
  | decSym => exact Laws.EncodingFields.decSym
  | decFinish => exact Laws.EncodingFields.decFinish

theorem fieldsOf_encode (i : Instr) : fieldsOf (encode i) = i.fields := by
  obtain ⟨-, h, -⟩ := encodingFields i
  exact h

/-- R73: a command's word is the word with the command's fields. -/
theorem encode_eq_iff : encode i = w ↔ fieldsOf w = i.fields := by
  constructor
  · rintro rfl
    exact fieldsOf_encode i
  · intro h
    calc encode i = (fieldsOf (encode i)).word := (word_fieldsOf _).symm
      _ = (fieldsOf w).word := by rw [fieldsOf_encode, h]
      _ = w := word_fieldsOf w

/-! ### Formats and rows -/

/-- R80: the bits of the word outside the format's fields are 0. -/
def Format.fits (f : Format) (w : Word) : Prop :=
  match f with
  | .n => w.extractLsb' 8 24 = 0
  | .s => w.extractLsb' 16 16 = 0
  | .b => w.extractLsb' 9 23 = 0

theorem hit_iff (hr : r ∈ opcodeMap) :
    w &&& r.mask = r.pattern ↔ opField w = r.op ∧ r.format.fits w :=
  (opcodeMap_hit_iff w r hr).trans (by cases r.format <;> rfl)

/-- R78: the rows of the opcode map are the assigned OPs with their formats. -/
theorem formatOf_eq_some_iff {op : BitVec 8} {f : Format} :
    formatOf op = some f ↔ ∃ r ∈ opcodeMap, r.op = op ∧ r.format = f := by
  revert op
  cases f <;> decide +kernel

/-- R78, R79: no OP stands in two rows. -/
theorem opcodeMap_op_injective : ∀ r ∈ opcodeMap, ∀ r' ∈ opcodeMap, r.op = r'.op → r = r' := by decide

/-- R79: at most one row matches a word. -/
theorem hit_unique {r' : Row} (hr : r ∈ opcodeMap) (hr' : r' ∈ opcodeMap) (h : w &&& r.mask = r.pattern)
    (h' : w &&& r'.mask = r'.pattern) : r = r' := by
  obtain ⟨hop, -⟩ := (hit_iff hr).1 h
  obtain ⟨hop', -⟩ := (hit_iff hr').1 h'
  exact opcodeMap_op_injective r hr r' hr' (hop.symm.trans hop')

theorem exists_hit_iff :
    (∃ r ∈ opcodeMap, w &&& r.mask = r.pattern) ↔ ∃ f, formatOf (opField w) = some f ∧ f.fits w := by
  constructor
  · rintro ⟨r, hr, h⟩
    obtain ⟨hop, hfits⟩ := (hit_iff hr).1 h
    exact ⟨r.format, formatOf_eq_some_iff.2 ⟨r, hr, hop.symm, rfl⟩, hfits⟩
  · rintro ⟨f, hf, hfits⟩
    obtain ⟨r, hr, hop, rfl⟩ := formatOf_eq_some_iff.1 hf
    exact ⟨r, hr, (hit_iff hr).2 ⟨hop.symm, hfits⟩⟩

/-- R80: a word's fields are legal when its OP is assigned and the bits outside its format's fields are 0. -/
theorem wellFormed_fieldsOf_iff :
    (fieldsOf w).wellFormed = true ↔ ∃ f, formatOf (opField w) = some f ∧ f.fits w := by
  simp only [Fields.wellFormed, Fields.opAssigned, Fields.operandFits, Fields.reservedZero, fieldsOf]
  cases formatOf (opField w) with
  | none => simp
  | some f =>
    cases f with
    | n => simpa [Format.fits] using extract_eight_eq_zero_iff.symm
    | s => simp [Format.fits, rsvField]
    | b => simpa [Format.fits, Nat.lt_succ_iff] using extract_nine_eq_zero_iff.symm

/-! ### The command of a row -/

/-- R74 to R77: what the operand field of a word that fits the format is. -/
def Format.operand (f : Format) (w : Word) : BitVec 8 :=
  match f with
  | .n => 0
  | .s => symField w
  | .b => if bitField w then 1 else 0

theorem Format.fields_of_fits {f : Format} (h : f.fits w) : symField w = f.operand w ∧ rsvField w = 0 := by
  cases f with
  | n => exact extract_eight_eq_zero_iff.1 h
  | s => exact ⟨rfl, h⟩
  | b =>
    obtain ⟨ha, hrsv⟩ := extract_nine_eq_zero_iff.1 h
    exact ⟨symField_of_lt_two ha, hrsv⟩

/-- R77: a matching row's command has the fields of the word. -/
theorem Row.instr_of_hit (hr : r ∈ opcodeMap) (h : w &&& r.mask = r.pattern) :
    ∃ i, r.instr w = some i ∧ fieldsOf w = i.fields := by
  obtain ⟨hop, hfits⟩ := (hit_iff hr).1 h
  obtain ⟨hsym, hrsv⟩ := Format.fields_of_fits hfits
  have hfields : fieldsOf w = ⟨r.op, r.format.operand w, 0⟩ := by rw [fieldsOf, hop, hsym, hrsv]
  simp only [opcodeMap, List.mem_cons, List.not_mem_nil, or_false] at hr
  rcases hr with rfl | rfl | rfl | rfl | rfl | rfl | rfl | rfl | rfl | rfl | rfl
  all_goals exact ⟨_, rfl, hfields⟩

/-- R77, R78: the row with a command's OP reads the command back from its word. -/
theorem Row.instr_encode (h : r.op = i.fields.op) : r.instr (encode i) = some i := by
  have hsym : symField (encode i) = i.fields.a := congrArg Fields.a (fieldsOf_encode i)
  have hbit (b : Bool) : bitField (encode (.decBit b)) = b := by cases b <;> decide
  cases i <;> simp [Row.instr, h, hsym, hbit, Instr.fields]

/-! ### Decoding -/

/-- R79: the matching row, being the only one, is the one the decoder finds. -/
theorem find_hit (hr : r ∈ opcodeMap) (h : w &&& r.mask = r.pattern) :
    opcodeMap.find? (fun r => r.hits w) = some r := by
  cases hf : opcodeMap.find? (fun r => r.hits w) with
  | none => exact absurd (beq_iff_eq.2 h) (List.find?_eq_none.1 hf r hr)
  | some r' =>
    rw [hit_unique (List.mem_of_find?_eq_some hf) hr (beq_iff_eq.1 (List.find?_some (p := (Row.hits · w)) hf)) h]

/-- R77, R79: a word that a row matches decodes to the command with the word's fields. -/
theorem decode_of_hit (hr : r ∈ opcodeMap) (h : w &&& r.mask = r.pattern) :
    ∃ i, decode w = .ok i ∧ fieldsOf w = i.fields := by
  obtain ⟨i, hi, hfields⟩ := Row.instr_of_hit hr h
  exact ⟨i, by simp only [decode, find_hit hr h, hi], hfields⟩

/-- R80, R81: a word that no row matches is illegal, by its OP or by the bits beside it. -/
theorem decode_of_not_wellFormed (h : (fieldsOf w).wellFormed = false) :
    decode w = .error (if (formatOf (opField w)).isSome then .reservedBits else .unassignedOp) := by
  have hf : opcodeMap.find? (fun r => r.hits w) = none := List.find?_eq_none.2 fun r hr hit =>
    Bool.false_ne_true (h.symm.trans (wellFormed_fieldsOf_iff.2 (exists_hit_iff.1 ⟨r, hr, beq_iff_eq.1 hit⟩)))
  simp only [decode, hf, apply_ite Except.error]

/-- R79, R80: the words that decode are those with legal fields. -/
theorem decode_ok_iff_wellFormed : (∃ i, decode w = .ok i) ↔ (fieldsOf w).wellFormed = true := by
  cases hw : (fieldsOf w).wellFormed with
  | true =>
    obtain ⟨r, hr, h⟩ := exists_hit_iff.2 (wellFormed_fieldsOf_iff.1 hw)
    obtain ⟨i, hi, -⟩ := decode_of_hit hr h
    simp [hi]
  | false => simp [decode_of_not_wellFormed hw]

theorem decode_error_iff_not_wellFormed : (∃ why, decode w = .error why) ↔ ¬ (fieldsOf w).wellFormed = true := by
  rw [← decode_ok_iff_wellFormed]
  cases decode w <;> simp

/-- R79: a command that is well-formed is what its word decodes to. -/
theorem decode_encode (hi : i.wellFormed = true) : decode (encode i) = .ok i := by
  have hw : (fieldsOf (encode i)).wellFormed = true := by rwa [fieldsOf_encode]
  obtain ⟨r, hr, h⟩ := exists_hit_iff.2 (wellFormed_fieldsOf_iff.1 hw)
  have hop : r.op = i.fields.op := by
    rw [← ((hit_iff hr).1 h).1, ← fieldsOf_encode, fieldsOf]
  simp only [decode, find_hit hr h, Row.instr_encode hop]

/-- R73: only its own word decodes to a command. -/
theorem encode_of_decode (h : decode w = .ok i) : encode i = w := by
  obtain ⟨r, hr, hit⟩ := exists_hit_iff.2 (wellFormed_fieldsOf_iff.1 (decode_ok_iff_wellFormed.1 ⟨i, h⟩))
  obtain ⟨j, hj, hfields⟩ := decode_of_hit hr hit
  obtain rfl : j = i := Except.ok.inj (hj.symm.trans h)
  exact encode_eq_iff.2 hfields

/-- R73 to R80: a word decodes to a command exactly when it is the command's word; every command is well-formed, since
its operands' types carry their bounds. -/
theorem decode_eq_ok_iff : decode w = .ok i ↔ encode i = w :=
  ⟨encode_of_decode, fun h => h ▸ decode_encode (Laws.instr_wellFormed i)⟩

/-- Settles O2: `decode_encode` one way, and the other way a decoded word has the fields of its command. -/
theorem decodeAndEncodeAreInverse : Obligations.DecodeAndEncodeAreInverse :=
  ⟨fun _ => decode_encode, fun _ _ => encode_of_decode⟩

/-- Settles O3: what decodes is what some row hits; a hit fixes the OP, and so the row; and legality of the fields is
the format's condition on the bits. -/
theorem decodingIsUnambiguousAndStrict : Obligations.DecodingIsUnambiguousAndStrict := by
  refine ⟨fun w => ?_, fun w r r' hr hr' => hit_unique hr hr', fun w => ?_⟩
  · rw [decode_ok_iff_wellFormed, wellFormed_fieldsOf_iff, exists_hit_iff]
  · rw [decode_error_iff_not_wellFormed, wellFormed_fieldsOf_iff, opField]
    cases formatOf (w.extractLsb' 0 8) with
    | none => simp
    | some f => cases f <;> simp [Format.fits]

/-- Settles O1: the legal words are the words of their commands, and the illegal ones have fields that are refused. -/
theorem exampleWordsDecode : Obligations.ExampleWordsDecode := by
  refine ⟨?_, ?_, ?_, ?_, ?_, ?_, ?_, ?_, ?_, ?_, ?_, ?_, decode_of_not_wellFormed rfl, decode_of_not_wellFormed rfl,
    decode_of_not_wellFormed rfl, decode_of_not_wellFormed rfl⟩
  all_goals exact decode_eq_ok_iff.2 rfl

end Sys2Proof

/-! ### An illegal word -/

namespace Sys2Proof.Machine

variable {s : State}

/-- R80, R123: the sequencer's step on an illegal word records the word and completes. -/
theorem step_illegal {why : Illegal} (hm : s.mover = some .sequencer) (hd : decode s.cmd.pending = .error why) :
    step s = .next (s.raise .illegalCommand s.cmd.pending).complete.turnTaken := by
  simp only [step, hm, State.execute, State.outcome, hd, onNext_next]

/-- Settles O8: `step_illegal`, with the updates of the failure, the completion and the turn written out. -/
theorem illegalWordFailsWithItself : Obligations.IllegalWordFailsWithItself :=
  fun _ _ hm hd => ⟨_, step_illegal hm hd, rfl⟩

end Sys2Proof.Machine

/-! The frequency table (40_frequency.md): the proofs. -/

namespace Sys2Proof.Machine

variable {s t : State} {k : Symbol}

/-! ### FREQ_CLEAR -/

/-- R87: every count is one of the 256 zeros written. -/
@[simp] theorem State.freqRead_freqClear (s : State) (k : Symbol) : s.freqClear.freqRead k = 0 := by
  have hk : k.toNat < zeroCounts.length := length_zeroCounts ▸ k.isLt
  have hfind := Memory.find_writeFrom_inside s.mem.freq 0 zeroCounts k.toNat hk
  rw [Nat.zero_add] at hfind
  rw [State.freqRead, State.freqClear_mem, hfind, Option.getD_some]
  simp [zeroCounts]

theorem exec_freqClear (s : State) : exec .freqClear s = .next s.freqClear := rfl

/-- Settles O22: `freqRead_freqClear`; FREQ_CLEAR writes no other part of the state. -/
theorem freqClearZeroesEveryCount : Obligations.FreqClearZeroesEveryCount :=
  fun s => ⟨s.freqClear, exec_freqClear s, s.freqRead_freqClear, rfl⟩

/-! ### FREQ_INC -/

/-- R88: below the maximum, FREQ_INC cannot fail. -/
theorem exec_freqInc (h : s.freqRead k ≠ 0xFFFFFFFF) :
    exec (.freqInc k) s = .next (s.freqWrite k (s.freqRead k + 1)) := by
  obtain ⟨t, e, hc⟩ | ⟨c, w, -, hf⟩ := exec_cases (.freqInc k) s
  · cases hc with
    | freqInc => exact e
  · cases hf with
    | freqOverflow hmax => exact absurd hmax h

/-- R88: at the maximum, FREQ_INC cannot commit. -/
theorem exec_freqInc_overflow (h : s.freqRead k = 0xFFFFFFFF) :
    exec (.freqInc k) s = .next (s.raise .freqOverflow (k.setWidth 32)) := by
  obtain ⟨t, -, hc⟩ | ⟨c, w, e, hf⟩ := exec_cases (.freqInc k) s
  · cases hc with
    | freqInc hlt => exact absurd h hlt
  · cases hf with
    | freqOverflow => exact e

/-- R88: below the maximum, the one count is incremented without wrapping and the others are kept. -/
theorem toNat_freqRead_incremented (h : s.freqRead k ≠ 0xFFFFFFFF) (k' : Symbol) :
    ((s.freqWrite k (s.freqRead k + 1)).freqRead k').toNat = (s.freqRead k').toNat + if k = k' then 1 else 0 := by
  rw [State.freqRead_freqWrite]
  by_cases hk : k' = k
  · subst hk
    rw [if_pos rfl, if_pos rfl]
    bv_omega
  · rw [if_neg hk, if_neg (Ne.symm hk), Nat.add_zero]

/-- Settles O23: the two cases of R88; after the write only count `k` reads differently. -/
theorem freqIncAddsOneOrOverflows : Obligations.FreqIncAddsOneOrOverflows := by
  refine fun s k => ⟨fun h => ⟨_, exec_freqInc h, ?_, fun k' hk => ?_, rfl⟩, exec_freqInc_overflow⟩
  · rw [toNat_freqRead_incremented h, if_pos rfl]
  · rw [State.freqRead_freqWrite, if_neg hk]

/-! ### Counting a text -/

/-- R123, R125: the commands after one that answers `t` start where it is completed. -/
theorem runCommands_cons {i : Instr} (is : List Instr) (h : exec i s = .next t) :
    runCommands (i :: is) s = runCommands is t.complete := by
  rw [runCommands, h]

/-- One FREQ_INC per symbol of a text adds the symbol's occurrences to each count, as long as no sum leaves the 32 bits
of an entry. -/
theorem runCommands_freqIncs (text : List Symbol) (s : State)
    (hfit : ∀ k, (s.freqRead k).toNat + text.count k < 2 ^ 32) :
    ∃ t, runCommands (text.map .freqInc) s = .next t ∧ t.error = s.error ∧
      ∀ k, (t.freqRead k).toNat = (s.freqRead k).toNat + text.count k := by
  induction text generalizing s with
  | nil => exact ⟨s, rfl, rfl, fun k => rfl⟩
  | cons a text ih =>
    have hmax : s.freqRead a ≠ 0xFFFFFFFF := by
      intro h
      have hlt := hfit a
      rw [h, List.count_cons_self, show (0xFFFFFFFF : Word).toNat = 2 ^ 32 - 1 from rfl] at hlt
      omega
    have hcount (k : Symbol) : ((s.freqWrite a (s.freqRead a + 1)).complete.freqRead k).toNat + text.count k =
        (s.freqRead k).toNat + (a :: text).count k := by
      rw [State.complete_freqRead, toNat_freqRead_incremented hmax, List.count_cons]
      simp only [beq_iff_eq]
      omega
    obtain ⟨t, hrun, herr, ht⟩ := ih _ fun k => hcount k ▸ hfit k
    exact ⟨t, (runCommands_cons _ (exec_freqInc hmax)).trans hrun, herr, fun k => (ht k).trans (hcount k)⟩

/-- Settles O24: after FREQ_CLEAR every count is 0, and no symbol occurs `2 ^ 32` times in a text shorter than that. -/
theorem countingATextGivesItsCounts : Obligations.CountingATextGivesItsCounts := by
  intro s text hlen
  have hzero (k : Symbol) : (s.freqClear.complete.freqRead k).toNat = 0 := by simp
  have hfit (k : Symbol) : (s.freqClear.complete.freqRead k).toNat + text.count k < 2 ^ 32 := by
    have hle : text.count k ≤ text.length := List.count_le_length
    rw [hzero]
    omega
  obtain ⟨t, hrun, herr, ht⟩ := runCommands_freqIncs text _ hfit
  exact ⟨t, (runCommands_cons _ (exec_freqClear s)).trans hrun, herr, fun k => by rw [ht, hzero, Nat.zero_add]⟩

end Sys2Proof.Machine

/-! BUILD (41_tree_builder.md): the proofs. -/

namespace Sys2Proof.Machine

variable {s t : State} {k : Symbol} {n : Nat}

/-! ### What BUILD answers -/

/-- Settles O25: with no counted symbol the seed is empty, and the failure writes the error state only. -/
theorem buildOnEmptyTableFails : Obligations.BuildOnEmptyTableFails :=
  exec_build_empty

/-- R91: with a counted symbol the only next state is the commit. -/
theorem eq_commitBuild (h : ∃ k, s.freqRead k ≠ 0) (e : exec .build s = .next t) : t = s.commitBuild :=
  (Host.Outcome.next.inj ((exec_build_eq s h).symm.trans e)).symm

theorem exists_counted (h2 : 2 ≤ s.leafCount) : ∃ k, s.freqRead k ≠ 0 := by
  obtain ⟨k, hk⟩ := List.exists_mem_of_length_pos (Nat.zero_lt_of_lt h2)
  exact ⟨k, (mem_seedSymbols s.freqRead k).1 hk⟩

theorem leafCount_pos (h : ∃ k, s.freqRead k ≠ 0) : 0 < s.leafCount :=
  List.length_pos_iff.2 (seedSymbols_ne_nil _ h)

/-- R98: the tree has `2 L - 1` nodes. -/
theorem length_builtNodes_eq (h : ∃ k, s.freqRead k ≠ 0) : (builtNodes s.freqRead).length = 2 * s.leafCount - 1 :=
  length_builtNodes _ h

/-- Settles O26: the commit's writes; R98 gives the number of nodes, and the last one is the root. -/
theorem buildWritesTreeAndCodes : Obligations.BuildWritesTreeAndCodes := by
  intro s h
  have hlen := length_builtNodes_eq h
  have hroot : s.commitBuild.tree.root.toNat = 2 * s.leafCount - 2 := by
    rw [commitBuild_root s h, hlen]
    omega
  exact ⟨s.commitBuild, exec_build_eq s h, rfl, commitBuild_nleaves s, hroot, rfl,
    fun n hn => commitBuild_nodeRead s (hlen ▸ hn), fun n hn => commitBuild_nodeRead_outside s (hlen ▸ hn),
    commitBuild_codeRead s, rfl⟩

/-- Settles O34: the commit's tree, node records and codes are functions of `freqRead`. -/
theorem buildDependsOnlyOnTheCounts : Obligations.BuildDependsOnlyOnTheCounts := by
  intro s s' t t' heq h e e'
  have hfreq : s.freqRead = s'.freqRead := funext heq
  obtain rfl := eq_commitBuild h e
  obtain rfl := eq_commitBuild (hfreq ▸ h) e'
  refine ⟨by rw [State.commitBuild_tree, State.commitBuild_tree, hfreq], fun n hn => ?_, fun k => ?_⟩
  · rw [commitBuild_nnodes s h] at hn
    rw [commitBuild_nodeRead s hn, commitBuild_nodeRead s' (hfreq ▸ hn), hfreq]
  · rw [commitBuild_codeRead, commitBuild_codeRead, hfreq]

/-! ### The leaves -/

theorem toNat_weight_leafNode (freq : Symbol → Word) (k : Symbol) : (leafNode freq k).weight.toNat = (freq k).toNat :=
  BitVec.toNat_setWidth_of_le (by decide)

/-- R92: the first `L` records are the leaves of the seed, in its order. -/
theorem commitBuild_leaf (h : ∃ k, s.freqRead k ≠ 0) (hn : n < (seedSymbols s.freqRead).length) :
    s.commitBuild.nodeRead n = leafNode s.freqRead (seedSymbols s.freqRead)[n] := by
  have hlen := length_builtNodes s.freqRead h
  rw [commitBuild_nodeRead s (by omega), (builtForest_ok _ h).1.leaves n (by simpa using hn), nodeAt_seedNodes _ hn]

/-- Settles O27: the leaves are those of the seed, which lists the counted symbols in ascending order. -/
theorem buildSeedsLeavesInSymbolOrder : Obligations.BuildSeedsLeavesInSymbolOrder := by
  intro s t h e
  obtain rfl := eq_commitBuild h e
  refine ⟨fun n hn => ?_, fun m n hmn hn => ?_, fun k hk => ?_⟩
  · rw [commitBuild_leaf h hn]
    exact ⟨rfl, toNat_weight_leafNode _ _, (mem_seedSymbols _ _).1 (List.getElem_mem hn), rfl, rfl⟩
  · rw [commitBuild_leaf h hn, commitBuild_leaf h (hmn.trans hn)]
    exact seedSymbols_lt _ hmn hn
  · obtain ⟨n, hn, hsym⟩ := List.getElem_of_mem ((mem_seedSymbols _ k).2 hk)
    exact ⟨n, hn, by rw [commitBuild_leaf h hn]; exact hsym⟩

/-! ### The merges -/

/-- What the merges make of a node from `L` on holds in the finished node table. -/
theorem internalOk_builtNodes (h : ∃ k, s.freqRead k ≠ 0) (hL : s.leafCount ≤ n) (hn : n < 2 * s.leafCount - 1) :
    InternalOk (builtNodes s.freqRead) s.leafCount n := by
  rw [leafCount_eq, ← length_seedNodes] at hL ⊢
  exact (builtForest_ok _ h).1.internal n hL (length_builtNodes_eq h ▸ hn)

theorem commitBuild_weight (hn : n < (builtNodes s.freqRead).length) :
    (s.commitBuild.nodeRead n).weight.toNat = weightNat (builtNodes s.freqRead) n := by
  rw [commitBuild_nodeRead s hn, weightNat]

theorem commitBuild_left (hn : n < (builtNodes s.freqRead).length) :
    (s.commitBuild.nodeRead n).left.toNat = leftNat (builtNodes s.freqRead) n := by
  rw [commitBuild_nodeRead s hn, leftNat]

theorem commitBuild_right (hn : n < (builtNodes s.freqRead).length) :
    (s.commitBuild.nodeRead n).right.toNat = rightNat (builtNodes s.freqRead) n := by
  rw [commitBuild_nodeRead s hn, rightNat]

theorem commitBuild_before {a b : Nat} (ha : a < (builtNodes s.freqRead).length)
    (hb : b < (builtNodes s.freqRead).length) :
    s.commitBuild.before a b ↔ beforeIn (builtNodes s.freqRead) a b := by
  rw [State.before, commitBuild_weight ha, commitBuild_weight hb, beforeIn]

theorem commitBuild_unmerged {lo m : Nat} (hn : n ≤ (builtNodes s.freqRead).length) :
    s.commitBuild.unmerged lo n m ↔ unmergedIn (builtNodes s.freqRead) lo n m := by
  refine forall_congr' fun j => forall_congr' fun _ => forall_congr' fun hj => ?_
  rw [commitBuild_left (hj.trans_le hn), commitBuild_right (hj.trans_le hn)]

/-- Settles O28: each node from `L` on was made by one merge, which `InternalOk` describes. -/
theorem buildMergesTheTwoLeastNodes : Obligations.BuildMergesTheTwoLeastNodes := by
  intro s t h e n hL hn
  obtain rfl := eq_commitBuild h e
  have hi := internalOk_builtNodes h hL hn
  rw [← length_builtNodes_eq h] at hn
  have hl := hi.left_lt
  have hr := hi.right_lt
  rw [commitBuild_left hn, commitBuild_right hn, commitBuild_nodeRead s hn]
  refine ⟨hi.isLeaf, hi.sym, hl, hr, hi.ne, ?_, ?_, ?_, fun m hm hmu hma hmb => ?_⟩
  · exact (commitBuild_unmerged hn.le).2 hi.left_unmerged
  · exact (commitBuild_unmerged hn.le).2 hi.right_unmerged
  · exact (commitBuild_before (hl.trans hn) (hr.trans hn)).2 hi.ordered
  · rw [commitBuild_unmerged hn.le] at hmu
    exact (commitBuild_before (hr.trans hn) (hm.trans hn)).2 (hi.least m hm hmu hma hmb)

/-- Settles O29: `InternalOk.weight` for each internal node; the merges keep the total weight of the collection, which
ends as the root alone. -/
theorem weightsAreExactSums : Obligations.WeightsAreExactSums := by
  intro s t h e
  obtain rfl := eq_commitBuild h e
  have hpos := leafCount_pos h
  have hlen := length_builtNodes_eq h
  refine ⟨fun n hL hn => ?_, ?_⟩
  · have hi := internalOk_builtNodes h hL hn
    rw [← hlen] at hn
    rw [commitBuild_weight hn, commitBuild_left hn, commitBuild_right hn, commitBuild_weight (hi.left_lt.trans hn),
      commitBuild_weight (hi.right_lt.trans hn)]
    exact hi.weight
  · rw [commitBuild_root s h, commitBuild_nodeRead s (by omega), ← sum_seed_weights]
    exact (builtForest_ok _ h).1.total

/-! ### The codes -/

/-- R101, R102: a symbol with count 0 has the empty code. -/
theorem commitBuild_codeRead_absent (h : ∃ k, s.freqRead k ≠ 0) (hk : s.freqRead k = 0) :
    s.commitBuild.codeRead k = CodeEntry.ofCode [] := by
  rw [commitBuild_codeRead, builtCode_absent _ h hk]

/-- Settles O30: `path_builtCode`, read in the committed tree; a symbol no leaf holds has the empty code. -/
theorem codesAreRootToLeafPaths : Obligations.CodesAreRootToLeafPaths := by
  intro s t h2 e
  have h := exists_counted h2
  obtain rfl := eq_commitBuild h e
  have hlen := length_builtNodes_eq h
  refine ⟨fun n hn => ?_, fun k hk => ?_⟩
  · rw [commitBuild_code s h, commitBuild_root s h, commitBuild_pathEnd s h _ (by omega),
      commitBuild_nodeRead s (by omega)]
    exact path_builtCode _ h2 hn
  · rw [commitBuild_codeRead_absent h hk]
    exact ⟨rfl, CodeEntry.bits_ofCode_nil⟩

/-- R43: BITS is 0 past the code. -/
theorem bit_ofCode_of_length_le {p : List Bool} {i : Nat} (h : p.length ≤ i) : (CodeEntry.ofCode p).bit i = false := by
  by_cases hi : i < 256
  · rw [CodeEntry.bit_ofCode p i hi, List.getD_eq_default _ _ h]
  · exact BitVec.getMsbD_of_ge _ _ (by omega)

/-- Settles O32: the bounds of `length_builtCode`, read in the committed entry. -/
theorem codeLengthsAreBounded : Obligations.CodeLengthsAreBounded := by
  intro s t h2 e
  have h := exists_counted h2
  obtain rfl := eq_commitBuild h e
  refine ⟨Nat.sub_le_sub_right (length_seedSymbols_le s.freqRead) 1, fun k hk => ?_⟩
  rw [commitBuild_len s h]
  obtain ⟨hpos, hle⟩ := length_builtCode s.freqRead h2 hk
  refine ⟨hpos, hle, fun i hi => ?_⟩
  rw [commitBuild_codeRead]
  exact bit_ofCode_of_length_le hi

theorem nodup_seedSymbols (freq : Symbol → Word) : (seedSymbols freq).Nodup :=
  (seedSymbols_pairwise freq).imp fun hlt e => hlt.ne (congrArg BitVec.toNat e)

/-- R92: a table with one counted symbol seeds one leaf. -/
theorem seedSymbols_eq_singleton {freq : Symbol → Word} (hk : freq k ≠ 0) (h : ∀ k', k' ≠ k → freq k' = 0) :
    seedSymbols freq = [k] := by
  have hperm := List.perm_ext_iff_of_nodup (nodup_seedSymbols freq) (List.nodup_singleton k)
  refine List.perm_singleton.1 (hperm.2 fun k' => ?_)
  rw [mem_seedSymbols, List.mem_singleton]
  exact ⟨fun hk' => by_contra fun hne => hk' (h k' hne), fun e => e ▸ hk⟩

theorem bits_ofCode_zero : (CodeEntry.ofCode [false]).bits = 0 := by decide +kernel

/-- Settles O31: the seed is the one symbol, so no merge is made and its leaf is the root. -/
theorem singleSymbolGetsTheCodeZero : Obligations.SingleSymbolGetsTheCodeZero := by
  intro s k hk hother
  have h : ∃ k, s.freqRead k ≠ 0 := ⟨k, hk⟩
  have hseed : seedSymbols s.freqRead = [k] := seedSymbols_eq_singleton hk hother
  have hroot : builtRoot s.freqRead = 0 := by
    rw [(builtForest_ok _ h).2, length_builtNodes _ h, hseed]
    rfl
  have hcode : s.commitBuild.codeRead k = CodeEntry.ofCode [false] := by
    rw [commitBuild_codeRead, builtCode_single _ (by rw [hseed]; rfl) hk]
  refine ⟨s.commitBuild, exec_build_eq s h, ?_, ?_, ?_, ?_, ?_, fun k' hk' => ?_⟩
  · rw [State.commitBuild_tree, hseed, hroot]
    rfl
  · rw [State.commitBuild_dec, hroot]
    rfl
  · rw [commitBuild_leaf h (by simp [hseed])]
    simp [hseed, leafNode]
  · rw [hcode]
    exact CodeEntry.code_ofCode _ (by decide)
  · rw [hcode]
    exact bits_ofCode_zero
  · rw [commitBuild_codeRead_absent h (hother k' hk')]
    rfl

/-! ### No code begins another, and the code is complete -/

section PrefixCode
variable {freq : Symbol → Word} (h : ∃ k, freq k ≠ 0)

/-- R104: Walk's paths exclude each other, and a single leaf's code has no other beside it. -/
theorem builtCodes_prefixFree (freq : Symbol → Word) : prefixFree (builtCodes freq) := by
  rw [builtCodes, codesOf]
  split
  · exact List.pairwise_singleton _ _
  · exact walk_prefixFree _ _ _ _

include h

/-- R101, R102: the counted symbols are recorded, each with its own code and no other. -/
theorem mem_builtCodes {c : List Bool} : (k, c) ∈ builtCodes freq ↔ freq k ≠ 0 ∧ c = builtCode freq k := by
  have hb := (builtForest_ok freq h).1
  have hpos : 0 < (seedSymbols freq).length := List.length_pos_iff.2 (seedSymbols_ne_nil freq h)
  by_cases h2 : 2 ≤ (seedSymbols freq).length
  · rw [builtCodes_eq freq h, hb.mem_codesOf (by simpa using h2), length_seedNodes]
    constructor
    · rintro ⟨m, hm, rfl, hc⟩
      exact ⟨freq_leaf_ne_zero freq h hm, hb.path_unique hc (path_builtCode freq h2 hm)⟩
    · rintro ⟨hk, rfl⟩
      obtain ⟨m, hm, rfl⟩ := exists_leaf freq hk
      exact ⟨m, hm, rfl, path_builtCode freq h2 hm⟩
  · have h1 : (seedSymbols freq).length = 1 := by omega
    have hcodes : builtCodes freq = [((nodeAt (builtNodes freq) 0).sym, [false])] := by
      rw [builtCodes, codesOf, if_pos (by rw [length_builtNodes freq h, h1])]
    rw [hcodes, List.mem_singleton, Prod.mk.injEq]
    constructor
    · rintro ⟨rfl, rfl⟩
      have hk := freq_leaf_ne_zero freq h hpos
      exact ⟨hk, (builtCode_single freq h1 hk).symm⟩
    · rintro ⟨hk, rfl⟩
      obtain ⟨m, hm, rfl⟩ := exists_leaf freq hk
      obtain rfl : m = 0 := by omega
      exact ⟨rfl, builtCode_single freq h1 hk⟩

/-- R104: the codes of two counted symbols are both recorded, so neither begins the other. -/
theorem builtCode_not_prefix {k' : Symbol} (hne : k ≠ k') (hk : freq k ≠ 0) (hk' : freq k' ≠ 0) :
    ¬ builtCode freq k <+: builtCode freq k' := by
  have hsymm : Std.Symm fun x y : Symbol × List Bool => ¬ x.2 <+: y.2 ∧ ¬ y.2 <+: x.2 := ⟨fun _ _ => And.symm⟩
  have hmem := (mem_builtCodes h).2 ⟨hk, rfl⟩
  have hmem' := (mem_builtCodes h).2 ⟨hk', rfl⟩
  exact ((builtCodes_prefixFree freq).forall hmem hmem' fun e => hne (congrArg Prod.fst e)).1

/-- Walk records the seed's symbols with their codes, in its own order. -/
theorem builtCodes_perm : (builtCodes freq).Perm ((seedSymbols freq).map fun k => (k, builtCode freq k)) := by
  have hnd : (builtCodes freq).Nodup :=
    (builtCodes_prefixFree freq).imp fun hxy e => hxy.1 (by rw [e])
  have hnd' : ((seedSymbols freq).map fun k => (k, builtCode freq k)).Nodup :=
    (nodup_seedSymbols freq).map fun _ _ e => congrArg Prod.fst e
  refine (List.perm_ext_iff_of_nodup hnd hnd').2 fun ⟨k, c⟩ => ?_
  simp only [mem_builtCodes h, List.mem_map, mem_seedSymbols, Prod.mk.injEq]
  exact ⟨fun ⟨hk, hc⟩ => ⟨k, hk, rfl, hc.symm⟩, by rintro ⟨k, hk, rfl, rfl⟩; exact ⟨hk, rfl⟩⟩

/-- R104: the code is complete. -/
theorem builtCode_kraft (h2 : 2 ≤ (seedSymbols freq).length) :
    ((seedSymbols freq).map fun k => (1 / 2 : ℚ) ^ (builtCode freq k).length).sum = 1 := by
  have hlen := length_builtNodes freq h
  have hwalk : ((builtCodes freq).map fun c => (1 / 2 : ℚ) ^ c.2.length).sum = 1 := by
    rw [builtCodes_eq freq h, codesOf, if_neg (by omega), (builtForest_ok freq h).1.walk_kraft (by omega) (by omega)]
    simp
  rw [((builtCodes_perm h).map _).sum_eq, List.map_map] at hwalk
  exact hwalk

end PrefixCode

/-- Settles O33: the coded symbols are the counted ones. -/
theorem builtCodeIsCompletePrefixCode : Obligations.BuiltCodeIsCompletePrefixCode := by
  intro s t h e
  obtain rfl := eq_commitBuild h e
  refine ⟨fun k k' hne hk hk' => ?_, fun h2 => ?_⟩
  · rw [commitBuild_len_ne_zero s h] at hk hk'
    rw [commitBuild_code s h, commitBuild_code s h]
    exact builtCode_not_prefix h hne hk hk'
  · simp only [commitBuild_len_ne_zero s h, commitBuild_len s h]
    exact builtCode_kraft h h2

/-! ### Optimality -/

/-- `d` gives each node of a table the length of its paths from the root. -/
def depthsIn (nodes : List NodeRec) (d : Nat → Nat) : Prop :=
  ∀ p, ∀ m < nodes.length, pathEndIn nodes (nodes.length - 1) p = some m → d m = p.length

section Depths
variable {seed nodes : List NodeRec} (hb : BuiltOk seed nodes)
include hb

/-- Every node of a finished table has one path from the root, and so a depth. -/
theorem BuiltOk.exists_depthsIn : ∃ d, depthsIn nodes d := by
  choose! p hp using fun m hm => hb.exists_path (m := m) hm
  exact ⟨fun m => (p m).length, fun q m hm hq => congrArg List.length (hb.path_unique (hp m hm) hq)⟩

/-- A child lies one edge deeper than its parent. -/
theorem BuiltOk.depth_child {d : Nat → Nat} (hd : depthsIn nodes d) {j : Nat} (hL : seed.length ≤ j)
    (hj : j < nodes.length) (b : Bool) : d (childNat nodes j b) = d j + 1 := by
  have hl : (nodeAt nodes j).isLeaf = false := (hb.internal j hL hj).isLeaf
  obtain ⟨p, hp⟩ := hb.exists_path hj
  have hchild : pathEndIn nodes (nodes.length - 1) (p ++ [b]) = some (childNat nodes j b) := by
    rw [pathEndIn_append, hp, Option.bind_some, pathEndIn_cons, hl]
    rfl
  rw [hd p j hj hp, hd _ _ ((hb.childNat_lt hj hl b).trans hj) hchild, List.length_append]
  rfl

end Depths

section Optimal
variable {freq : Symbol → Word} (h : ∃ k, freq k ≠ 0)
include h

/-- A sum over the leaves of the tree is a sum over the seed. -/
theorem sum_leaves {M : Type} [AddCommMonoid M] (g : Symbol → M) :
    ∑ n ∈ (seedForest freq).pq.toFinset, g (nodeAt (builtNodes freq) n).sym = ((seedSymbols freq).map g).sum := by
  rw [seedForest, List.sum_toFinset _ List.nodup_range]
  refine congrArg List.sum (List.ext_getElem (by simp) fun n hn hn' => ?_)
  rw [List.length_map] at hn'
  simp [sym_leaf freq h hn']

/-- The cost of lengths that belong to the leaves' symbols, as a sum over the seed. -/
theorem cost_leaves {d : Nat → Nat} {l : Symbol → Nat}
    (hd : ∀ n < (seedSymbols freq).length, d n = l (nodeAt (builtNodes freq) n).sym) :
    cost (weightNat (builtNodes freq)) d (seedForest freq).pq.toFinset =
      ((seedSymbols freq).map fun k => (freq k).toNat * l k).sum := by
  rw [← sum_leaves h, cost]
  refine Finset.sum_congr rfl fun n hn => ?_
  have hn : n < (seedSymbols freq).length := by simpa [seedForest] using hn
  rw [hd n hn, weightNat, sym_leaf freq h hn, (builtForest_ok freq h).1.leaves n (by simpa using hn),
    nodeAt_seedNodes freq hn, toNat_weight_leafNode]

omit h in
/-- Kraft's inequality for an assignment that gives no counted symbol a code that begins another's. -/
theorem kraft_le_one_of_prefixFree {c : Symbol → List Bool}
    (hc : ∀ k k', k ≠ k' → freq k ≠ 0 → freq k' ≠ 0 → ¬ c k <+: c k') :
    ((seedSymbols freq).map fun k => (1 / 2 : ℚ) ^ (c k).length).sum ≤ 1 := by
  have hpf : ((seedSymbols freq).map c).Pairwise fun x y => ¬ x <+: y ∧ ¬ y <+: x := by
    rw [List.pairwise_map]
    refine (nodup_seedSymbols freq).imp_of_mem fun hk hk' hne => ?_
    rw [mem_seedSymbols] at hk hk'
    exact ⟨hc _ _ hne hk hk', hc _ _ hne.symm hk' hk⟩
  have hle := kraft_le_one (((seedSymbols freq).map c).map List.length).sum
    (fun x hx => List.single_le_sum (fun _ _ => Nat.zero_le _) _ (List.mem_map_of_mem hx)) hpf
  rwa [kraft, List.map_map] at hle

/-- R106: the depths of the leaves, which are the lengths of the codes, cost no more than the
lengths of any codes of which none begins another. -/
theorem builtCode_optimal (h2 : 2 ≤ (seedSymbols freq).length) {c : Symbol → List Bool}
    (hc : ∀ k k', k ≠ k' → freq k ≠ 0 → freq k' ≠ 0 → ¬ c k <+: c k') :
    ((seedSymbols freq).map fun k => (freq k).toNat * (builtCode freq k).length).sum ≤
      ((seedSymbols freq).map fun k => (freq k).toNat * (c k).length).sum := by
  have hb := (builtForest_ok freq h).1
  have hlen := length_builtNodes freq h
  have hroot : (builtNodes freq).length - 1 < (builtNodes freq).length := by omega
  obtain ⟨d, hd⟩ := hb.exists_depthsIn
  have hcode : ∀ n < (seedSymbols freq).length, d n = (builtCode freq (nodeAt (builtNodes freq) n).sym).length :=
    fun n hn => hd _ n (by omega) (path_builtCode freq h2 hn)
  have hkraft : kraftSum (fun n => (c (nodeAt (builtNodes freq) n).sym).length) (seedForest freq).pq.toFinset ≤ 1 :=
    (sum_leaves h fun k => (1 / 2 : ℚ) ^ (c k).length).trans_le (kraft_le_one_of_prefixFree hc)
  rw [← cost_leaves h hcode, ← cost_leaves h fun _ _ => rfl]
  exact (forestInv_seed (seedOk freq h)).depths_le (seedOk freq h) (seedForest freq).pq.length (Nat.le_succ _) d
    (fun j hL hj => ⟨hb.depth_child hd hL hj false, hb.depth_child hd hL hj true⟩)
    (hd [] _ hroot rfl) _ hkraft

end Optimal

/-- Settles O35: a symbol with count 0 adds nothing to either sum, and on the others `builtCode_optimal` compares. -/
theorem builtCodeIsOptimal : Obligations.BuiltCodeIsOptimal := by
  intro s t h2 e c hc
  have h := exists_counted h2
  obtain rfl := eq_commitBuild h e
  rw [sum_allSymbols s.freqRead _ fun k hk => by simp [hk], sum_allSymbols s.freqRead _ fun k hk => by simp [hk]]
  simp only [commitBuild_len s h]
  exact builtCode_optimal h h2 hc

end Sys2Proof.Machine

/-! The encoder (42_encoder.md): the proofs. -/

namespace Sys2Proof.Machine

variable {s : State} {k : Symbol}

/-! ### Without a tree -/

/-- R133: a command behind NO_TREE's check answers the failure, whatever its own rule gives. -/
theorem answer_withTree_none {op : Word} {r : CmdResult} (h : s.tree.valid = false) :
    answer (withTree s op r) s = .next (s.raise .noTree op) := by
  rw [withTree_none h, answer_fail]

/-- Settles O42: each of the four rules stands behind NO_TREE's check. -/
theorem noTreeComesFirst : Obligations.NoTreeComesFirst := by
  rintro s h i op (⟨⟨k, rfl⟩, rfl⟩ | ⟨⟨b, rfl⟩, rfl⟩ | ⟨rfl, rfl⟩ | ⟨rfl, rfl⟩) <;>
    exact answer_withTree_none h

/-! ### ENC_SYM with a tree -/

/-- R108: the symbol has no code. -/
theorem exec_encSym_unknown (hv : s.tree.valid = true) (h : (s.codeRead k).len = 0) :
    exec (.encSym k) s = .next (s.raise .unknownSymbol (k.setWidth 32)) := by
  rw [exec, execEncSym, encSymRule, withTree_valid hv, if_pos h, answer_fail]

/-- R109: the code does not fit. -/
theorem exec_encSym_overflow (hv : s.tree.valid = true) (h : (s.codeRead k).len ≠ 0)
    (hfull : s.bitmemBits < s.ptr.encPtr.toNat + (s.codeRead k).len.toNat) :
    exec (.encSym k) s = .next (s.raise .bitmemOverflow (k.setWidth 32)) := by
  rw [exec, execEncSym, encSymRule, withTree_valid hv, if_neg h, if_pos hfull, answer_fail]

/-- R107: the code is there and fits. -/
theorem exec_encSym (hv : s.tree.valid = true) (h : (s.codeRead k).len ≠ 0)
    (hfit : s.ptr.encPtr.toNat + (s.codeRead k).len.toNat ≤ s.bitmemBits) :
    exec (.encSym k) s = .next (s.emit (s.codeRead k)) := by
  rw [exec, execEncSym, encSymRule, withTree_valid hv, if_neg h, if_neg (Nat.not_lt.2 hfit), answer_ok]

/-- Settles O37: the three failures, each under the conditions that the checks before it leave. -/
theorem encSymFailsInOrder : Obligations.EncSymFailsInOrder :=
  fun s k => ⟨fun h => noTreeComesFirst s h _ _ (.inl ⟨⟨k, rfl⟩, rfl⟩), exec_encSym_unknown, exec_encSym_overflow⟩

/-! ### What ENC_SYM commits -/

/-- R107: the code stands at ENC_PTR, first bit first. -/
theorem State.holdsAt_emit (s : State) (c : CodeEntry) : (s.emit c).holdsAt s.ptr.encPtr.toNat c.code :=
  fun _ hi => s.bitRead_bitWriteFrom_inside _ _ hi

/-- R107: the stream bits outside the code are kept. -/
theorem State.bitRead_emit_outside (s : State) (c : CodeEntry) {j : Nat}
    (h : j < s.ptr.encPtr.toNat ∨ s.ptr.encPtr.toNat + c.len.toNat ≤ j) : (s.emit c).bitRead j = s.bitRead j :=
  s.bitRead_bitWriteFrom_outside (by rwa [CodeEntry.length_code])

/-- R107: the 19 bits of ENC_PTR hold every position up to the end of a legal bit memory (R7). -/
theorem State.toNat_encPtr_emit {c : CodeEntry} (hp : s.params.wellFormed = true)
    (hfit : s.ptr.encPtr.toNat + c.len.toNat ≤ s.bitmemBits) :
    (s.emit c).ptr.encPtr.toNat = s.ptr.encPtr.toNat + c.len.toNat := by
  have hle : s.bitmemBits ≤ 2 ^ 18 := bitmemBits_le hp
  rw [State.emit_ptr, BitVec.toNat_ofNat, Nat.mod_eq_of_lt (by omega)]

/-- Settles O36: the commit of `exec_encSym`, with what it writes and what it keeps. -/
theorem encSymAppendsTheCode : Obligations.EncSymAppendsTheCode := by
  intro s k hp hv hlen hfit
  refine ⟨_, exec_encSym hv hlen hfit, fun i hi => ?_, fun j hj => s.bitRead_emit_outside _ hj,
    State.toNat_encPtr_emit hp hfit, rfl, rfl⟩
  have hi : i < (s.codeRead k).code.length := by rwa [CodeEntry.length_code]
  rw [s.holdsAt_emit _ i hi, CodeEntry.getElem_code]

/-! ### Encoding a text -/

theorem State.codeOfText_cons (s : State) (k : Symbol) (text : List Symbol) :
    s.codeOfText (k :: text) = (s.codeRead k).code ++ s.codeOfText text := List.flatMap_cons

/-- R110. The rest of a text is encoded past the code of its first symbol, which stays in place because the bits below
ENC_PTR are kept. -/
theorem runCommands_encSyms (text : List Symbol) (s : State) (hp : s.params.wellFormed = true)
    (hv : s.tree.valid = true) (hlen : ∀ k ∈ text, (s.codeRead k).len ≠ 0)
    (hfit : s.ptr.encPtr.toNat + (s.codeOfText text).length ≤ s.bitmemBits) :
    ∃ t, runCommands (text.map .encSym) s = .next t ∧ t.error = s.error ∧
      (∀ j < s.ptr.encPtr.toNat, t.bitRead j = s.bitRead j) ∧
      t.holdsAt s.ptr.encPtr.toNat (s.codeOfText text) ∧
      t.ptr.encPtr.toNat = s.ptr.encPtr.toNat + (s.codeOfText text).length := by
  induction text generalizing s with
  | nil => exact ⟨s, rfl, rfl, fun _ _ => rfl, fun i hi => absurd hi (Nat.not_lt_zero i), rfl⟩
  | cons k text ih =>
    obtain ⟨hk, htext⟩ := List.forall_mem_cons.1 hlen
    rw [s.codeOfText_cons, List.length_append, CodeEntry.length_code] at hfit ⊢
    have hptr := State.toNat_encPtr_emit (c := s.codeRead k) hp (by omega)
    obtain ⟨t, hrun, herr, hbelow, hrest, hend⟩ := ih (s.emit (s.codeRead k)).complete hp hv htext
      (by rw [State.complete_ptr, hptr, Nat.add_assoc]; exact hfit)
    rw [State.complete_ptr, hptr] at hbelow hrest hend
    have hfirst : t.holdsAt s.ptr.encPtr.toNat (s.codeRead k).code := fun i hi => by
      rw [hbelow _ (by rw [CodeEntry.length_code] at hi; omega)]
      exact s.holdsAt_emit _ i hi
    refine ⟨t, (runCommands_cons _ (exec_encSym hv hk (by omega))).trans hrun, herr, fun j hj => ?_,
      t.holdsAt_append.2 ⟨hfirst, ?_⟩, hend.trans (Nat.add_assoc ..)⟩
    · exact (hbelow j (by omega)).trans (s.bitRead_emit_outside _ (.inl hj))
    · rw [CodeEntry.length_code]
      exact hrest

/-- Settles O38: `runCommands_encSyms`, without the bits below the former ENC_PTR. -/
theorem encodingATextConcatenatesItsCodes : Obligations.EncodingATextConcatenatesItsCodes := by
  intro s text hp hv hlen hfit
  obtain ⟨t, hrun, herr, -, hholds, hptr⟩ := runCommands_encSyms text s hp hv hlen hfit
  exact ⟨t, hrun, herr, hholds, hptr⟩

end Sys2Proof.Machine

/-! The decoder (43_decoder.md): the proofs. -/

namespace Sys2Proof.Machine

variable {s t : State} {k : Symbol} {p : List Bool} {n : Nat}

/-! ### DEC_RESET -/

/-- Settles O39: DEC_RESET has no check, and moves the cursor only. -/
theorem decResetPutsTheCursorAtTheRoot : Obligations.DecResetPutsTheCursorAtTheRoot := fun _ => rfl

/-! ### DEC_BIT with a tree -/

section DecBit
variable {b : Bool} (hv : s.tree.valid = true)
include hv

/-- R115: the one-bit step from the cursor reaches a leaf. -/
theorem exec_decBit_emitted (h : s.walkBit s.dec.cursor b = .emitted k) :
    exec (.decBit b) s = .next (s.emitSymbol k) := by
  rw [exec, execDecBit, decBitRule, withTree_valid hv, h, answer_ok]

/-- R115: it reaches an internal node. -/
theorem exec_decBit_moved {cur : NodeIdx} (h : s.walkBit s.dec.cursor b = .moved cur) :
    exec (.decBit b) s = .next (s.moveCursor cur) := by
  rw [exec, execDecBit, decBitRule, withTree_valid hv, h, answer_ok]

/-- R113: the cursor stands at a leaf. -/
theorem exec_decBit_fromLeaf (h : s.walkBit s.dec.cursor b = .fromLeaf) :
    exec (.decBit b) s = .next (s.raise .malformedBitstream 1) := by
  rw [exec, execDecBit, decBitRule, withTree_valid hv, h, answer_fail]
  rfl

end DecBit

/-- Settles O40: the step emits the single leaf, or goes from the internal node to the child on the bit. -/
theorem decBitFollowsOneEdge : Obligations.DecBitFollowsOneEdge :=
  fun s b hv => ⟨fun h1 => exec_decBit_emitted hv (s.walkBit_single h1 _ b), fun h1 hl =>
    ⟨fun hc => exec_decBit_emitted hv (s.walkBit_emitted h1 hl hc),
      fun hc => exec_decBit_moved hv (s.walkBit_moved h1 hl hc)⟩⟩

/-! ### The move from a leaf -/

/-- R46(b): a tree of other than one leaf has at least two. -/
theorem State.TreeInv.two_le_nleaves (hi : s.TreeInv) (hv : s.tree.valid = true) (h1 : s.tree.nleaves ≠ 1) :
    2 ≤ s.tree.nleaves.toNat := by
  have hpos := (hi.leaves hv).1
  have hne : s.tree.nleaves.toNat ≠ 1 := fun e => h1 (BitVec.eq_of_toNat_eq e)
  omega

/-- R46(c): then the cursor stands at an internal node. -/
theorem State.TreeInv.atInternal (hi : s.TreeInv) (hv : s.tree.valid = true) (h1 : s.tree.nleaves ≠ 1) :
    s.atInternal s.dec.cursor :=
  s.atInternal_cursor hi hv (hi.two_le_nleaves hv h1)

/-- R113: the one-bit step from the cursor is no move from a leaf. -/
theorem State.TreeInv.walkBit_ne_fromLeaf (hi : s.TreeInv) (hv : s.tree.valid = true) (b : Bool) :
    s.walkBit s.dec.cursor b ≠ .fromLeaf := by
  by_cases h1 : s.tree.nleaves = 1
  · rw [s.walkBit_single h1]
    exact nofun
  · obtain ⟨k, e⟩ | ⟨cur, e, -⟩ := s.walkBit_cases hi h1 (hi.atInternal hv h1) b
    all_goals
      rw [e]
      exact nofun

/-- R113: nor does the loop of DEC_SYM make one, as it has a bit to read. -/
theorem State.TreeInv.scan_ne_fromLeaf (hi : s.TreeInv) (hv : s.tree.valid = true) {left pos : Nat} (h : left ≠ 0) :
    s.scan left pos s.dec.cursor ≠ .fromLeaf := by
  by_cases h1 : s.tree.nleaves = 1
  · rw [s.scan_single h1 h]
    exact nofun
  · exact s.scan_ne_fromLeaf hi h1 (hi.atInternal hv h1)

/-- R113, R130: no failure in a state that meets R46 is MALFORMED_BITSTREAM with subcause 1. -/
theorem Failed.ne_subcause_one {i : Instr} {c : ErrCode} {w : Word} (h : Failed s i c w) (hi : s.TreeInv) :
    c ≠ .malformedBitstream ∨ w ≠ 1 := by
  cases h with
  | bitFromLeaf hv h => exact absurd h (hi.walkBit_ne_fromLeaf hv _)
  | symFromLeaf hv hp h => exact absurd h (hi.scan_ne_fromLeaf hv (by omega))
  | noInput | truncated | unfinished => exact .inr (by decide)
  | _ => exact .inl nofun

/-- Settles O41: `exec_decBit_fromLeaf`, and `Failed.ne_subcause_one`; a command that commits keeps or clears the error
state. -/
theorem moveFromALeafNeverHappens : Obligations.MoveFromALeafNeverHappens := by
  refine ⟨fun s b hv h1 hl => exec_decBit_fromLeaf hv (s.walkBit_fromLeaf h1 hl b), fun i s t hi h => ?_⟩
  obtain hc | ⟨c, w, rfl, hf⟩ := exec_next h
  · obtain he | he := hc.error
    · exact .inl he
    · exact .inr (.inl (by rw [he]; exact nofun))
  · exact .inr (hf.ne_subcause_one hi.tree)

/-! ### DEC_SYM and DEC_FINISH with a tree -/

section DecSym
variable (hv : s.tree.valid = true)
include hv

/-- R119: there is no bit to read. -/
theorem exec_decSym_noInput (h : s.decLimit ≤ s.ptr.decPtr.toNat) :
    exec .decSym s = .next (s.raise .malformedBitstream 3) := by
  rw [exec, execDecSym, decSymRule, withTree_valid hv, if_pos h, answer_fail]
  rfl

/-- R116: the loop reaches a leaf. -/
theorem exec_decSym_found {next : Nat} (hp : s.ptr.decPtr.toNat < s.decLimit)
    (h : s.scan (s.decLimit - s.ptr.decPtr.toNat) s.ptr.decPtr.toNat s.dec.cursor = .found k next) :
    exec .decSym s = .next (s.commitSymbol k next) := by
  rw [exec, execDecSym, decSymRule, withTree_valid hv, if_neg (Nat.not_le.2 hp), h, answer_ok]

/-- R118: the loop runs out of bits. -/
theorem exec_decSym_truncated (hp : s.ptr.decPtr.toNat < s.decLimit)
    (h : s.scan (s.decLimit - s.ptr.decPtr.toNat) s.ptr.decPtr.toNat s.dec.cursor = .truncated) :
    exec .decSym s = .next (s.raise .malformedBitstream 2) := by
  rw [exec, execDecSym, decSymRule, withTree_valid hv, if_neg (Nat.not_le.2 hp), h, answer_fail]
  rfl

/-- R112, R116: a single-leaf tree takes one bit. -/
theorem exec_decSym_single (h1 : s.tree.nleaves = 1) (hp : s.ptr.decPtr.toNat < s.decLimit) :
    exec .decSym s = .next (s.commitSymbol (s.nodeRead 0).sym (s.ptr.decPtr.toNat + 1)) :=
  exec_decSym_found hv hp (s.scan_single h1 (by omega) _)

/-- R116: the bits from DEC_PTR on lead to a leaf. -/
theorem exec_decSym_path (h1 : s.tree.nleaves ≠ 1) (hp : p ≠ []) (hbits : s.holdsAt s.ptr.decPtr.toNat p)
    (hfit : s.ptr.decPtr.toNat + p.length ≤ s.decLimit) (hpath : s.pathEnd s.dec.cursor.toNat p = some n)
    (hl : (s.nodeRead n).isLeaf = true) :
    exec .decSym s = .next (s.commitSymbol (s.nodeRead n).sym (s.ptr.decPtr.toNat + p.length)) := by
  have hpos := List.length_pos_iff.2 hp
  exact exec_decSym_found hv (by omega) (s.scan_found h1 hp (by omega) hbits hpath hl)

/-- R117: the cursor is at the root. -/
theorem exec_decFinish (h : s.dec.cursor = s.tree.root) : exec .decFinish s = .next s := by
  rw [exec, execDecFinish, decFinishRule, withTree_valid hv, if_neg (not_not_intro h), answer_ok]

/-- R117: the cursor is inside the tree. -/
theorem exec_decFinish_unfinished (h : s.dec.cursor ≠ s.tree.root) :
    exec .decFinish s = .next (s.raise .malformedBitstream 2) := by
  rw [exec, execDecFinish, decFinishRule, withTree_valid hv, if_pos h, answer_fail]
  rfl

end DecSym

/-- R116: the 19 bits of DEC_PTR hold every position up to DEC_END, and so up to the limit. -/
theorem State.toNat_decPtr_commitSymbol {next : Nat} (h : next ≤ s.decLimit) :
    (s.commitSymbol k next).ptr.decPtr.toNat = next := by
  have hend : s.decLimit ≤ s.ptr.decEnd.toNat := Nat.min_le_left _ _
  rw [State.commitSymbol_ptr, BitVec.toNat_ofNat, Nat.mod_eq_of_lt (by omega)]

/-- Settles O43: the commits of `exec_decSym_path` and `exec_decSym_single`; neither moves DEC_PTR past the limit. -/
theorem decSymEmitsTheLeafTheBitsLeadTo : Obligations.DecSymEmitsTheLeafTheBitsLeadTo :=
  fun _ _ hv => ⟨fun _ _ h1 hp hbits hfit hpath hl => ⟨_, exec_decSym_path hv h1 hp hbits hfit hpath hl,
    State.toNat_decPtr_commitSymbol hfit, rfl, rfl⟩, fun h1 hp => ⟨_, exec_decSym_single hv h1 hp,
    State.toNat_decPtr_commitSymbol hp, rfl, rfl⟩⟩

/-- Settles O44: with no bit the loop is not entered; else its bits are all those up to the limit. -/
theorem decSymFailsWithoutEnoughBits : Obligations.DecSymFailsWithoutEnoughBits := by
  refine fun s hv => ⟨exec_decSym_noInput hv, fun p n h1 hp hbits hlimit hpath hl => ?_⟩
  have hpos := List.length_pos_iff.2 hp
  have hleft : s.decLimit - s.ptr.decPtr.toNat = p.length := by omega
  exact exec_decSym_truncated hv (by omega) (by rw [hleft, s.scan_truncated h1 hbits hpath hl])

/-- Settles O45: the check of R117, behind the tree's. -/
theorem decFinishChecksTheCursor : Obligations.DecFinishChecksTheCursor :=
  fun _ hv => ⟨exec_decFinish hv, exec_decFinish_unfinished hv⟩

/-! ### Decoding a text -/

/-- The decoder stands at the root of a finished tree (R46), whose codes (R43) the symbols of the text have. -/
structure State.Coded (s : State) (text : List Symbol) : Prop where
  tree : s.TreeInv
  code : s.CodeInv
  valid : s.tree.valid = true
  atRoot : s.dec.cursor = s.tree.root
  coded : ∀ k ∈ text, (s.codeRead k).len ≠ 0

/-- R120: the machine is about to decode a text: its codes are all that stands between DEC_PTR and DEC_END. -/
structure State.Decodable (s : State) (text : List Symbol) : Prop extends s.Coded text where
  bits : s.holdsAt s.ptr.decPtr.toNat (s.codeOfText text)
  ends : s.ptr.decEnd.toNat = s.ptr.decPtr.toNat + (s.codeOfText text).length
  fits : s.ptr.decEnd.toNat ≤ s.bitmemBits

section Decoding
variable {text : List Symbol}

/-- The codes rest on the tree registers and the two tables, and the cursor may be put at the root again. -/
theorem State.Coded.congr (h : s.Coded text) (ht : t.tree = s.tree) (hn : t.nodeRead = s.nodeRead)
    (hc : t.codeRead = s.codeRead) (hroot : t.dec.cursor = t.tree.root) : t.Coded text where
  tree := h.tree.congr ht (by rw [hroot, ht, h.atRoot]) hn
  code := h.code.congr ht hn hc
  valid := ht ▸ h.valid
  atRoot := hroot
  coded := hc ▸ h.coded

/-- What holds of a text's symbols holds of the rest of the text. -/
theorem State.Coded.tail (h : s.Coded (k :: text)) : s.Coded text :=
  { h with coded := (List.forall_mem_cons.1 h.coded).2 }

/-- R101, R102: from the root, DEC_SYM decodes the code of a symbol to that symbol. -/
theorem State.Coded.exec_decSym (h : s.Coded (k :: text)) (hbits : s.holdsAt s.ptr.decPtr.toNat (s.codeRead k).code)
    (hfit : s.ptr.decPtr.toNat + (s.codeRead k).code.length ≤ s.decLimit) :
    exec .decSym s = .next (s.commitSymbol k (s.ptr.decPtr.toNat + (s.codeRead k).code.length)) := by
  have hlen := h.coded k List.mem_cons_self
  by_cases h1 : s.tree.nleaves = 1
  · obtain ⟨hcode, rfl⟩ := h.code.single h.valid (congrArg BitVec.toNat h1) k hlen
    rw [hcode] at hfit ⊢
    exact exec_decSym_single h.valid h1 hfit
  · have hne : (s.codeRead k).code ≠ [] := fun e =>
      hlen (BitVec.eq_of_toNat_eq ((s.codeRead k).length_code.symm.trans (congrArg List.length e)))
    have h2 := h.tree.two_le_nleaves h.valid h1
    obtain ⟨n, hn, hpath, rfl⟩ := h.code.leads h.valid h2 k hlen
    have hl : (s.nodeRead n).isLeaf = true := by
      rw [h.tree.shape n (by rw [State.nnodes, if_pos h.valid]; omega), decide_eq_true hn]
    exact exec_decSym_path h.valid h1 hne hbits hfit (h.atRoot ▸ hpath) hl

/-- R116: the limit is the end of the codes. -/
theorem State.Decodable.decLimit_eq (h : s.Decodable text) :
    s.decLimit = s.ptr.decPtr.toNat + (s.codeOfText text).length := by
  rw [State.decLimit, Nat.min_eq_left h.fits, h.ends]

/-- R120: DEC_SYM emits the first symbol, and the machine is about to decode the rest. -/
theorem State.Decodable.cons (h : s.Decodable (k :: text)) :
    ∃ next, exec .decSym s = .next (s.commitSymbol k next) ∧ (s.commitSymbol k next).complete.Decodable text := by
  have hbits := h.bits
  have hends := h.ends
  have hlimit := h.decLimit_eq
  rw [s.codeOfText_cons] at hbits hends hlimit
  rw [List.length_append] at hends hlimit
  obtain ⟨hfirst, hrest⟩ := s.holdsAt_append.1 hbits
  have hfit : s.ptr.decPtr.toNat + (s.codeRead k).code.length ≤ s.decLimit := by omega
  have hptr := State.toNat_decPtr_commitSymbol (k := k) hfit
  refine ⟨_, h.toCoded.exec_decSym hfirst hfit, h.toCoded.tail.congr rfl rfl rfl rfl, ?_, ?_, h.fits⟩
  · rw [State.complete_ptr, hptr]
    exact hrest
  · rw [State.complete_ptr, hptr, Nat.add_assoc]
    exact hends

/-- R120: one DEC_SYM a symbol, the text is emitted and no bit is left. -/
theorem State.Decodable.decodeText (h : s.Decodable text) :
    ∃ t, decodeText text.length s = (text, t) ∧ t.error = s.error ∧ t.ptr.decEnd = s.ptr.decEnd ∧ t.Decodable [] := by
  induction text generalizing s with
  | nil => exact ⟨s, rfl, rfl, rfl, h⟩
  | cons k text ih =>
    obtain ⟨next, hexec, hrest⟩ := h.cons
    obtain ⟨t, hrun, herr, hend, ht⟩ := ih hrest
    refine ⟨t, ?_, herr, hend, ht⟩
    rw [List.length_cons, Machine.decodeText, hexec]
    simp only [hrun, State.commitSymbol_dec]

end Decoding

/-- Settles O46: `Decodable.decodeText`; at its end DEC_PTR is the limit. -/
theorem decodingRecoversTheText : Obligations.DecodingRecoversTheText := by
  intro s text hi hv hroot hcoded hbits hends hfits
  have h : s.Decodable text := ⟨⟨hi.tree, hi.code, hv, hroot, hcoded⟩, hbits, hends, hfits⟩
  obtain ⟨t, hrun, herr, hend, ht⟩ := h.decodeText
  have hptr : t.ptr.decPtr = s.ptr.decEnd := hend ▸ BitVec.eq_of_toNat_eq ht.ends.symm
  exact ⟨t, hrun, herr, hptr, ht.atRoot, exec_decFinish ht.valid ht.atRoot,
    exec_decSym_noInput ht.valid ht.decLimit_eq.le⟩

/-! ### The round trip -/

/-- R123, R125: a run of commands can be cut in two. -/
theorem runCommands_append {is : List Instr} (js : List Instr) (h : runCommands is s = .next t) :
    runCommands (is ++ js) s = runCommands js t := by
  induction is generalizing s with
  | nil => rw [Host.Outcome.next.inj h, List.nil_append]
  | cons i is ih =>
    obtain ⟨u, hu⟩ := exec_answers i s
    rw [runCommands_cons _ hu] at h
    rw [List.cons_append, runCommands_cons _ hu, ih h]

/-- What each command of a run keeps, the run keeps. -/
theorem runCommands_keeps {α : Type} (view : State → α) {is : List Instr}
    (hkeep : ∀ i ∈ is, ∀ s t, exec i s = .next t → view t.complete = view s) (h : runCommands is s = .next t) :
    view t = view s := by
  induction is generalizing s with
  | nil => rw [Host.Outcome.next.inj h]
  | cons i is ih =>
    obtain ⟨hi, his⟩ := List.forall_mem_cons.1 hkeep
    obtain ⟨u, hu⟩ := exec_answers i s
    rw [runCommands_cons _ hu] at h
    rw [ih his h, hi s u hu]

/-- R7: no command changes the parameter. -/
theorem exec_params {i : Instr} (h : exec i s = .next t) : t.params = s.params := by
  obtain hc | ⟨c, w, rfl, -⟩ := exec_next h
  · exact hc.params
  · rfl

/-- What encoding leaves to the decoder: the tree, the cursor, the two tables and the parameter. -/
def State.codeView (s : State) : TreeState × NodeIdx × (Nat → NodeRec) × (Symbol → CodeEntry) × Params :=
  (s.tree, s.dec.cursor, s.nodeRead, s.codeRead, s.params)

/-- R107, R132: ENC_SYM writes none of them, whether it fails or not. -/
theorem exec_encSym_codeView (h : exec (.encSym k) s = .next t) : t.complete.codeView = s.codeView := by
  obtain hc | ⟨c, w, rfl, -⟩ := exec_next h
  · cases hc with
    | encSym => rfl
  · rfl

/-- R107: nor does encoding a text. -/
theorem runCommands_encSyms_codeView {text : List Symbol} (h : runCommands (text.map .encSym) s = .next t) :
    t.codeView = s.codeView :=
  runCommands_keeps State.codeView (List.forall_mem_map.2 fun _ _ _ _ => exec_encSym_codeView) h

section RoundTrip
variable {text : List Symbol}

/-- R89, R101, R102: counting a non-empty text and BUILD give the text's symbols codes. -/
theorem runCommands_count_build (s : State) (hne : text ≠ []) (hlen : text.length < 2 ^ 32) :
    ∃ t, runCommands (.freqClear :: text.map .freqInc ++ [.build]) s = .next t ∧ t.error = s.error ∧ t.Coded text := by
  obtain ⟨u, hrun, herr, hcount⟩ := countingATextGivesItsCounts s text hlen
  have hcounted (k : Symbol) (hk : k ∈ text) : u.freqRead k ≠ 0 := fun h0 => by
    have hzero : text.count k = 0 := by rw [← hcount, h0]; rfl
    exact List.count_eq_zero.1 hzero hk
  obtain ⟨k₀, hk₀⟩ := List.exists_mem_of_ne_nil text hne
  have h : ∃ k, u.freqRead k ≠ 0 := ⟨k₀, hcounted k₀ hk₀⟩
  have hcoded : u.commitBuild.Coded text :=
    ⟨commitBuild_treeInv u h, commitBuild_codeInv u h, rfl, rfl,
      fun k hk => (commitBuild_len_ne_zero u h k).2 (hcounted k hk)⟩
  refine ⟨u.commitBuild.complete, ?_, herr, hcoded.congr rfl rfl rfl rfl⟩
  rw [runCommands_append _ hrun, runCommands_cons _ (exec_build_eq u h), runCommands]

/-- R121: before encoding, the host writes ENC_PTR. -/
def State.toEncode (s : State) : State := { s with ptr := { s.ptr with encPtr := 0 } }

/-- R121: before decoding, the host points DEC_PTR and DEC_END at what was encoded. -/
def State.toDecode (s : State) : State := { s with ptr := { s.ptr with decPtr := 0, decEnd := s.ptr.encPtr } }

/-- R110, R121: a text that fits is encoded from bit 0 on, and its codes are still those of the tree. -/
theorem State.Coded.encode (h : s.Coded text) (hp : s.params.wellFormed = true)
    (hfit : (s.codeOfText text).length ≤ s.bitmemBits) :
    ∃ t, runCommands (text.map .encSym) s.toEncode = .next t ∧ t.error = s.error ∧ t.Coded text ∧
      t.codeOfText text = s.codeOfText text ∧ t.holdsAt 0 (t.codeOfText text) ∧
      t.ptr.encPtr.toNat = (t.codeOfText text).length ∧ t.bitmemBits = s.bitmemBits := by
  have hzero : s.toEncode.ptr.encPtr.toNat = 0 := rfl
  obtain ⟨t, hrun, herr, -, hbits, hend⟩ :=
    runCommands_encSyms text s.toEncode hp h.valid h.coded (by rw [hzero, Nat.zero_add]; exact hfit)
  rw [hzero, Nat.zero_add] at hend
  rw [hzero] at hbits
  have hview : t.codeView = s.codeView := (runCommands_encSyms_codeView hrun).trans rfl
  simp only [State.codeView, Prod.mk.injEq] at hview
  obtain ⟨ht, hcur, hn, hc, hparams⟩ := hview
  have htext : t.codeOfText text = s.codeOfText text := by rw [State.codeOfText, State.codeOfText, hc]
  have hroot : t.dec.cursor = t.tree.root := by rw [hcur, ht, h.atRoot]
  have hsize : t.bitmemBits = s.bitmemBits := by rw [State.bitmemBits, State.bitmemBits, hparams]
  exact ⟨t, hrun, herr, h.congr ht hn hc hroot, htext, htext ▸ hbits, htext ▸ hend, hsize⟩

/-- R114, R121: then DEC_RESET leaves the text to be decoded. -/
theorem State.Coded.decodable (h : s.Coded text) (hbits : s.holdsAt 0 (s.codeOfText text))
    (hptr : s.ptr.encPtr.toNat = (s.codeOfText text).length) (hfit : (s.codeOfText text).length ≤ s.bitmemBits) :
    (s.toDecode.moveCursor s.tree.root).complete.Decodable text :=
  ⟨h.congr rfl rfl rfl rfl, hbits, hptr.trans (Nat.zero_add _).symm, hptr.trans_le hfit⟩

end RoundTrip

/-- Settles O47: the encoder leaves the text's codes in the stream from bit 0 on and the tree as BUILD made it, so after
DEC_RESET the text is `Decodable`. -/
theorem roundTripGivesTheTextBack : Obligations.RoundTripGivesTheTextBack := by
  intro s text hne hlen hp
  obtain ⟨s₁, hbuild, herr₁, hcoded₁⟩ := runCommands_count_build s hne hlen
  have hparams : s₁.params = s.params := runCommands_keeps State.params (fun _ _ _ _ => exec_params) hbuild
  refine ⟨s₁, hbuild, herr₁, fun hfit => ?_⟩
  have hfit₁ : (s₁.codeOfText text).length ≤ s₁.bitmemBits := by rwa [State.bitmemBits, hparams]
  obtain ⟨s₂, hencode, herr₂, hcoded₂, htext, hbits, hptr, hsize⟩ := hcoded₁.encode (hparams ▸ hp) hfit₁
  have hdecodable := hcoded₂.decodable hbits hptr (by rwa [htext, hsize])
  obtain ⟨t, hdecode, herr, -, ht⟩ := hdecodable.decodeText
  exact ⟨s₂, hencode, htext ▸ hptr, _, rfl, t, hdecode, exec_decFinish ht.valid ht.atRoot,
    herr.trans (herr₂.trans herr₁)⟩

end Sys2Proof.Machine

/-! The control commands and the life of a command (44_control.md): the proofs. -/

/-! ### Acceptance -/

namespace Sys2Proof

variable {w : Word}

/-- R80: a word whose OP takes no operand is illegal when another bit is set. -/
theorem decode_error_of_format_n (hf : formatOf (opField w) = some .n) (h : w.extractLsb' 8 24 ≠ 0) :
    ∃ why, decode w = .error why := by
  rw [decode_error_iff_not_wellFormed, wellFormed_fieldsOf_iff]
  rintro ⟨f, hf', hfits⟩
  obtain rfl : Format.n = f := Option.some.inj (hf.symm.trans hf')
  exact h hfits

end Sys2Proof

namespace Sys2Proof.Machine

variable {s : State} {w : Word} {i : Instr}

/-- R122: the OPs that the error lock-out lets through. -/
theorem exemptOp_iff :
    exemptOp w = true ↔ w.extractLsb' 0 8 = 0x00 ∨ w.extractLsb' 0 8 = 0x01 ∨ w.extractLsb' 0 8 = 0x02 := by
  rw [exemptOp, decide_eq_true_iff]
  generalize w.extractLsb' 0 8 = op
  bv_omega

/-- R78, R122: none of them takes an operand. -/
theorem formatOf_exempt (h : exemptOp w = true) : formatOf (opField w) = some .n := by
  rw [opField]
  rcases exemptOp_iff.1 h with h | h | h <;> rw [h] <;> rfl

/-- R122: the error lock-out discards a word. -/
theorem accept_lockedOut (he : s.error.err = true) (hx : exemptOp w = false) : s.accept w = s.drop := by
  simp [State.accept, he, hx]

/-- R122: with BUSY = 0 a word that is not locked out becomes the pending one. -/
theorem accept_free (hb : s.cmd.busy = false) (h : s.error.err = false ∨ exemptOp w = true) :
    s.accept w = { s with cmd := { busy := true, pending := w, lastCmd := w } } := by
  rcases h with h | h <;> simp [State.accept, hb, h]

/-- Settles O6: CMD is written at any time and the write is `accept`, whose three cases these are. -/
theorem commandWordIsAcceptedOrDropped : Obligations.CommandWordIsAcceptedOrDropped := by
  intro s w
  have hwrite : s.busWrite 0x010 w = (.write false, s.accept w) := busWrite_reg .cmd (.inl rfl) w
  simp only [hwrite, ← exemptOp_iff]
  refine ⟨trivial, fun hb => accept_busy hb w, fun _ he h₀ h₁ h₂ => ?_, accept_free,
    fun hx => decode_error_of_format_n (formatOf_exempt hx)⟩
  have hx : exemptOp w = false := by
    rw [Bool.eq_false_iff, Ne, exemptOp_iff]
    exact not_or.2 ⟨h₀, not_or.2 ⟨h₁, h₂⟩⟩
  exact accept_lockedOut he hx

/-! ### Execution and completion -/

theorem onNext_onNext (f g : State → State) (o : Host.Outcome State Fault Refusal) :
    onNext g (onNext f o) = onNext (fun t => g (f t)) o := by cases o <;> rfl

/-- R123: the outcome of a word that decodes is its command's. -/
theorem outcome_of_decode (hd : decode s.cmd.pending = .ok i) : s.outcome = exec i s := by rw [State.outcome, hd]

/-- R123: the sequencer's move is the pending word's outcome, completed. -/
theorem step_execute (hm : s.mover = some .sequencer) :
    step s = onNext (fun t => t.complete.turnTaken) s.outcome := by
  rw [step, hm]
  exact onNext_onNext ..

/-- Settles O7: `step_execute`, whose outcome is the decoded command's. -/
theorem stepRunsThePendingCommand : Obligations.StepRunsThePendingCommand := by
  intro s i hm hd
  rw [step_execute hm, outcome_of_decode hd]

/-- R131, R132, R134: every pending word, legal or not, has a next state for its outcome. -/
theorem outcome_answers (s : State) : ∃ t, s.outcome = .next t := by
  rcases outcome_cases s with ⟨_, t, _, ho, _⟩ | ⟨_, _, _, _, ho, _⟩ | ⟨_, _, ho⟩
  all_goals exact ⟨_, ho⟩

/-- Settles O9: the step ends with `complete`, whatever state the outcome left. -/
theorem completionEndsEveryCommand : Obligations.CompletionEndsEveryCommand := by
  intro s hm
  obtain ⟨t, ho⟩ := outcome_answers s
  have hstep : step s = .next t.complete.turnTaken := by rw [step_execute hm, ho, onNext_next]
  exact ⟨_, hstep, rfl, rfl, rfl⟩

/-! ### The control commands -/

/-- R126: NOP. -/
theorem exec_nop (s : State) : exec .nop s = .next s := rfl

/-- R128, R135: CLR_ERR. -/
theorem exec_clrErr (s : State) : exec .clrErr s = .next s.clearError := rfl

/-- R127: SOFT_RESET. -/
theorem exec_softReset (s : State) : exec .softReset s = .next s.softReset := rfl

/-- Settles O20: NOP answers the state itself, and `clearError` writes the error state's reset value, each of whose four
fields is 0, and nothing else. -/
theorem nopAndClrErrWriteOnlyTheirOwn : Obligations.NopAndClrErrWriteOnlyTheirOwn :=
  fun s => ⟨exec_nop s, exec_clrErr s⟩

/-- Settles O21: `softReset` writes the reset values of R47 to the tree, the decoder, the pointers and the error state,
and of the command and interrupt state it writes LAST_CMD and DONE alone. -/
theorem softResetClearsTheControlState : Obligations.SoftResetClearsTheControlState := exec_softReset

end Sys2Proof.Machine

/-! Errors and the interrupt line (60_exceptions.md): the proofs. -/

namespace Sys2Proof.Machine

variable {s t : State} {i : Instr} {c : ErrCode} {w : Word}

/-! ### What an error changes -/

/-- R135: of the commands that commit, only the two returns from an error write the error state. -/
theorem Committed.error_eq (h : Committed s i t) (hclr : i ≠ .clrErr) (hsoft : i ≠ .softReset) :
    t.error = s.error := by
  cases h with
  | clrErr => exact absurd rfl hclr
  | softReset => exact absurd rfl hsoft
  | _ => rfl

/-- R132: any other command keeps the error state, or it fails and only records its failure. -/
theorem exec_error (hclr : i ≠ .clrErr) (hsoft : i ≠ .softReset) (h : exec i s = .next t) :
    t.error = s.error ∨ ∃ c w, t = s.raise c w ∧ Failed s i c w :=
  (exec_next h).imp_left fun hc => hc.error_eq hclr hsoft

/-- Settles O13: a failure is `State.raise`, with a code that is not NONE. -/
theorem failureChangesOnlyTheErrorState : Obligations.FailureChangesOnlyTheErrorState := by
  intro i s t hclr hsoft h
  obtain he | ⟨c, w, rfl, hf⟩ := exec_error hclr hsoft h
  · exact .inl he
  · exact .inr ⟨c, w, hf.code_ne_none, rfl⟩

/-! ### Which command raises which error -/

/-- Settles O14: a change of the error state is a failure's record, and each reason to fail has its row. -/
theorem errorsAreThoseOfTheTable : Obligations.ErrorsAreThoseOfTheTable := by
  intro i s t hclr hsoft h hne
  obtain ⟨c, w, rfl, hf⟩ := (exec_error hclr hsoft h).resolve_left hne
  rw [State.raise_error]
  cases hf with
  | @noTreeBit b | @bitFromLeaf b => cases b <;> simp
  | _ => simp

/-! ### The error lock-out -/

/-- R73, R122: the error lock-out judges a command's word by the command's OP. -/
theorem exemptOp_encode (i : Instr) : exemptOp (encode i) = decide (i.fields.op.toNat ≤ 2) :=
  congrArg (fun f : Fields => decide (f.op.toNat ≤ 2)) (fieldsOf_encode i)

/-- R136: the commands that the error lock-out lets through raise no error. -/
theorem Failed.encode_not_exempt (h : Failed s i c w) : exemptOp (encode i) = false := by
  rw [exemptOp_encode]
  cases h <;> rfl

/-- Settles O15: the pending word has an exempt OP, so it is a command that does not fail or it is illegal. -/
theorem secondFailureCanOnlyBeIllegalCommand : Obligations.SecondFailureCanOnlyBeIllegalCommand := by
  intro s t hi he hm h
  have hexempt : exemptOp s.cmd.pending = true := hi.control.lockedOut (mover_sequencer hm) he
  rw [step_execute hm] at h
  obtain ⟨i, u, -, ho, hc⟩ | ⟨i, c, w, hd, -, hf⟩ | ⟨_, -, ho⟩ := outcome_cases s
  · rw [ho] at h
    obtain rfl := Host.Outcome.next.inj h
    exact hc.error.imp_right .inl
  · rw [← encode_of_decode hd, hf.encode_not_exempt] at hexempt
    exact absurd hexempt Bool.false_ne_true
  · rw [ho] at h
    obtain rfl := Host.Outcome.next.inj h
    exact .inr (.inr rfl)

/-- Settles O10: each of the three kinds of step has a next state. -/
theorem everyStepGoesOn : Obligations.EveryStepGoesOn := by
  intro s
  obtain ⟨-, u, -, h⟩ | ⟨-, h⟩ | ⟨-, h⟩ := step_cases s
  all_goals exact ⟨_, h⟩

/-! ### The interrupt line -/

/-- Bit `i` of INT_PEND (R31). -/
theorem getLsbD_intPendWord (s : State) (i : Nat) : s.intPendWord.getLsbD i = (s.irq.done && decide (i = 0)) :=
  getLsbD_bitAt (by omega) s.irq.done i

/-- Bit `i` of IRQ_EN (R32). -/
theorem getLsbD_irqEnWord (s : State) (i : Nat) :
    s.irqEnWord.getLsbD i = ((s.irq.doneIe && decide (i = 0)) || (s.irq.errIe && decide (i = 1))) := by
  rw [State.irqEnWord, BitVec.getLsbD_or, getLsbD_bitAt (by omega), getLsbD_bitAt (by omega)]

/-- Settles O54: INT_PEND and IRQ_EN are accessible at any time, and INT_PEND's write tests bit 0. -/
theorem interruptLineAndItsSources : Obligations.InterruptLineAndItsSources := by
  intro s v
  have hpend : s.busWrite 0x020 v = (.write false, s.writeReg v .intPend) := busWrite_reg .intPend (.inl rfl) v
  refine ⟨rfl, fun h => ?_, fun h => ?_, busWrite_reg .irqEn (.inl rfl) v,
    ⟨s.intPendWord, busRead_reg .intPend (.inl rfl), ?_, fun i hi => ?_⟩,
    ⟨s.irqEnWord, busRead_reg .irqEn (.inl rfl), ?_, ?_, fun i hi => ?_⟩⟩
  · rw [hpend, State.writeReg, if_pos h]
  · rw [hpend, State.writeReg, if_neg (Bool.eq_false_iff.1 h)]
  · exact (getLsbD_intPendWord s 0).trans (by simp)
  · simp [getLsbD_intPendWord, show i ≠ 0 by omega]
  · exact (getLsbD_irqEnWord s 0).trans (by simp)
  · exact (getLsbD_irqEnWord s 1).trans (by simp)
  · simp [getLsbD_irqEnWord, show i ≠ 0 by omega, show i ≠ 1 by omega]

end Sys2Proof.Machine

/-! Reset and hazards (70_reset_and_hazards.md): the proofs. -/

namespace Sys2Proof.Machine

variable {s t u : State} {a : Offset} {v : Word} {i : Input} {k : Nat}

/-! ### Hardware reset -/

/-- Settles O5: both inputs leave `State.reset` but for the parameter and the model's own fields, whose answer to an
overlapping transaction is `overlapResponse`. -/
theorem hardwareResetAtAnyMoment : Obligations.HardwareResetAtAnyMoment := by
  rintro s i rest hi hm (rfl | ⟨isWrite, rfl⟩)
  · exact ⟨_, step_hardReset hm hi, rfl, rfl, rfl, rfl, rfl, rfl, rfl, rfl, rfl, fun _ => rfl, fun _ => rfl,
      nofun, nofun⟩
  · refine ⟨_, step_access (r := (overlapResponse isWrite s.env.draws, s.hardReset.drawn)) hm hi rfl,
      rfl, rfl, rfl, rfl, rfl, rfl, rfl, rfl, rfl, fun _ => rfl, fun _ => rfl, ?_, ?_⟩
    all_goals
      rintro ⟨⟩
      rfl

/-! ### The pending command under host steps -/

/-- R122: with BUSY = 1 no bus write changes the command state; in particular CMD accepts no second word. -/
theorem Written.cmd_eq (h : Written s a v t) (hb : s.cmd.busy = true) : t.cmd = s.cmd := by
  cases h with
  | accepted hfree => exact absurd hb (Bool.eq_false_iff.1 hfree)
  | _ => rfl

/-- R145: the two inputs that reset HTB, `rst_n` alone and with a transaction on the port. -/
def Input.resets (i : Input) : Prop := i = .hardReset ∨ ∃ isWrite, i = .hardResetDuring isWrite

/-- R122, R145: with BUSY = 1 an input leaves the pending command, unless it is a reset, which abandons it. -/
theorem Received.cmd_cases (h : Received s i t) (hb : s.cmd.busy = true) :
    t.cmd = s.cmd ∨ t.cmd.busy = false ∧ i.resets := by
  cases h with
  | read i e he => exact .inl rfl
  | write e hw he | strobedWrite e hw he => exact .inl (hw.cmd_eq hb)
  | hardReset e => exact .inr ⟨rfl, .inl rfl⟩
  | hardResetDuring isWrite e => exact .inr ⟨rfl, .inr ⟨isWrite, rfl⟩⟩

/-! ### Fairness -/

/-- R159: with BUSY = 1 the sequencer moves, unless the tape has an entry for the host. -/
theorem mover_busy (hb : s.cmd.busy = true) :
    s.mover = some .sequencer ∨ s.mover = some .host ∧ ∃ turns, s.env.turns = .host :: turns := by
  rw [State.mover, if_pos hb]
  split
  · exact .inl rfl
  · match s.env.turns with
    | [] | .sequencer :: _ => exact .inl rfl
    | .host :: turns => exact .inr ⟨rfl, turns, rfl⟩

/-- A run that begins with a step. -/
theorem run_of_step (h : step s = .next t) (k : Nat) :
    Host.Core.run Sys2Proof.core (k + 1) s = Host.Core.run Sys2Proof.core k t := by rw [run_succ, h]

/-- A run that ends with a step. -/
theorem run_then_step (hrun : Host.Core.run Sys2Proof.core k s = .next u) (h : step u = .next t) :
    Host.Core.run Sys2Proof.core (k + 1) s = .next t := by
  induction k generalizing s with
  | zero =>
    obtain rfl : s = u := Host.Outcome.next.inj hrun
    exact run_of_step h 0
  | succ k ih =>
    obtain ⟨s', hs'⟩ := everyStepGoesOn s
    rw [run_of_step hs'] at hrun ⊢
    exact ih hrun

/-- R122, R145, R159: each host step before the sequencer's uses up an entry of the tape, and what it can do to the
pending command is `Received.cmd_cases`. -/
theorem pending_run (hb : s.cmd.busy = true) :
    ∃ k ≤ s.env.turns.length, ∃ u, Host.Core.run Sys2Proof.core k s = .next u ∧
      (u.mover = some .sequencer ∧ u.cmd = s.cmd ∨ u.cmd.busy = false ∧ ∃ i ∈ s.env.host, i.resets) := by
  induction hn : s.env.turns.length generalizing s with
  | zero =>
    obtain hm | ⟨-, turns, hturns⟩ := mover_busy hb
    · exact ⟨0, le_rfl, s, rfl, .inl ⟨hm, rfl⟩⟩
    · simp [hturns] at hn
  | succ n ih =>
    obtain hm | ⟨hm, turns, hturns⟩ := mover_busy hb
    · exact ⟨0, Nat.zero_le _, s, rfl, .inl ⟨hm, rfl⟩⟩
    obtain ⟨i, rest, hi⟩ := List.exists_cons_of_ne_nil (mover_host hm)
    obtain ⟨htape, hhost⟩ := hostStep_env s
    have hrun := run_of_step (step_host hm)
    obtain hcmd | ⟨hidle, hreset⟩ := (hostStep_received hi).cmd_cases hb
    · have hlen : s.hostStep.turnTaken.env.turns.length = n := by
        rw [htape, List.length_tail, hn, Nat.add_sub_cancel]
      obtain ⟨k, hk, u, hu, hend⟩ := ih (hcmd ▸ hb) hlen
      refine ⟨k + 1, Nat.succ_le_succ hk, u, (hrun k).trans hu, ?_⟩
      rw [hcmd] at hend
      exact hend.imp_right fun ⟨hidle, j, hj, hreset⟩ => ⟨hidle, j, hhost j hj, hreset⟩
    · exact ⟨1, Nat.succ_le_succ (Nat.zero_le n), _, hrun 0, .inr ⟨hidle, i, hi ▸ List.mem_cons_self, hreset⟩⟩

/-- Settles O12: `pending_run` brings the sequencer's turn, whose step completes, or a reset, which needs one among the
host's inputs. -/
theorem pendingCommandIsNotLeftPending : Obligations.PendingCommandIsNotLeftPending := by
  intro s hb
  obtain ⟨k, hk, u, hrun, ⟨hm, hcmd⟩ | ⟨hidle, i, hi, hreset⟩⟩ := pending_run hb
  · obtain ⟨t, hstep, hidle, hdone⟩ := step_sequencer hm
    exact ⟨⟨k + 1, Nat.succ_le_succ hk, t, run_then_step hrun hstep, hidle⟩,
      fun _ => ⟨k, hk, u, t, hrun, hm, congrArg CommandState.pending hcmd, hstep, hidle, hdone⟩⟩
  · refine ⟨⟨k, hk.trans (Nat.le_succ _), u, hrun, hidle⟩, fun hnone => ?_⟩
    obtain ⟨hne, hneDuring⟩ := hnone i hi
    obtain rfl | ⟨isWrite, rfl⟩ := hreset
    · exact absurd rfl hne
    · exact absurd rfl (hneDuring isWrite)

end Sys2Proof.Machine
